-- ==== Sys2Proof/Word.lean ====
section
/-! DEFINITION. The word types of the LZC core (R7, R16, R39). A Code of the spec is a natural below `MAX_CODE`; a
register may transiently hold `MAX_CODE` (R16, R21). It is held as a `Nat`, its bound an invariant (log 3). -/

namespace Sys2Proof

/-- A byte of a stream or a buffer. -/
abbrev Byte := BitVec 8

/-- A Symbol: one byte, all 256 values (R7, R16). -/
abbrev Symbol := Byte

/-- A value on the host's register port (R39). -/
abbrev Word64 := BitVec 64

end Sys2Proof
end

