-- ==== Sys2Proof/Config.lean ====
section
/-! DEFINITION. The implementation parameters (R8 to R12), their values on this hardware, and the free values: what
the spec leaves unspecified, as constants with no body. -/

namespace Sys2Proof

/-- The parameters a model takes as arguments (R12). -/
structure Params where
  /-- `STOP_CODE`, the end-of-stream sentinel (R8, R97). -/
  stopCode : Nat
  /-- `EMPTY_CODE`, the code of the zero-length word (R8, R97). -/
  emptyCode : Nat
  /-- `START_CODE`, the first code of a real entry (R8). -/
  startCode : Nat
  /-- `MAX_CODE`, the dictionary's capacity (R9). -/
  maxCode : Nat
  /-- `BLOCK`, the size in bytes of each buffer (R10). -/
  block : Nat
  deriving DecidableEq, Repr

/-- The values for this hardware (R8, R9, R10; D1, D2, D3). -/
def Params.hw : Params where
  stopCode := 0
  emptyCode := 1
  startCode := 2
  maxCode := 65536
  block := 4096

/-- The constraints of R8, R9, R10. -/
def Params.wf (p : Params) : Bool :=
  p.stopCode != p.emptyCode
    && p.startCode == max p.stopCode p.emptyCode + 1
    && p.startCode ≥ 2
    && p.maxCode == 2 ^ p.maxCode.log2
    && p.startCode < p.maxCode
    && 1 ≤ p.block

/-- `CODE_BITS = log2(MAX_CODE)` (R9). -/
def Params.codeBits (p : Params) : Nat := p.maxCode.log2

/-- The least code-field width, `BITLEN(START_CODE)` (R194). -/
def Params.minWidth (p : Params) : Nat := p.startCode.log2 + 1

/-- A code an entry can have (R9). -/
def Params.isEntry (p : Params) (c : Nat) : Bool := p.startCode ≤ c && c < p.maxCode

/-- An index of the dictionaries; `STOP_CODE` is none (R73). -/
def Params.isIndex (p : Params) (c : Nat) : Bool := c == p.emptyCode || p.isEntry c

/-! Free values. The first argument is the number of times state has been left unspecified (`State.draws`). -/

/-- `BITLEN(0)`, which R190 leaves undefined (log 21). -/
opaque Config.bitlenZero : Nat

/-- `prev` after `HW_RESET` and after a run (R45, R46; log 7, log 8). -/
opaque Config.freePrev : Nat → Nat

/-- `last_sym` after `HW_RESET` and after a run (R45, R46; log 7, log 8). -/
opaque Config.freeLastSym : Nat → Symbol

/-- The trie's contents after `HW_RESET` and after a run, as key and child pairs (R45, R46; log 7, log 8). -/
opaque Config.freeTrie : Nat → List (Nat × Nat)

/-- The word table's contents after `HW_RESET` and after a run (R45, R46; log 7, log 8). -/
opaque Config.freeWords : Nat → List (Nat × List Symbol)

/-- `next_code` after a run (R46; log 8). -/
opaque Config.freeNextCode : Nat → Nat

/-- `cur` after a run (R46; log 8). -/
opaque Config.freeCur : Nat → Nat

/-- `p_bits` after a run (R46; log 8). -/
opaque Config.freePBits : Nat → Nat

/-- `p_len` after a run (R46; log 8). -/
opaque Config.freePLen : Nat → Nat

/-- `s_idx` after a run (R46; log 8). -/
opaque Config.freeSIdx : Nat → Nat

/-- `s_len` after a run (R46; log 8). -/
opaque Config.freeSLen : Nat → Nat

/-- A byte of SYMBUF that nothing has written (R43, R45; log 6). -/
opaque Config.freeSymByte : Nat → Nat → Byte

/-- A bit of PAIRBUF that nothing has written (R43, R45; log 6). -/
opaque Config.freePairBit : Nat → Nat → Bool

end Sys2Proof
end

