-- ==== Sys2Proof/Syntax.lean ====
section
/-! DEFINITION. The operations of the LZC core: one constructor per row of spec/opcode_table.json. -/

namespace Sys2Proof

/-- The two buffers a byte transfer can name (R120, R121): SYMBUF (R40) and PAIRBUF (R41). -/
inductive Buf where
  | sym
  | pair
  deriving DecidableEq, Repr

/-- The fatal faults that `raise` takes in this hardware: `BAD_CODE` alone (R236). -/
inductive FatalFault where
  | badCode
  deriving DecidableEq, Repr

/-- The operation set (R2, R104). -/
inductive Instr where
  -- format P: PAIR records, code field of the width in the name, then the symbol (R91)
  | pairW2 (code : BitVec 2) (sym : Symbol)
  | pairW3 (code : BitVec 3) (sym : Symbol)
  | pairW4 (code : BitVec 4) (sym : Symbol)
  | pairW5 (code : BitVec 5) (sym : Symbol)
  | pairW6 (code : BitVec 6) (sym : Symbol)
  | pairW7 (code : BitVec 7) (sym : Symbol)
  | pairW8 (code : BitVec 8) (sym : Symbol)
  | pairW9 (code : BitVec 9) (sym : Symbol)
  | pairW10 (code : BitVec 10) (sym : Symbol)
  | pairW11 (code : BitVec 11) (sym : Symbol)
  | pairW12 (code : BitVec 12) (sym : Symbol)
  | pairW13 (code : BitVec 13) (sym : Symbol)
  | pairW14 (code : BitVec 14) (sym : Symbol)
  | pairW15 (code : BitVec 15) (sym : Symbol)
  | pairW16 (code : BitVec 16) (sym : Symbol)
  -- format P: STOP records, the symbol field is carried and ignored (R94, R100)
  | stopW2 (sym : Symbol)
  | stopW3 (sym : Symbol)
  | stopW4 (sym : Symbol)
  | stopW5 (sym : Symbol)
  | stopW6 (sym : Symbol)
  | stopW7 (sym : Symbol)
  | stopW8 (sym : Symbol)
  | stopW9 (sym : Symbol)
  | stopW10 (sym : Symbol)
  | stopW11 (sym : Symbol)
  | stopW12 (sym : Symbol)
  | stopW13 (sym : Symbol)
  | stopW14 (sym : Symbol)
  | stopW15 (sym : Symbol)
  | stopW16 (sym : Symbol)
  -- format S and the end-of-input event (R101, R102)
  | encSym (sym : Symbol)
  | encSymHit (sym : Symbol)
  | encSymMiss (sym : Symbol)
  | encEos
  -- what a record, or the lack of one, selects in the decoder (R96, R171, R172, R174, R175)
  | decPair (code : Nat) (sym : Symbol)
  | decStop
  | decTrunc
  | badCode (code : Nat)
  -- format C: writes of CTRL; bits 63:2 are carried and ignored (R103)
  | startEnc (reserved : BitVec 62)
  | startDec (reserved : BitVec 62)
  | ctrlNop (mode : BitVec 1) (reserved : BitVec 62)
  -- host port and pin (R215, R216)
  | csrRead (n : Nat)
  | hwReset
  -- internal operations (R90): the codec (R120 to R129)
  | rdBytes (buf : Buf) (n : Nat)
  | wrBytes (buf : Buf) (n : Nat)
  | rdSym
  | wrRun (word : List Symbol)
  | getBit
  | putBit (b : Bool)
  | rdPair (w : Nat)
  | wrPair (code : Nat) (sym : Symbol) (w : Nat)
  | flushPairs
  | flushSyms
  -- internal operations: dictionaries, code width, run start, fault entry (R154, R173, R190, R192, R213, R236)
  | trieReset
  | wtReset
  | bitlen (n : Nat)
  | advance
  | runInit
  | raise (f : FatalFault) (v : Nat)
  deriving DecidableEq, Repr

end Sys2Proof
end

