-- ==== Sys2Proof/WellFormed.lean ====
section
/-! DEFINITION. Which operations, with their operands, the spec's operations and encodings admit. -/

namespace Sys2Proof

/-- A record of code-field width `w` occurs on a machine with parameters `p` (R194). -/
def recordWidthOk (p : Params) (w : Nat) : Bool :=
  p.minWidth ≤ w && w ≤ p.codeBits

/-- The operand checks. A PAIR record's code is not `STOP_CODE` (R96); a record's width occurs on the machine
(R194); an illegal record names neither sentinel (R98); a transfer is at most `BLOCK` bytes and a push at least
one (R68, R120, R121); a code field is 1 to `CODE_BITS` bits wide (R126); a `Code` is below `MAX_CODE` (R16);
`BITLEN` takes `n >= 1` (R190); a fault value fits `info` (R36). -/
def Instr.wellFormed (p : Params) : Instr → Bool
  | .pairW2 code _ => recordWidthOk p 2 && code.toNat != p.stopCode
  | .pairW3 code _ => recordWidthOk p 3 && code.toNat != p.stopCode
  | .pairW4 code _ => recordWidthOk p 4 && code.toNat != p.stopCode
  | .pairW5 code _ => recordWidthOk p 5 && code.toNat != p.stopCode
  | .pairW6 code _ => recordWidthOk p 6 && code.toNat != p.stopCode
  | .pairW7 code _ => recordWidthOk p 7 && code.toNat != p.stopCode
  | .pairW8 code _ => recordWidthOk p 8 && code.toNat != p.stopCode
  | .pairW9 code _ => recordWidthOk p 9 && code.toNat != p.stopCode
  | .pairW10 code _ => recordWidthOk p 10 && code.toNat != p.stopCode
  | .pairW11 code _ => recordWidthOk p 11 && code.toNat != p.stopCode
  | .pairW12 code _ => recordWidthOk p 12 && code.toNat != p.stopCode
  | .pairW13 code _ => recordWidthOk p 13 && code.toNat != p.stopCode
  | .pairW14 code _ => recordWidthOk p 14 && code.toNat != p.stopCode
  | .pairW15 code _ => recordWidthOk p 15 && code.toNat != p.stopCode
  | .pairW16 code _ => recordWidthOk p 16 && code.toNat != p.stopCode
  | .stopW2 _ => recordWidthOk p 2
  | .stopW3 _ => recordWidthOk p 3
  | .stopW4 _ => recordWidthOk p 4
  | .stopW5 _ => recordWidthOk p 5
  | .stopW6 _ => recordWidthOk p 6
  | .stopW7 _ => recordWidthOk p 7
  | .stopW8 _ => recordWidthOk p 8
  | .stopW9 _ => recordWidthOk p 9
  | .stopW10 _ => recordWidthOk p 10
  | .stopW11 _ => recordWidthOk p 11
  | .stopW12 _ => recordWidthOk p 12
  | .stopW13 _ => recordWidthOk p 13
  | .stopW14 _ => recordWidthOk p 14
  | .stopW15 _ => recordWidthOk p 15
  | .stopW16 _ => recordWidthOk p 16
  | .encSym _ => true
  | .encSymHit _ => true
  | .encSymMiss _ => true
  | .encEos => true
  | .decPair code _ => code != p.stopCode && code < p.maxCode
  | .decStop => true
  | .decTrunc => true
  | .badCode code => code != p.stopCode && code != p.emptyCode && code < p.maxCode
  | .startEnc _ => true
  | .startDec _ => true
  | .ctrlNop _ _ => true
  | .csrRead _ => true
  | .hwReset => true
  | .rdBytes _ n => 1 ≤ n && n ≤ p.block
  | .wrBytes _ n => 1 ≤ n && n ≤ p.block
  | .rdSym => true
  | .wrRun _ => true
  | .getBit => true
  | .putBit _ => true
  | .rdPair w => 1 ≤ w && w ≤ p.codeBits
  | .wrPair code _ w => code < p.maxCode && 1 ≤ w && w ≤ p.codeBits
  | .flushPairs => true
  | .flushSyms => true
  | .trieReset => true
  | .wtReset => true
  | .bitlen n => 1 ≤ n
  | .advance => true
  | .runInit => true
  | .raise _ v => v < 2 ^ (p.codeBits + 1)

end Sys2Proof
end

