-- ==== Sys2Proof/Decode.lean ====
section
/-! DEFINITION. Decoding of the three formats, total on any bits, and after it the encoder. Bits are stream bits:
the least significant first (R63, R64). -/

namespace Sys2Proof

/-- The `w` low-order bits of `v`, least significant first (R64, R93). -/
def bitsLE (w v : Nat) : List Bool := (List.range w).map v.testBit

/-- The value of a field whose bits come least significant first: the sum of `bit k * 2^k` (R93, R94). -/
def natOfBits : List Bool → Nat
  | [] => 0
  | b :: bs => b.toNat + 2 * natOfBits bs

/-- The eight stream bits of a byte (R63). -/
def bitsOfByte (b : Byte) : List Bool := bitsLE 8 b.toNat

/-- The byte that holds eight stream bits (R63). -/
def byteOfBits (bs : List Bool) : Byte := BitVec.ofNat 8 (natOfBits bs)

/-- Bytes of stream bits, the last one completed with zeros (R81). The fuel is the number of bits: each byte takes
at least one. -/
def bytesOfBitsFuel : Nat → List Bool → List Byte
  | 0, _ => []
  | fuel + 1, bs => if bs.isEmpty then [] else byteOfBits (bs.take 8) :: bytesOfBitsFuel fuel (bs.drop 8)

/-- See `bytesOfBitsFuel`. -/
def bytesOfBits (bs : List Bool) : List Byte := bytesOfBitsFuel bs.length bs

/-- The three formats (R90). A record's code-field width comes from the decoder's own state, never from the
record (R95). -/
inductive Format where
  | record (w : Nat)
  | symbol
  | command
  deriving DecidableEq, Repr

/-- How many bits an encoding of the format has (R90, R103). -/
def Format.length : Format → Nat
  | .record w => w + 8
  | .symbol => 8
  | .command => 64

/-- Why bits are not an operation. -/
inductive DecodeError where
  /-- No record of this width occurs on the machine (R194). -/
  | noRecordOfWidth (w : Nat)
  /-- Fewer bits than the format has. -/
  | tooShort (have_ need : Nat)
  deriving DecidableEq, Repr

/-- The operation of a record with code field `code` of width `w` and symbol field `sym`: code `STOP_CODE` first,
else PAIR (R96). The table has rows for the widths 2 to 16 of this hardware; on a machine with a larger `MAX_CODE` a
wider record decodes to `DEC_STOP` or, whether or not its code names a word, to `DEC_PAIR` (DEDUCED, log 33). -/
def recordInstr (p : Params) (w code : Nat) (sym : Symbol) : Instr :=
  match w with
  | 2 => if code = p.stopCode then .stopW2 sym else .pairW2 (BitVec.ofNat 2 code) sym
  | 3 => if code = p.stopCode then .stopW3 sym else .pairW3 (BitVec.ofNat 3 code) sym
  | 4 => if code = p.stopCode then .stopW4 sym else .pairW4 (BitVec.ofNat 4 code) sym
  | 5 => if code = p.stopCode then .stopW5 sym else .pairW5 (BitVec.ofNat 5 code) sym
  | 6 => if code = p.stopCode then .stopW6 sym else .pairW6 (BitVec.ofNat 6 code) sym
  | 7 => if code = p.stopCode then .stopW7 sym else .pairW7 (BitVec.ofNat 7 code) sym
  | 8 => if code = p.stopCode then .stopW8 sym else .pairW8 (BitVec.ofNat 8 code) sym
  | 9 => if code = p.stopCode then .stopW9 sym else .pairW9 (BitVec.ofNat 9 code) sym
  | 10 => if code = p.stopCode then .stopW10 sym else .pairW10 (BitVec.ofNat 10 code) sym
  | 11 => if code = p.stopCode then .stopW11 sym else .pairW11 (BitVec.ofNat 11 code) sym
  | 12 => if code = p.stopCode then .stopW12 sym else .pairW12 (BitVec.ofNat 12 code) sym
  | 13 => if code = p.stopCode then .stopW13 sym else .pairW13 (BitVec.ofNat 13 code) sym
  | 14 => if code = p.stopCode then .stopW14 sym else .pairW14 (BitVec.ofNat 14 code) sym
  | 15 => if code = p.stopCode then .stopW15 sym else .pairW15 (BitVec.ofNat 15 code) sym
  | 16 => if code = p.stopCode then .stopW16 sym else .pairW16 (BitVec.ofNat 16 code) sym
  | _ => if code = p.stopCode then .decStop else .decPair code sym

/-- The operation of a raw input byte (R101). -/
def symbolInstr (b : Byte) : Instr := .encSym b

/-- The operation of a value written to CTRL: bit 0 START, bit 1 MODE, bits 63:2 ignored (R103). -/
def commandInstr (v : BitVec 64) : Instr :=
  if v.getLsbD 0 then
    if v.getLsbD 1 then .startDec (v.extractLsb' 2 62) else .startEnc (v.extractLsb' 2 62)
  else .ctrlNop (v.extractLsb' 1 1) (v.extractLsb' 2 62)

/-- Decode the integer form of an encoding: `R = code + sym * 2^w` for a record (R92). -/
def decodeValue (p : Params) (f : Format) (r : Nat) : Except DecodeError Instr :=
  match f with
  | .record w =>
    if recordWidthOk p w then .ok (recordInstr p w (r % 2 ^ w) (BitVec.ofNat 8 (r / 2 ^ w)))
    else .error (.noRecordOfWidth w)
  | .symbol => .ok (symbolInstr (BitVec.ofNat 8 r))
  | .command => .ok (commandInstr (BitVec.ofNat 64 r))

/-- Decode the operation at the front of a bit sequence; the rest of the sequence comes with it. -/
def decode (p : Params) (f : Format) (bits : List Bool) : Except DecodeError (Instr × List Bool) :=
  if bits.length < f.length then .error (.tooShort bits.length f.length)
  else
    match decodeValue p f (natOfBits (bits.take f.length)) with
    | .ok i => .ok (i, bits.drop f.length)
    | .error e => .error e

/-- The code-field width `decodeTableWord` reads a record of `nbits` bits with. A bit count that is no multiple of
8 is a record's own length. 16 and 24 bits are records of 10 to 16 and of 17 to 24 bits rounded up to bytes: the
width is the least one whose record holds every 1 bit of `r`. DESIGN CHOICE (log 19): a record does not carry its
width (R95). -/
def tableWidth (nbits r : Nat) : Nat :=
  if nbits % 8 ≠ 0 then nbits - 8
  else if nbits = 16 then max 2 (r.log2 + 1 - 8) else max 9 (r.log2 + 1 - 8)

/-- The format `decodeTableWord` reads `nbits` bits in: up to a byte a symbol, up to 24 bits a record, else a
command (R90). -/
def tableFormat (nbits r : Nat) : Format :=
  if nbits ≤ 8 then .symbol
  else if nbits ≤ 24 then .record (tableWidth nbits r)
  else .command

/-- The operation the decoder reads from `nbits` bits of value `w`, on this hardware's parameters. -/
def decodeTableWord (nbits w : Nat) : Option Instr :=
  let r := w % 2 ^ nbits
  match decodeValue Params.hw (tableFormat nbits r) r with
  | .ok i => some i
  | .error _ => none

/-! The encoder. -/

/-- The encoding of an operation: its format and its integer form (R91, R92, R101, R103). Operations with no
encoding of their own (R90: events, host port, pin, internal) answer `none`. `ENC_SYM.HIT` and `ENC_SYM.MISS` have
the encoding of `ENC_SYM`: which of them runs depends on the trie (R101). -/
def encode (p : Params) : Instr → Option (Format × Nat)
  | .pairW2 code sym => some (.record 2, code.toNat + sym.toNat * 2 ^ 2)
  | .pairW3 code sym => some (.record 3, code.toNat + sym.toNat * 2 ^ 3)
  | .pairW4 code sym => some (.record 4, code.toNat + sym.toNat * 2 ^ 4)
  | .pairW5 code sym => some (.record 5, code.toNat + sym.toNat * 2 ^ 5)
  | .pairW6 code sym => some (.record 6, code.toNat + sym.toNat * 2 ^ 6)
  | .pairW7 code sym => some (.record 7, code.toNat + sym.toNat * 2 ^ 7)
  | .pairW8 code sym => some (.record 8, code.toNat + sym.toNat * 2 ^ 8)
  | .pairW9 code sym => some (.record 9, code.toNat + sym.toNat * 2 ^ 9)
  | .pairW10 code sym => some (.record 10, code.toNat + sym.toNat * 2 ^ 10)
  | .pairW11 code sym => some (.record 11, code.toNat + sym.toNat * 2 ^ 11)
  | .pairW12 code sym => some (.record 12, code.toNat + sym.toNat * 2 ^ 12)
  | .pairW13 code sym => some (.record 13, code.toNat + sym.toNat * 2 ^ 13)
  | .pairW14 code sym => some (.record 14, code.toNat + sym.toNat * 2 ^ 14)
  | .pairW15 code sym => some (.record 15, code.toNat + sym.toNat * 2 ^ 15)
  | .pairW16 code sym => some (.record 16, code.toNat + sym.toNat * 2 ^ 16)
  | .stopW2 sym => some (.record 2, p.stopCode + sym.toNat * 2 ^ 2)
  | .stopW3 sym => some (.record 3, p.stopCode + sym.toNat * 2 ^ 3)
  | .stopW4 sym => some (.record 4, p.stopCode + sym.toNat * 2 ^ 4)
  | .stopW5 sym => some (.record 5, p.stopCode + sym.toNat * 2 ^ 5)
  | .stopW6 sym => some (.record 6, p.stopCode + sym.toNat * 2 ^ 6)
  | .stopW7 sym => some (.record 7, p.stopCode + sym.toNat * 2 ^ 7)
  | .stopW8 sym => some (.record 8, p.stopCode + sym.toNat * 2 ^ 8)
  | .stopW9 sym => some (.record 9, p.stopCode + sym.toNat * 2 ^ 9)
  | .stopW10 sym => some (.record 10, p.stopCode + sym.toNat * 2 ^ 10)
  | .stopW11 sym => some (.record 11, p.stopCode + sym.toNat * 2 ^ 11)
  | .stopW12 sym => some (.record 12, p.stopCode + sym.toNat * 2 ^ 12)
  | .stopW13 sym => some (.record 13, p.stopCode + sym.toNat * 2 ^ 13)
  | .stopW14 sym => some (.record 14, p.stopCode + sym.toNat * 2 ^ 14)
  | .stopW15 sym => some (.record 15, p.stopCode + sym.toNat * 2 ^ 15)
  | .stopW16 sym => some (.record 16, p.stopCode + sym.toNat * 2 ^ 16)
  | .encSym sym => some (.symbol, sym.toNat)
  | .encSymHit sym => some (.symbol, sym.toNat)
  | .encSymMiss sym => some (.symbol, sym.toNat)
  | .startEnc reserved => some (.command, 1 + reserved.toNat * 4)
  | .startDec reserved => some (.command, 3 + reserved.toNat * 4)
  | .ctrlNop mode reserved => some (.command, mode.toNat * 2 + reserved.toNat * 4)
  | .encEos => none
  | .decPair _ _ => none
  | .decStop => none
  | .decTrunc => none
  | .badCode _ => none
  | .csrRead _ => none
  | .hwReset => none
  | .rdBytes _ _ => none
  | .wrBytes _ _ => none
  | .rdSym => none
  | .wrRun _ => none
  | .getBit => none
  | .putBit _ => none
  | .rdPair _ => none
  | .wrPair _ _ _ => none
  | .flushPairs => none
  | .flushSyms => none
  | .trieReset => none
  | .wtReset => none
  | .bitlen _ => none
  | .advance => none
  | .runInit => none
  | .raise _ _ => none

/-- The stream bits of an operation's encoding. -/
def encodeBits (p : Params) (i : Instr) : Option (List Bool) :=
  (encode p i).map fun e => bitsLE e.1.length e.2

/-- The operation that decoding an encoding gives: the operation itself, but for the two cases of `ENC_SYM`, which
share its encoding (R101). -/
def Instr.asDecoded : Instr → Instr
  | .encSymHit sym => .encSym sym
  | .encSymMiss sym => .encSym sym
  | i => i

end Sys2Proof
end

