-- ==== Sys2Proof/Machine/State.lean ====
section
/-! DEFINITION. The state of the LZC core (10_state.md), the reasons a step can stop, and the state after reset. -/

namespace Sys2Proof.Machine

/-- A memory: (address, value) pairs, addresses strictly rising. What an unlisted address means is said at the field
of `State`; it is never the value of a listed one, so equal memories are equal lists. -/
abbrev Memory (α : Type) := List (Nat × α)

/-- The sequencing register's values (R24). -/
inductive Phase where
  | idle
  | encRun
  | decRun
  | done
  | error
  deriving DecidableEq, Repr

/-- The operating mode of a run (R25). -/
inductive Mode where
  | enc
  | dec
  deriving DecidableEq, Repr

/-- The result of `ADVANCE` (R192). -/
inductive Advanced where
  | continued
  | reset
  deriving DecidableEq, Repr

/-- What an operation returns: the `->` of its pseudocode (log 12). -/
inductive OpResult where
  | none
  /-- `RD_BYTES` (R120). -/
  | got (n : Nat)
  /-- `RD_SYM` (R122). -/
  | symbol (s : Symbol)
  | endOfInput
  /-- `GET_BIT` (R124). -/
  | bit (b : Bool)
  | exhausted
  /-- `RD_PAIR` (R126). -/
  | pair (code : Nat) (sym : Symbol) (more : Bool)
  | truncated
  /-- `BITLEN` (R190). -/
  | width (w : Nat)
  /-- `ADVANCE` (R192). -/
  | advanced (r : Advanced)
  /-- `CSR_READ` (R215). -/
  | value (v : Word64)
  deriving DecidableEq, Repr

/-- One move of the host (R18, R265; log 9). -/
inductive HostMove where
  /-- The host does nothing: the engine has this step. -/
  | wait
  /-- Write `v` to register `n` of the host port (R39, R103). -/
  | regWrite (n : Nat) (v : Word64)
  /-- Read register `n` of the host port (R215). -/
  | regRead (n : Nat)
  /-- Assert `rst` (R216). -/
  | rst
  /-- Connect another source, with the lengths of its coming answers (R263, R264; log 25). -/
  | connect (source : List Byte) (cuts : List Nat)
  deriving DecidableEq, Repr

/-- Why the machine stops. No fault is reached from a state that meets the spec's invariants (R47); each is SAFE: the
model stops where the spec gives no behaviour. -/
inductive Fault where
  /-- A byte index at or above `BLOCK` into SYMBUF (R60): `RD_SYM`, `WR_RUN`, `FLUSH_SYMS` and what performs them.
  Safe (log 16). -/
  | symIndexOutOfRange
  /-- A bit index at or above `8 * BLOCK` into PAIRBUF, or a cursor past the valid bits (R47, R60): `GET_BIT`,
  `PUT_BIT`, `RD_PAIR`, `WR_PAIR`, `FLUSH_PAIRS` and what performs them. Safe (log 16). -/
  | pairIndexOutOfRange
  /-- A dictionary store, or `next_code` itself, at or above `MAX_CODE` (R73, R196): `ENC_SYM.MISS`, `ENC_EOS`,
  `DEC_PAIR`, `ADVANCE`. Safe (log 16). -/
  | codeOutOfRange
  /-- A transfer of more than `BLOCK` bytes, or a push of none (R68, R120, R121): `RD_BYTES`, `WR_BYTES`. Safe
  (log 26). -/
  | transferLength
  /-- `ENC_SYM.HIT` where the link is NIL: its precondition fails (R152). Safe (log 17). -/
  | hitWithoutChild
  /-- `ENC_SYM.MISS` where the link is there: its precondition fails (R153). Safe (log 17). -/
  | missWithChild
  deriving DecidableEq, Repr

/-- Why the model gives no next state. -/
inductive Refusal where
  /-- An operation with no meaning yet, raised by `exec` alone. Safe. -/
  | notModelled (mnemonic : String)
  deriving DecidableEq, Repr

/-- The state of the core, and the host's side of its ports. -/
structure State where
  /-- The implementation parameters (R12). No operation writes them (R265; log 1). -/
  params : Params
  /-- `phase`, the sequencing register (R24). -/
  phase : Phase
  /-- `mode` (R25). -/
  mode : Mode
  /-- `next_code` (R21). -/
  nextCode : Nat
  /-- `cur`, the trie position (R22). -/
  cur : Nat
  /-- `prev`, the parent of `cur` (R23). -/
  prev : Nat
  /-- `last_sym`, the last consumed symbol (R23). -/
  lastSym : Symbol
  /-- `p_bits`, the bit cursor into PAIRBUF (R26). -/
  pBits : Nat
  /-- `p_len`, the valid bytes of PAIRBUF in a decode (R27). -/
  pLen : Nat
  /-- `s_idx`, the next byte of SYMBUF in an encode (R28). -/
  sIdx : Nat
  /-- `s_len`, the valid bytes of SYMBUF (R28). -/
  sLen : Nat
  /-- `src_eos` (R29). -/
  srcEos : Bool
  /-- The trie, by `trieKey` (R30, R32; log 23). An unlisted link is NIL. -/
  child : Memory Nat
  /-- The word table, by code (R33; log 24). An unlisted slot is NIL. -/
  wt : Memory (List Symbol)
  /-- `TRUNC` (R35). -/
  trunc : Bool
  /-- `cause` (R36, R230). -/
  cause : BitVec 3
  /-- `info`, `CODE_BITS + 1` bits (R36; log 3). -/
  info : Nat
  /-- `BYTES_IN` (R37). -/
  bytesIn : Word64
  /-- `BYTES_OUT` (R38). -/
  bytesOut : Word64
  /-- SYMBUF, by byte index (R40). An unlisted byte is unspecified (log 6). -/
  symBuf : Memory Byte
  /-- PAIRBUF, by bit index (R41; log 32). An unlisted bit is unspecified (log 6). -/
  pairBuf : Memory Bool
  /-- What the source still holds (R44, R66). -/
  source : List Byte
  /-- The lengths the host will answer coming pulls with; none left means in full (R66; log 10). -/
  cuts : List Nat
  /-- The `SrcPull` transactions so far: asked for, answered (R66; log 13). -/
  pulls : List (Nat × Nat)
  /-- The `SnkPush` transactions so far, oldest first (R68; log 11). -/
  sink : List (List Byte)
  /-- The host's pending moves, oldest first (R18, R265; log 9). -/
  moves : List HostMove
  /-- What the last operation with a result returned (log 12). -/
  result : OpResult
  /-- How often state has been left unspecified: the index of the free values (log 7). -/
  draws : Nat
  deriving DecidableEq, Repr

/-- The state after hardware reset (R45, R260), with no host activity and empty streams. The values the spec leaves
unspecified are DESIGN CHOICES: `prev` and `last_sym` 0 (log 4), memories with nothing listed (log 5). -/
def State.reset : State where
  params := Params.hw
  phase := .idle
  mode := .enc
  nextCode := Params.hw.startCode
  cur := Params.hw.emptyCode
  prev := 0
  lastSym := 0
  pBits := 0
  pLen := 0
  sIdx := 0
  sLen := 0
  srcEos := false
  child := []
  wt := []
  trunc := false
  cause := 0
  info := 0
  bytesIn := 0
  bytesOut := 0
  symBuf := []
  pairBuf := []
  source := []
  cuts := []
  pulls := []
  sink := []
  moves := []
  result := .none
  draws := 0

/-! Named updates, one per register or group written together. -/

/-- phase <- p. -/
def State.setPhase (s : State) (p : Phase) : State := { s with phase := p }

/-- mode <- m. -/
def State.setMode (s : State) (m : Mode) : State := { s with mode := m }

/-- next_code <- c. -/
def State.setNextCode (s : State) (c : Nat) : State := { s with nextCode := c }

/-- cur <- c. -/
def State.setCur (s : State) (c : Nat) : State := { s with cur := c }

/-- prev <- c. -/
def State.setPrev (s : State) (c : Nat) : State := { s with prev := c }

/-- last_sym <- x. -/
def State.setLastSym (s : State) (x : Symbol) : State := { s with lastSym := x }

/-- p_bits <- n. -/
def State.setPBits (s : State) (n : Nat) : State := { s with pBits := n }

/-- p_len <- n. -/
def State.setPLen (s : State) (n : Nat) : State := { s with pLen := n }

/-- s_idx <- n. -/
def State.setSIdx (s : State) (n : Nat) : State := { s with sIdx := n }

/-- s_len <- n. -/
def State.setSLen (s : State) (n : Nat) : State := { s with sLen := n }

/-- src_eos <- b. -/
def State.setSrcEos (s : State) (b : Bool) : State := { s with srcEos := b }

/-- The trie becomes m. -/
def State.setChild (s : State) (m : Memory Nat) : State := { s with child := m }

/-- The word table becomes m. -/
def State.setWt (s : State) (m : Memory (List Symbol)) : State := { s with wt := m }

/-- TRUNC, cause and info. -/
def State.setReport (s : State) (t : Bool) (c : BitVec 3) (i : Nat) : State := { s with trunc := t, cause := c, info := i }

/-- BYTES_IN <- n. -/
def State.setBytesIn (s : State) (n : Word64) : State := { s with bytesIn := n }

/-- SYMBUF becomes m. -/
def State.setSymBuf (s : State) (m : Memory Byte) : State := { s with symBuf := m }

/-- PAIRBUF becomes m. -/
def State.setPairBuf (s : State) (m : Memory Bool) : State := { s with pairBuf := m }

/-- The source, the coming answers' lengths and the pulls made. -/
def State.setSource (s : State) (src : List Byte) (cs : List Nat) (ps : List (Nat × Nat)) : State := { s with source := src, cuts := cs, pulls := ps }

/-- The pushes made and BYTES_OUT. -/
def State.setSink (s : State) (k : List (List Byte)) (n : Word64) : State := { s with sink := k, bytesOut := n }

/-- The host's pending moves. -/
def State.setMoves (s : State) (ms : List HostMove) : State := { s with moves := ms }

/-- The result of the last operation that has one. -/
def State.setResult (s : State) (r : OpResult) : State := { s with result := r }

end Sys2Proof.Machine
end

