-- ==== Sys2Proof/Machine/Operands.lean ====
section
/-! DEFINITION. The operand forms: one cell of a memory, a trie link, a word slot, a byte or a bit of a buffer, a
code-field width; and the operations on the canonical memories that hold them. -/

namespace Sys2Proof.Machine

/-! Memories. -/

/-- The canonical form: addresses strictly rising. -/
def Memory.wf {α : Type} (m : Memory α) : Bool := decide ((m.map Prod.fst).Pairwise (· < ·))

/-- What address `a` holds, if it is listed. -/
def Memory.get {α : Type} : Memory α → Nat → Option α
  | [], _ => none
  | (k, v) :: m, a => if k = a then some v else Memory.get m a

/-- `v` stored at address `a`; keeps the canonical form. -/
def Memory.set {α : Type} : Memory α → Nat → α → Memory α
  | [], a, v => [(a, v)]
  | (k, w) :: m, a, v =>
    if a < k then (a, v) :: (k, w) :: m
    else if a = k then (a, v) :: m
    else (k, w) :: Memory.set m a v

/-- `vs` stored at addresses `a`, `a + 1`, and so on. -/
def Memory.setFrom {α : Type} : Memory α → Nat → List α → Memory α
  | m, _, [] => m
  | m, a, v :: vs => Memory.setFrom (Memory.set m a v) (a + 1) vs

/-- The canonical memory with the given contents; of two values for one address the later stands. -/
def Memory.ofList {α : Type} : List (Nat × α) → Memory α
  | [] => []
  | (a, v) :: l => Memory.set (Memory.ofList l) a v

/-! The dictionaries. -/

/-- The address of the trie link of node `n` for symbol `x`: 256 slots a node (R30, R32; log 23). -/
def trieKey (n : Nat) (x : Symbol) : Nat := 256 * n + x.toNat

/-- `child[n][x]`, `none` for NIL (R15, R30). -/
def childAt (s : State) (n : Nat) (x : Symbol) : Option Nat := s.child.get (trieKey n x)

/-- `wt[c]`, `none` for NIL (R15, R33). -/
def wordAt (s : State) (c : Nat) : Option (List Symbol) := s.wt.get c

/-! The buffers. A cell that nothing has written holds an unspecified value (R43, R45; log 6). -/

/-- `SYMBUF[i]` (R40). -/
def symByte (s : State) (i : Nat) : Byte := (s.symBuf.get i).getD (Config.freeSymByte s.draws i)

/-- `PAIRBUF.bit[p]` (R41). -/
def pairBit (s : State) (p : Nat) : Bool := (s.pairBuf.get p).getD (Config.freePairBit s.draws p)

/-- Byte `j` of PAIRBUF: its bit `k` is `PAIRBUF.bit[8 * j + k]` (R15, R41, R63). -/
def pairByte (s : State) (j : Nat) : Byte := byteOfBits ((List.range 8).map fun k => pairBit s (8 * j + k))

/-- Byte `i` of a buffer. -/
def bufByte (s : State) (buf : Buf) (i : Nat) : Byte :=
  match buf with
  | .sym => symByte s i
  | .pair => pairByte s i

/-- `buf[0 .. n - 1]`. -/
def bufFront (s : State) (buf : Buf) (n : Nat) : List Byte := (List.range n).map (bufByte s buf)

/-- `buf[i .. i + |bytes| - 1] <- bytes` (R120). -/
def storeBytes (buf : Buf) (i : Nat) (bytes : List Byte) (s : State) : State :=
  match buf with
  | .sym => s.setSymBuf (s.symBuf.setFrom i bytes)
  | .pair => s.setPairBuf (s.pairBuf.setFrom (8 * i) (bytes.flatMap bitsOfByte))

/-! Which accesses exist (R47, R60; log 16). -/

/-- `SYMBUF[s_len]` exists: `WR_RUN` may store. -/
def symStoreOk (s : State) : Bool := s.sLen < s.params.block

/-- `0 <= s_idx <= s_len <= BLOCK`: `RD_SYM` and `FLUSH_SYMS` may read. -/
def symReadOk (s : State) : Bool := s.sIdx ≤ s.sLen && s.sLen ≤ s.params.block

/-- `PAIRBUF.bit[p_bits]` exists: `PUT_BIT` may store. -/
def pairStoreOk (s : State) : Bool := s.pBits < 8 * s.params.block

/-- `0 <= p_bits <= 8 * p_len`, `p_len <= BLOCK`: `GET_BIT` may read. -/
def pairReadOk (s : State) : Bool := s.pBits ≤ 8 * s.pLen && s.pLen ≤ s.params.block

/-- `next_code` is below `MAX_CODE` (R73, R196). DESIGN CHOICE: a store is made at every such code, also at one that R73
does not allow an entry, such as `STOP_CODE`, which no run reaches (log 34). -/
def codeOk (s : State) : Bool := s.nextCode < s.params.maxCode

/-! The code-field width. -/

/-- `BITLEN(n) = floor(log2(n)) + 1` (R190). `BITLEN(0)` is undefined: a free value (log 21). -/
def bitlen (n : Nat) : Nat := if n = 0 then Config.bitlenZero else n.log2 + 1

/-- The width of the record about to be written or read: `BITLEN(next_code)` (R191). -/
def recordWidth (s : State) : Nat := bitlen s.nextCode

end Sys2Proof.Machine
end

