-- ==== Sys2Proof/Machine/Flags.lean ====
section
/-! DEFINITION. The status flags, the cause codes and the host-visible registers (10_state.md sections 4 and 5,
60_exceptions.md section 1). The block has no arithmetic condition codes (R35). -/

namespace Sys2Proof.Machine

/-- `BUSY` (R35), and the level output `busy` (R42e). -/
def busy (s : State) : Bool := s.phase == .encRun || s.phase == .decRun

/-- `DONE` (R35), and the level output `done` (R42e, R239). -/
def doneFlag (s : State) : Bool := s.phase == .done

/-- `ERR` (R35), and the level output `err` (R42e, R239). -/
def errFlag (s : State) : Bool := s.phase == .error

/-- `MODE` as a bit: ENC 0, DEC 1 (R25). -/
def modeBit (s : State) : Bool := s.mode == .dec

/-- The named cause codes (R230). -/
def causeNone : BitVec 3 := 0
def causeFormatMismatch : BitVec 3 := 1
def causeAllocFail : BitVec 3 := 2
def causeTruncated : BitVec 3 := 3
def causeBadCode : BitVec 3 := 4
def causeIoFail : BitVec 3 := 5

/-- The cause code of a fatal fault (R230, R236). -/
def faultCause : FatalFault → BitVec 3
  | .badCode => causeBadCode

/-- `STATUS`: bit 0 BUSY, 1 DONE, 2 ERR, 3 TRUNC, 4 MODE, bits 7:5 CAUSE, bits 63:8 zero (R39). -/
def statusReg (s : State) : Word64 :=
  BitVec.ofNat 64 ((busy s).toNat + 2 * (doneFlag s).toNat + 4 * (errFlag s).toNat + 8 * s.trunc.toNat
    + 16 * (modeBit s).toNat + 32 * s.cause.toNat)

/-- `INFO`: the low bits `info`, the others zero (R39). `info` has `CODE_BITS + 1` bits (R36), on this hardware the 17
of R39 (log 2). -/
def infoReg (s : State) : Word64 := BitVec.ofNat 64 s.info

/-- The value of register `n` on the host port: `CTRL` and any number above 4 read 0 (R39, R215). -/
def csrValue (n : Nat) (s : State) : Word64 :=
  match n with
  | 1 => statusReg s
  | 2 => s.bytesIn
  | 3 => s.bytesOut
  | 4 => infoReg s
  | _ => 0

end Sys2Proof.Machine
end

