-- ==== Sys2Proof/Machine/Ops.lean ====
section
/-! DEFINITION. The shared operations: stream transactions, the codec (41_bitstream_codec.md), dictionary resets, the
code counter, run initialisation, fault entry and hardware reset. Each follows its rule's pseudocode. -/

namespace Sys2Proof.Machine

/-! The two streams (R66, R68). -/

/-- The bytes the host answers `SrcPull(n)` with: the next bytes of the source, as many as its next answer's length
allows, at most `n` (R66; log 10). -/
def pullAnswer (n : Nat) (s : State) : List Byte :=
  match s.cuts with
  | [] => s.source.take n
  | k :: _ => s.source.take (min k n)

/-- `SrcPull(n)`: the answered bytes leave the source (R66, R71). -/
def afterPull (n : Nat) (s : State) : State :=
  s.setSource (s.source.drop (pullAnswer n s).length) s.cuts.tail (s.pulls ++ [(n, (pullAnswer n s).length)])

/-- `WR_BYTES(buf[0 .. n - 1])`: `SnkPush`, which always completes in full, and the counter (R68, R121). -/
def wrBytes (buf : Buf) (n : Nat) (s : State) : State :=
  s.setSink (s.sink ++ [bufFront s buf n]) (s.bytesOut + BitVec.ofNat 64 n)

/-- The loop of `RD_BYTES(buf, n)` with `got` bytes already read (R120). Each non-empty answer adds at least one
byte, so `n + 1` rounds are enough. -/
def rdBytesLoop : Nat → Buf → Nat → Nat → State → Nat × State
  | 0, _, _, got, s => (got, s)
  | fuel + 1, buf, n, got, s =>
    if got < n ∧ s.srcEos = false then
      let a := pullAnswer (n - got) s
      let s1 := afterPull (n - got) s
      if a.isEmpty then (got, s1.setSrcEos true)
      else
        rdBytesLoop fuel buf n (got + a.length)
          ((storeBytes buf got a s1).setBytesIn (s1.bytesIn + BitVec.ofNat 64 a.length))
    else (got, s)

/-- `RD_BYTES(buf, n)` (R120). -/
def rdBytes (buf : Buf) (n : Nat) (s : State) : Nat × State := rdBytesLoop (n + 1) buf n 0 s

/-! The symbol codec. -/

/-- The refill of `RD_SYM` (R122). -/
def refillSyms (s : State) : State :=
  let r := rdBytes .sym s.params.block s
  (r.2.setSLen r.1).setSIdx 0

/-- Hand out `SYMBUF[s_idx]` (R122). -/
def takeSym (s : State) : Option Symbol × State := (some (symByte s s.sIdx), s.setSIdx (s.sIdx + 1))

/-- `RD_SYM`; `none` is end-of-input (R122). -/
def rdSym (s : State) : Option Symbol × State :=
  if s.sIdx = s.sLen then
    let s1 := refillSyms s
    if s1.sLen = 0 then (none, s1) else takeSym s1
  else takeSym s

/-- One symbol of `WR_RUN` (R123). -/
def wrSym (x : Symbol) (s : State) : State :=
  let s1 := (s.setSymBuf (s.symBuf.set s.sLen x)).setSLen (s.sLen + 1)
  if s.sLen + 1 = s.params.block then (wrBytes .sym s.params.block s1).setSLen 0 else s1

/-- `WR_RUN(word)` (R123). -/
def wrRun : List Symbol → State → State
  | [], s => s
  | x :: xs, s => wrRun xs (wrSym x s)

/-- `FLUSH_SYMS` (R129). -/
def flushSyms (s : State) : State :=
  (if s.sLen > 0 then wrBytes .sym s.sLen s else s).setSLen 0

/-! The pair codec. -/

/-- The refill of `GET_BIT` (R124). -/
def refillPairs (s : State) : State :=
  let r := rdBytes .pair s.params.block s
  (r.2.setPLen r.1).setPBits 0

/-- Read `PAIRBUF.bit[p_bits]` (R124). -/
def takeBit (s : State) : Option Bool × State := (some (pairBit s s.pBits), s.setPBits (s.pBits + 1))

/-- `GET_BIT`; `none` is `exhausted` (R124). -/
def getBit (s : State) : Option Bool × State :=
  if s.pBits = 8 * s.pLen then
    let s1 := refillPairs s
    if s1.pLen = 0 then (none, s1) else takeBit s1
  else takeBit s

/-- `PUT_BIT(b)` (R125). -/
def putBit (b : Bool) (s : State) : State :=
  let s1 := (s.setPairBuf (s.pairBuf.set s.pBits b)).setPBits (s.pBits + 1)
  if s.pBits + 1 = 8 * s.params.block then (wrBytes .pair s.params.block s1).setPBits 0 else s1

/-- Read a field of `n` bits, least significant first; `none` when the source ends inside it (R93, R94, R126). -/
def readBits : Nat → State → Option Nat × State
  | 0, s => (some 0, s)
  | n + 1, s =>
    match getBit s with
    | (none, s1) => (none, s1)
    | (some b, s1) =>
      match readBits n s1 with
      | (none, s2) => (none, s2)
      | (some v, s2) => (some (b.toNat + 2 * v), s2)

/-- `RD_PAIR(w)`: `(code, sym, more)`, or `none` for `truncated` (R126). -/
def rdPair (w : Nat) (s : State) : Option (Nat × Symbol × Bool) × State :=
  match readBits w s with
  | (none, s1) => (none, s1)
  | (some code, s1) =>
    match readBits 8 s1 with
    | (none, s2) => (none, s2)
    | (some x, s2) => (some (code, BitVec.ofNat 8 x, code != s2.params.stopCode), s2)

/-- `PUT_BIT` of each bit in order. -/
def putBits : List Bool → State → State
  | [], s => s
  | b :: bs, s => putBits bs (putBit b s)

/-- `WR_PAIR(code, sym, w)`: the low `w` bits of the code, then the symbol, each least significant bit first
(R64, R127). -/
def wrPair (code : Nat) (sym : Symbol) (w : Nat) (s : State) : State :=
  putBits (bitsOfByte sym) (putBits (bitsLE w code) s)

/-- `FLUSH_PAIRS`: the partial byte is completed with zeros (R81, R128). -/
def flushPairs (s : State) : State :=
  let n := (s.pBits + 7) / 8
  (if n > 0 then
    wrBytes .pair n (s.setPairBuf (s.pairBuf.setFrom s.pBits (List.replicate (8 * n - s.pBits) false)))
  else s).setPBits 0

/-! The dictionaries and the code counter. -/

/-- `TRIE_RESET`: every link NIL (R154). -/
def trieReset (s : State) : State := s.setChild []

/-- `WT_RESET`: every slot but `EMPTY_CODE`'s NIL (R173). -/
def wtReset (s : State) : State := s.setWt (s.wt.filter fun c => c.1 == s.params.emptyCode)

/-- `ADVANCE` (R192). -/
def advance (s : State) : Advanced × State :=
  if s.nextCode + 1 = s.params.maxCode then (.reset, s.setNextCode s.params.startCode)
  else (.continued, s.setNextCode (s.nextCode + 1))

/-- `ADVANCE`, and the caller's dictionary reset when it reports one (R153, R155, R171). -/
def advanceWith (dictReset : State → State) (s : State) : State :=
  match advance s with
  | (.reset, s1) => dictReset s1
  | (.continued, s1) => s1

/-! Runs, faults, reset. -/

/-- `RUN_INIT` (R213). `prev`, `last_sym` and the buffer contents stay as they are. -/
def runInit (s : State) : State :=
  { s with
    nextCode := s.params.startCode
    cur := s.params.emptyCode
    child := []
    wt := [(s.params.emptyCode, [])]
    pBits := 0
    pLen := 0
    sIdx := 0
    sLen := 0
    srcEos := false
    trunc := false
    cause := causeNone
    info := 0
    bytesIn := 0
    bytesOut := 0 }

/-- What both R45 and R46 leave unspecified takes free values, each within its register's width or its memory's index
range (R23, R73): `prev`, `last_sym`, the dictionaries, the buffers (log 6, log 7, log 8). -/
def unspecify (s : State) : State :=
  { s with
    prev := Config.freePrev s.draws % 2 ^ s.params.codeBits
    lastSym := Config.freeLastSym s.draws
    child := Memory.ofList ((Config.freeTrie s.draws).filter fun c =>
      s.params.isIndex (c.1 / 256) && s.params.isEntry c.2)
    wt := Memory.ofList ((Config.freeWords s.draws).filter fun c => s.params.isIndex c.1)
    symBuf := []
    pairBuf := []
    draws := s.draws + 1 }

/-- The end of a run in phase `p`, `DONE` or `ERROR`: its private state is unspecified from here on (R46, R162, R180;
log 8). -/
def endRun (p : Phase) (s : State) : State :=
  { unspecify s with
    phase := p
    nextCode := Config.freeNextCode s.draws % 2 ^ (s.params.codeBits + 1)
    cur := Config.freeCur s.draws % 2 ^ s.params.codeBits
    pBits := Config.freePBits s.draws % (8 * s.params.block + 1)
    pLen := Config.freePLen s.draws % (s.params.block + 1)
    sIdx := Config.freeSIdx s.draws % (s.params.block + 1)
    sLen := Config.freeSLen s.draws % (s.params.block + 1) }

/-- TAKING AN EXCEPTION: `raise F(v)` (R236). The report is written, buffered data is discarded, the run is in
`ERROR`. Nothing is saved: the exception has no handler and no return; `ERROR` is left by `startRun` or `hwReset`
(R240). -/
def raise (f : FatalFault) (v : Nat) (s : State) : State :=
  endRun .error
    (((s.setReport s.trunc (faultCause f) (v % 2 ^ (s.params.codeBits + 1))).setSLen 0).setPBits 0)

/-- `START_ENC` and `START_DEC`: no effect while BUSY, else a fresh run (R211, R212, R214). With `hwReset` it is the
way out of `ERROR` and `DONE` (R240). -/
def startRun (m : Mode) (s : State) : State :=
  if busy s then s
  else (runInit (s.setMode m)).setPhase (match m with | .enc => .encRun | .dec => .decRun)

/-- `HW_RESET` (R216, R45). What R45 leaves unspecified takes free values (log 7); the streams and the pending moves
are the host's and stay. -/
def hwReset (s : State) : State :=
  { unspecify s with
    phase := .idle
    mode := .enc
    nextCode := s.params.startCode
    cur := s.params.emptyCode
    pBits := 0
    pLen := 0
    sIdx := 0
    sLen := 0
    srcEos := false
    trunc := false
    cause := causeNone
    info := 0
    bytesIn := 0
    bytesOut := 0 }

end Sys2Proof.Machine
end

