-- ==== Sys2Proof/Machine/Codec.lean ====
section
/-! DEFINITION. The meanings of the codec operations (41_bitstream_codec.md). Each stops only where a buffer index, or
a transfer length, does not exist (log 16, log 26). -/

namespace Sys2Proof.Machine

/-- `RD_BYTES(buf, n)` (R120). -/
def execRdBytes (buf : Buf) (n : Nat) (s : State) : Host.Outcome State Fault Refusal :=
  if n ≤ s.params.block then .next ((rdBytes buf n s).2.setResult (.got (rdBytes buf n s).1))
  else .fault .transferLength

/-- `WR_BYTES(buf[0 .. n - 1])` (R121). -/
def execWrBytes (buf : Buf) (n : Nat) (s : State) : Host.Outcome State Fault Refusal :=
  if 1 ≤ n ∧ n ≤ s.params.block then .next (wrBytes buf n s) else .fault .transferLength

/-- What `RD_SYM` returns (R122). -/
def symResult : Option Symbol → OpResult
  | some x => .symbol x
  | none => .endOfInput

/-- `RD_SYM` (R122). -/
def execRdSym (s : State) : Host.Outcome State Fault Refusal :=
  if symReadOk s then .next ((rdSym s).2.setResult (symResult (rdSym s).1)) else .fault .symIndexOutOfRange

/-- `WR_RUN(word)`; an empty word has no effect (R123). -/
def execWrRun (word : List Symbol) (s : State) : Host.Outcome State Fault Refusal :=
  if word.isEmpty || symStoreOk s then .next (wrRun word s) else .fault .symIndexOutOfRange

/-- What `GET_BIT` returns (R124). -/
def bitResult : Option Bool → OpResult
  | some b => .bit b
  | none => .exhausted

/-- `GET_BIT` (R124). -/
def execGetBit (s : State) : Host.Outcome State Fault Refusal :=
  if pairReadOk s then .next ((getBit s).2.setResult (bitResult (getBit s).1)) else .fault .pairIndexOutOfRange

/-- `PUT_BIT(b)` (R125). -/
def execPutBit (b : Bool) (s : State) : Host.Outcome State Fault Refusal :=
  if pairStoreOk s then .next (putBit b s) else .fault .pairIndexOutOfRange

/-- What `RD_PAIR` returns (R126). -/
def pairResult : Option (Nat × Symbol × Bool) → OpResult
  | some (code, sym, more) => .pair code sym more
  | none => .truncated

/-- `RD_PAIR(w)` (R126). -/
def execRdPair (w : Nat) (s : State) : Host.Outcome State Fault Refusal :=
  if pairReadOk s then .next ((rdPair w s).2.setResult (pairResult (rdPair w s).1))
  else .fault .pairIndexOutOfRange

/-- `WR_PAIR(code, sym, w)` (R127). -/
def execWrPair (code : Nat) (sym : Symbol) (w : Nat) (s : State) : Host.Outcome State Fault Refusal :=
  if pairStoreOk s then .next (wrPair code sym w s) else .fault .pairIndexOutOfRange

/-- `FLUSH_PAIRS` (R128). -/
def execFlushPairs (s : State) : Host.Outcome State Fault Refusal :=
  if s.pBits ≤ 8 * s.params.block then .next (flushPairs s) else .fault .pairIndexOutOfRange

/-- `FLUSH_SYMS` (R129). -/
def execFlushSyms (s : State) : Host.Outcome State Fault Refusal :=
  if s.sLen ≤ s.params.block then .next (flushSyms s) else .fault .symIndexOutOfRange

end Sys2Proof.Machine
end

