-- ==== Sys2Proof/Machine/Control.lean ====
section
/-! DEFINITION. The meanings of the code-width operations (44_adaptive_control.md) and of the internal operations
RUN_INIT and RAISE. -/

namespace Sys2Proof.Machine

/-- `BITLEN(n)` (R190): pure, it only returns. -/
def execBitlen (n : Nat) (s : State) : Host.Outcome State Fault Refusal := .next (s.setResult (.width (bitlen n)))

/-- `ADVANCE` (R192), where `next_code` is in its range (log 16). The dictionary reset is the caller's. -/
def execAdvance (s : State) : Host.Outcome State Fault Refusal :=
  if codeOk s then .next ((advance s).2.setResult (.advanced (advance s).1)) else .fault .codeOutOfRange

/-- `RUN_INIT` (R213). -/
def execRunInit (s : State) : Host.Outcome State Fault Refusal := .next (runInit s)

/-- `RAISE` (R236). -/
def execRaise (f : FatalFault) (v : Nat) (s : State) : Host.Outcome State Fault Refusal := .next (raise f v s)

end Sys2Proof.Machine
end

