-- ==== Sys2Proof/Machine/Decoder.lean ====
section
/-! DEFINITION. The word-table decoder (43_word_table_decoder.md): what a record and its lack do, and the meanings of
its operations, one for each width a record can have. -/

namespace Sys2Proof.Machine

/-- The effect of `DEC_PAIR` where `wt[code]` is `word` (R171): lookup first, then the store, the output, `ADVANCE`. -/
def appendWord (word : List Symbol) (x : Symbol) (s : State) : State :=
  let new := word ++ [x]
  let s1 := s.setWt (s.wt.set s.nextCode new)
  advanceWith wtReset (wrRun new s1)

/-- A record that is not STOP (R96): `DEC_PAIR` where its code names a word, else the fault `BAD_CODE` is taken
(R98, R174). The word's slot is below `MAX_CODE` and the output byte exists (log 16). DESIGN CHOICE: the word is stored
also at a `next_code` that R73 does not allow (log 34). -/
def runPair (code : Nat) (x : Symbol) (s : State) : Host.Outcome State Fault Refusal :=
  match wordAt s code with
  | none => .next (raise .badCode code s)
  | some word =>
    if !codeOk s then .fault .codeOutOfRange
    else if symStoreOk s then .next (appendWord word x s)
    else .fault .symIndexOutOfRange

/-- The effect of `DEC_STOP` (R172). -/
def stop (s : State) : State := endRun .done (flushSyms s)

/-- A STOP record, its symbol ignored (R94, R172). -/
def runStop (s : State) : Host.Outcome State Fault Refusal :=
  if s.sLen ≤ s.params.block then .next (stop s) else .fault .symIndexOutOfRange

/-- The effect of `DEC_TRUNC` (R175). -/
def truncate (s : State) : State := endRun .done (flushSyms (s.setReport true causeTruncated 0))

/-- `DEC_PAIR(code, x)` (R171); a code that names no word is the illegal record of R174 (log 18). -/
def execDecPair (code : Nat) (x : Symbol) (s : State) : Host.Outcome State Fault Refusal := runPair code x s

/-- `DEC_STOP` (R172). -/
def execDecStop (s : State) : Host.Outcome State Fault Refusal := runStop s

/-- `DEC_TRUNC` (R175). -/
def execDecTrunc (s : State) : Host.Outcome State Fault Refusal :=
  if s.sLen ≤ s.params.block then .next (truncate s) else .fault .symIndexOutOfRange

/-- The illegal record: `raise BAD_CODE(code)` (R174, R234). -/
def execBadCode (code : Nat) (s : State) : Host.Outcome State Fault Refusal := .next (raise .badCode code s)

/-- `WT_RESET` (R173). -/
def execWtReset (s : State) : Host.Outcome State Fault Refusal := .next (wtReset s)

/-! PAIR records, by width (R91, R96). -/

/-- `PAIR.w2` (R91, R171). -/
def execPairW2 (code : BitVec 2) (x : Symbol) (s : State) : Host.Outcome State Fault Refusal :=
  runPair code.toNat x s

/-- `PAIR.w3` (R91, R171). -/
def execPairW3 (code : BitVec 3) (x : Symbol) (s : State) : Host.Outcome State Fault Refusal :=
  runPair code.toNat x s

/-- `PAIR.w4` (R91, R171). -/
def execPairW4 (code : BitVec 4) (x : Symbol) (s : State) : Host.Outcome State Fault Refusal :=
  runPair code.toNat x s

/-- `PAIR.w5` (R91, R171). -/
def execPairW5 (code : BitVec 5) (x : Symbol) (s : State) : Host.Outcome State Fault Refusal :=
  runPair code.toNat x s

/-- `PAIR.w6` (R91, R171). -/
def execPairW6 (code : BitVec 6) (x : Symbol) (s : State) : Host.Outcome State Fault Refusal :=
  runPair code.toNat x s

/-- `PAIR.w7` (R91, R171). -/
def execPairW7 (code : BitVec 7) (x : Symbol) (s : State) : Host.Outcome State Fault Refusal :=
  runPair code.toNat x s

/-- `PAIR.w8` (R91, R171). -/
def execPairW8 (code : BitVec 8) (x : Symbol) (s : State) : Host.Outcome State Fault Refusal :=
  runPair code.toNat x s

/-- `PAIR.w9` (R91, R171). -/
def execPairW9 (code : BitVec 9) (x : Symbol) (s : State) : Host.Outcome State Fault Refusal :=
  runPair code.toNat x s

/-- `PAIR.w10` (R91, R171). -/
def execPairW10 (code : BitVec 10) (x : Symbol) (s : State) : Host.Outcome State Fault Refusal :=
  runPair code.toNat x s

/-- `PAIR.w11` (R91, R171). -/
def execPairW11 (code : BitVec 11) (x : Symbol) (s : State) : Host.Outcome State Fault Refusal :=
  runPair code.toNat x s

/-- `PAIR.w12` (R91, R171). -/
def execPairW12 (code : BitVec 12) (x : Symbol) (s : State) : Host.Outcome State Fault Refusal :=
  runPair code.toNat x s

/-- `PAIR.w13` (R91, R171). -/
def execPairW13 (code : BitVec 13) (x : Symbol) (s : State) : Host.Outcome State Fault Refusal :=
  runPair code.toNat x s

/-- `PAIR.w14` (R91, R171). -/
def execPairW14 (code : BitVec 14) (x : Symbol) (s : State) : Host.Outcome State Fault Refusal :=
  runPair code.toNat x s

/-- `PAIR.w15` (R91, R171). -/
def execPairW15 (code : BitVec 15) (x : Symbol) (s : State) : Host.Outcome State Fault Refusal :=
  runPair code.toNat x s

/-- `PAIR.w16` (R91, R171). -/
def execPairW16 (code : BitVec 16) (x : Symbol) (s : State) : Host.Outcome State Fault Refusal :=
  runPair code.toNat x s

/-! STOP records, by width (R91, R172). -/

/-- `STOP.w2` (R94, R172). -/
def execStopW2 (_ : Symbol) (s : State) : Host.Outcome State Fault Refusal := runStop s

/-- `STOP.w3` (R94, R172). -/
def execStopW3 (_ : Symbol) (s : State) : Host.Outcome State Fault Refusal := runStop s

/-- `STOP.w4` (R94, R172). -/
def execStopW4 (_ : Symbol) (s : State) : Host.Outcome State Fault Refusal := runStop s

/-- `STOP.w5` (R94, R172). -/
def execStopW5 (_ : Symbol) (s : State) : Host.Outcome State Fault Refusal := runStop s

/-- `STOP.w6` (R94, R172). -/
def execStopW6 (_ : Symbol) (s : State) : Host.Outcome State Fault Refusal := runStop s

/-- `STOP.w7` (R94, R172). -/
def execStopW7 (_ : Symbol) (s : State) : Host.Outcome State Fault Refusal := runStop s

/-- `STOP.w8` (R94, R172). -/
def execStopW8 (_ : Symbol) (s : State) : Host.Outcome State Fault Refusal := runStop s

/-- `STOP.w9` (R94, R172). -/
def execStopW9 (_ : Symbol) (s : State) : Host.Outcome State Fault Refusal := runStop s

/-- `STOP.w10` (R94, R172). -/
def execStopW10 (_ : Symbol) (s : State) : Host.Outcome State Fault Refusal := runStop s

/-- `STOP.w11` (R94, R172). -/
def execStopW11 (_ : Symbol) (s : State) : Host.Outcome State Fault Refusal := runStop s

/-- `STOP.w12` (R94, R172). -/
def execStopW12 (_ : Symbol) (s : State) : Host.Outcome State Fault Refusal := runStop s

/-- `STOP.w13` (R94, R172). -/
def execStopW13 (_ : Symbol) (s : State) : Host.Outcome State Fault Refusal := runStop s

/-- `STOP.w14` (R94, R172). -/
def execStopW14 (_ : Symbol) (s : State) : Host.Outcome State Fault Refusal := runStop s

/-- `STOP.w15` (R94, R172). -/
def execStopW15 (_ : Symbol) (s : State) : Host.Outcome State Fault Refusal := runStop s

/-- `STOP.w16` (R94, R172). -/
def execStopW16 (_ : Symbol) (s : State) : Host.Outcome State Fault Refusal := runStop s

end Sys2Proof.Machine
end

