-- ==== Sys2Proof/Machine/Encoder.lean ====
section
/-! DEFINITION. The trie encoder (42_trie_encoder.md): what a symbol and the end of input do, and the meanings of its
operations. -/

namespace Sys2Proof.Machine

/-- The effect of `ENC_SYM.HIT(x)` where the link leads to node `c` (R152). -/
def hit (x : Symbol) (c : Nat) (s : State) : State := ((s.setPrev s.cur).setCur c).setLastSym x

/-- The effect of `ENC_SYM.MISS(x)` (R153): the pair, the new link, back to the root, `ADVANCE`. -/
def miss (x : Symbol) (s : State) : State :=
  let s1 := wrPair s.cur x (recordWidth s) s
  let s2 := s1.setChild (s1.child.set (trieKey s1.cur x) s1.nextCode)
  advanceWith trieReset ((s2.setLastSym x).setCur s2.params.emptyCode)

/-- The final-flush pair of `ENC_EOS`, where the input ended mid-match (R155, R156). -/
def finalFlush (s : State) : State :=
  if s.cur = s.params.emptyCode then s
  else advanceWith trieReset ((wrPair s.prev s.lastSym (recordWidth s) s).setCur s.params.emptyCode)

/-- The effect of `ENC_EOS` (R155): the final-flush pair, the STOP pair (R157), the flush, `DONE`. -/
def endOfInput (s : State) : State :=
  let s1 := finalFlush s
  endRun .done (flushPairs (wrPair s1.params.stopCode 0 (recordWidth s1) s1))

/-- Run the miss where the bit exists and the codes it stores at are below `MAX_CODE` (log 16). DESIGN CHOICE: the link
is stored also at a `cur` or to a `next_code` that R73 does not allow (log 34). -/
def runMiss (x : Symbol) (s : State) : Host.Outcome State Fault Refusal :=
  if !pairStoreOk s then .fault .pairIndexOutOfRange
  else if s.cur < s.params.maxCode && codeOk s then .next (miss x s)
  else .fault .codeOutOfRange

/-- `ENC_SYM(x)`: one of its two cases, by the trie link (R151). -/
def execEncSym (x : Symbol) (s : State) : Host.Outcome State Fault Refusal :=
  match childAt s s.cur x with
  | some c => .next (hit x c s)
  | none => runMiss x s

/-- `ENC_SYM.HIT(x)`; its precondition is a link (R152; log 17). -/
def execEncSymHit (x : Symbol) (s : State) : Host.Outcome State Fault Refusal :=
  match childAt s s.cur x with
  | some c => .next (hit x c s)
  | none => .fault .hitWithoutChild

/-- `ENC_SYM.MISS(x)`; its precondition is no link (R153; log 17). -/
def execEncSymMiss (x : Symbol) (s : State) : Host.Outcome State Fault Refusal :=
  match childAt s s.cur x with
  | some _ => .fault .missWithChild
  | none => runMiss x s

/-- `ENC_EOS` (R155). -/
def execEncEos (s : State) : Host.Outcome State Fault Refusal :=
  if !pairStoreOk s then .fault .pairIndexOutOfRange
  else if s.cur == s.params.emptyCode || codeOk s then .next (endOfInput s)
  else .fault .codeOutOfRange

/-- `TRIE_RESET` (R154). -/
def execTrieReset (s : State) : Host.Outcome State Fault Refusal := .next (trieReset s)

end Sys2Proof.Machine
end

