-- ==== Sys2Proof/Machine/HostPort.lean ====
section
/-! DEFINITION. The meanings of the host commands (45_host_commands.md). -/

namespace Sys2Proof.Machine

/-- `START_ENC`; bits 63:2 of the written value are ignored (R103, R211, R214). -/
def execStartEnc (_ : BitVec 62) (s : State) : Host.Outcome State Fault Refusal := .next (startRun .enc s)

/-- `START_DEC`; bits 63:2 of the written value are ignored (R103, R212, R214). -/
def execStartDec (_ : BitVec 62) (s : State) : Host.Outcome State Fault Refusal := .next (startRun .dec s)

/-- A write of `CTRL` with `START = 0`: no effect in any phase (R103, R214). -/
def execCtrlNop (_ : BitVec 1) (_ : BitVec 62) (s : State) : Host.Outcome State Fault Refusal := .next s

/-- `CSR_READ(n)`: the value is the port's read data; no other effect (R215). -/
def execCsrRead (n : Nat) (s : State) : Host.Outcome State Fault Refusal :=
  .next (s.setResult (.value (csrValue n s)))

/-- `HW_RESET` (R216). -/
def execHwReset (s : State) : Host.Outcome State Fault Refusal := .next (hwReset s)

end Sys2Proof.Machine
end

