-- ==== Sys2Proof/Machine/Dispatch.lean ====
section
/-! DEFINITION. exec: one arm per operation. -/

namespace Sys2Proof.Machine

def exec (i : Instr) (s : State) : Host.Outcome State Fault Refusal :=
  match i with
  | .pairW2 code sym => Sys2Proof.Machine.execPairW2 code sym s
  | .pairW3 code sym => Sys2Proof.Machine.execPairW3 code sym s
  | .pairW4 code sym => Sys2Proof.Machine.execPairW4 code sym s
  | .pairW5 code sym => Sys2Proof.Machine.execPairW5 code sym s
  | .pairW6 code sym => Sys2Proof.Machine.execPairW6 code sym s
  | .pairW7 code sym => Sys2Proof.Machine.execPairW7 code sym s
  | .pairW8 code sym => Sys2Proof.Machine.execPairW8 code sym s
  | .pairW9 code sym => Sys2Proof.Machine.execPairW9 code sym s
  | .pairW10 code sym => Sys2Proof.Machine.execPairW10 code sym s
  | .pairW11 code sym => Sys2Proof.Machine.execPairW11 code sym s
  | .pairW12 code sym => Sys2Proof.Machine.execPairW12 code sym s
  | .pairW13 code sym => Sys2Proof.Machine.execPairW13 code sym s
  | .pairW14 code sym => Sys2Proof.Machine.execPairW14 code sym s
  | .pairW15 code sym => Sys2Proof.Machine.execPairW15 code sym s
  | .pairW16 code sym => Sys2Proof.Machine.execPairW16 code sym s
  | .stopW2 sym => Sys2Proof.Machine.execStopW2 sym s
  | .stopW3 sym => Sys2Proof.Machine.execStopW3 sym s
  | .stopW4 sym => Sys2Proof.Machine.execStopW4 sym s
  | .stopW5 sym => Sys2Proof.Machine.execStopW5 sym s
  | .stopW6 sym => Sys2Proof.Machine.execStopW6 sym s
  | .stopW7 sym => Sys2Proof.Machine.execStopW7 sym s
  | .stopW8 sym => Sys2Proof.Machine.execStopW8 sym s
  | .stopW9 sym => Sys2Proof.Machine.execStopW9 sym s
  | .stopW10 sym => Sys2Proof.Machine.execStopW10 sym s
  | .stopW11 sym => Sys2Proof.Machine.execStopW11 sym s
  | .stopW12 sym => Sys2Proof.Machine.execStopW12 sym s
  | .stopW13 sym => Sys2Proof.Machine.execStopW13 sym s
  | .stopW14 sym => Sys2Proof.Machine.execStopW14 sym s
  | .stopW15 sym => Sys2Proof.Machine.execStopW15 sym s
  | .stopW16 sym => Sys2Proof.Machine.execStopW16 sym s
  | .encSym sym => Sys2Proof.Machine.execEncSym sym s
  | .encSymHit sym => Sys2Proof.Machine.execEncSymHit sym s
  | .encSymMiss sym => Sys2Proof.Machine.execEncSymMiss sym s
  | .encEos => Sys2Proof.Machine.execEncEos s
  | .decPair code sym => Sys2Proof.Machine.execDecPair code sym s
  | .decStop => Sys2Proof.Machine.execDecStop s
  | .decTrunc => Sys2Proof.Machine.execDecTrunc s
  | .badCode code => Sys2Proof.Machine.execBadCode code s
  | .startEnc reserved => Sys2Proof.Machine.execStartEnc reserved s
  | .startDec reserved => Sys2Proof.Machine.execStartDec reserved s
  | .ctrlNop mode reserved => Sys2Proof.Machine.execCtrlNop mode reserved s
  | .csrRead n => Sys2Proof.Machine.execCsrRead n s
  | .hwReset => Sys2Proof.Machine.execHwReset s
  | .rdBytes buf n => Sys2Proof.Machine.execRdBytes buf n s
  | .wrBytes buf n => Sys2Proof.Machine.execWrBytes buf n s
  | .rdSym => Sys2Proof.Machine.execRdSym s
  | .wrRun word => Sys2Proof.Machine.execWrRun word s
  | .getBit => Sys2Proof.Machine.execGetBit s
  | .putBit b => Sys2Proof.Machine.execPutBit b s
  | .rdPair w => Sys2Proof.Machine.execRdPair w s
  | .wrPair code sym w => Sys2Proof.Machine.execWrPair code sym w s
  | .flushPairs => Sys2Proof.Machine.execFlushPairs s
  | .flushSyms => Sys2Proof.Machine.execFlushSyms s
  | .trieReset => Sys2Proof.Machine.execTrieReset s
  | .wtReset => Sys2Proof.Machine.execWtReset s
  | .bitlen n => Sys2Proof.Machine.execBitlen n s
  | .advance => Sys2Proof.Machine.execAdvance s
  | .runInit => Sys2Proof.Machine.execRunInit s
  | .raise f v => Sys2Proof.Machine.execRaise f v s

end Sys2Proof.Machine
end

