-- ==== Sys2Proof/Machine/Fetch.lean ====
section
/-! DEFINITION. How the machine comes by its next operation: the host's move if it has one, else the engine's loop
(R150, R170). -/

namespace Sys2Proof.Machine

/-- The encoder loop's next operation (R150): a symbol selects `ENC_SYM`, the end of input `ENC_EOS`. -/
def fetchSymbol (s : State) : Host.Outcome (Option Instr × State) Fault Refusal :=
  if symReadOk s then
    match rdSym s with
    | (some x, s1) => .next (some (symbolInstr x), s1)
    | (none, s1) => .next (some .encEos, s1)
  else .fault .symIndexOutOfRange

/-- The decoder loop's next operation (R170): the width from `next_code` alone, then the record, which selects its
operation (R96), or its lack, which selects `DEC_TRUNC`. -/
def fetchRecord (s : State) : Host.Outcome (Option Instr × State) Fault Refusal :=
  if pairReadOk s then
    match rdPair (recordWidth s) s with
    | (some (code, sym, _), s1) => .next (some (recordInstr s.params (recordWidth s) code sym), s1)
    | (none, s1) => .next (some .decTrunc, s1)
  else .fault .pairIndexOutOfRange

/-- The engine's next operation; none outside a run (R244, R260; log 14). -/
def fetchEngine (s : State) : Host.Outcome (Option Instr × State) Fault Refusal :=
  match s.phase with
  | .encRun => fetchSymbol s
  | .decRun => fetchRecord s
  | .idle => .next (none, s)
  | .done => .next (none, s)
  | .error => .next (none, s)

/-- The next operation, if the step has one, and the state its fetch leaves (log 9). A write to a register other than
`CTRL` has no effect (R39). -/
def fetch (s : State) : Host.Outcome (Option Instr × State) Fault Refusal :=
  match s.moves with
  | [] => fetchEngine s
  | .wait :: ms => fetchEngine (s.setMoves ms)
  | .regWrite n v :: ms => .next (if n = 0 then some (commandInstr v) else none, s.setMoves ms)
  | .regRead n :: ms => .next (some (.csrRead n), s.setMoves ms)
  | .rst :: ms => .next (some .hwReset, s.setMoves ms)
  | .connect src cs :: ms => .next (none, (s.setMoves ms).setSource src cs s.pulls)

/-- The bytes of a table word: `nbits` bits of `w`, and zeros up to the longest record, 24 bits (R108). -/
def wordBytes (nbits w : Nat) : List Byte := bytesOfBits (bitsLE (max nbits 24) (w % 2 ^ nbits))

/-- Everything it takes for the next step to run the operation whose bits are `w` (log 20): a run of the format's
mode begun on a source that holds the word, with `next_code` such that a record has the word's width; or the host's
pending write of `CTRL`. -/
def placeWord (s : State) (nbits w : Nat) : State :=
  let r := w % 2 ^ nbits
  match tableFormat nbits r with
  | .symbol =>
    ((((runInit (s.setMode .enc)).setPhase .encRun).setSource [BitVec.ofNat 8 r] [] s.pulls).setMoves [])
  | .record k =>
    (((((runInit (s.setMode .dec)).setPhase .decRun).setSource (wordBytes nbits w) [] s.pulls).setMoves []).setNextCode
      (max s.params.startCode (2 ^ (k - 1))))
  | .command => s.setMoves [.regWrite 0 (BitVec.ofNat 64 r)]

end Sys2Proof.Machine
end

