-- ==== Sys2Proof/Machine/Step.lean ====
section
/-! DEFINITION. One architectural step (R17). -/

namespace Sys2Proof.Machine

/-- Fetch, then run what was fetched; a move that selects no operation is the whole step. -/
def step (s : State) : Host.Outcome State Fault Refusal :=
  match fetch s with
  | .next (some i, s1) => exec i s1
  | .next (none, s1) => .next s1
  | .fault f => .fault f
  | .refused r => .refused r

/-- The state with the operation whose bits are `w` placed where the next step fetches (log 20). -/
def State.withFetchWord (s : State) (nbits w : Nat) : State := placeWord s nbits w

end Sys2Proof.Machine
end

