-- ==== Sys2Proof/Safety.lean ====
section
/-! DEFINITION. What claims are stated in: the bit and byte streams a state stands for, and the invariants of a run
(10_state.md R31, R34, R39, R47). -/

namespace Sys2Proof.Machine

/-! Streams. -/

/-- The stream bits of bytes (R14, R63). -/
def bitsOfBytes (bs : List Byte) : List Bool := bs.flatMap bitsOfByte

/-- What the sink holds: the pushes joined (R68). -/
def sinkBytes (s : State) : List Byte := s.sink.flatten

/-- Every bit packed so far: the pushed ones, then the `p_bits` pending ones of PAIRBUF (R26, R43a). -/
def packedBits (s : State) : List Bool := bitsOfBytes (sinkBytes s) ++ (List.range s.pBits).map (pairBit s)

/-- Every byte written so far by `WR_RUN`: the pushed ones, then the `s_len` pending ones of SYMBUF (R28, R43a). -/
def writtenBytes (s : State) : List Byte := sinkBytes s ++ bufFront s .sym s.sLen

/-- The symbols `RD_SYM` has yet to hand out: the prefetched ones, then the source's (R43c, R122). -/
def pendingSyms (s : State) : List Symbol :=
  (List.range' s.sIdx (s.sLen - s.sIdx)).map (symByte s) ++ if s.srcEos then [] else s.source

/-- The bits `GET_BIT` has yet to read: the prefetched ones, then the source's (R43c, R133). -/
def pendingBits (s : State) : List Bool :=
  (List.range' s.pBits (8 * s.pLen - s.pBits)).map (pairBit s) ++ if s.srcEos then [] else bitsOfBytes s.source

/-- The host answers with no byte only where the source is empty (R66, R265). -/
def HostKeepsContract (s : State) : Prop := 0 ∉ s.cuts

/-! Records. -/

/-- The width, code and symbol of a PAIR record's operation (R91); no other operation is one. -/
def pairRecord : Instr → Option (Nat × Nat × Symbol)
  | .pairW2 code x => some (2, code.toNat, x)
  | .pairW3 code x => some (3, code.toNat, x)
  | .pairW4 code x => some (4, code.toNat, x)
  | .pairW5 code x => some (5, code.toNat, x)
  | .pairW6 code x => some (6, code.toNat, x)
  | .pairW7 code x => some (7, code.toNat, x)
  | .pairW8 code x => some (8, code.toNat, x)
  | .pairW9 code x => some (9, code.toNat, x)
  | .pairW10 code x => some (10, code.toNat, x)
  | .pairW11 code x => some (11, code.toNat, x)
  | .pairW12 code x => some (12, code.toNat, x)
  | .pairW13 code x => some (13, code.toNat, x)
  | .pairW14 code x => some (14, code.toNat, x)
  | .pairW15 code x => some (15, code.toNat, x)
  | .pairW16 code x => some (16, code.toNat, x)
  | _ => none

/-- The width and the symbol field of a STOP record's operation (R91, R94); no other operation is one. -/
def stopRecord : Instr → Option (Nat × Symbol)
  | .stopW2 x => some (2, x)
  | .stopW3 x => some (3, x)
  | .stopW4 x => some (4, x)
  | .stopW5 x => some (5, x)
  | .stopW6 x => some (6, x)
  | .stopW7 x => some (7, x)
  | .stopW8 x => some (8, x)
  | .stopW9 x => some (9, x)
  | .stopW10 x => some (10, x)
  | .stopW11 x => some (11, x)
  | .stopW12 x => some (12, x)
  | .stopW13 x => some (13, x)
  | .stopW14 x => some (14, x)
  | .stopW15 x => some (15, x)
  | .stopW16 x => some (16, x)
  | _ => none

/-- The code counter after ADVANCE (R192). -/
def countUp (s : State) : Nat := if s.nextCode + 1 = s.params.maxCode then s.params.startCode else s.nextCode + 1

/-! Frames: what may differ between two states, and which cell the `j`-th item stored from a cursor on goes to. -/

/-- `t` is `s` but for PAIRBUF, its cursor, the sink and BYTES_OUT. -/
def PairOutFrame (s t : State) : Prop :=
  t = { s with pairBuf := t.pairBuf, pBits := t.pBits, sink := t.sink, bytesOut := t.bytesOut }

/-- `t` is `s` but for SYMBUF, its length, the sink and BYTES_OUT. -/
def SymOutFrame (s t : State) : Prop :=
  t = { s with symBuf := t.symBuf, sLen := t.sLen, sink := t.sink, bytesOut := t.bytesOut }

/-- `t` is `s` but for SYMBUF, its indices and the source side. -/
def SymInFrame (s t : State) : Prop :=
  t = { s with symBuf := t.symBuf, sIdx := t.sIdx, sLen := t.sLen, srcEos := t.srcEos, bytesIn := t.bytesIn,
               source := t.source, cuts := t.cuts, pulls := t.pulls }

/-- `t` is `s` but for PAIRBUF, its cursor and fill and the source side. -/
def PairInFrame (s t : State) : Prop :=
  t = { s with pairBuf := t.pairBuf, pBits := t.pBits, pLen := t.pLen, srcEos := t.srcEos, bytesIn := t.bytesIn,
               source := t.source, cuts := t.cuts, pulls := t.pulls }

/-- The bit of PAIRBUF that the `j`-th bit from the cursor on is stored at: the cursor returns to 0 at the buffer's end
(R125). -/
def pairSlot (s : State) (j : Nat) : Nat := (s.pBits + j) % (8 * s.params.block)

/-- The byte of SYMBUF that the `j`-th byte from `s_len` on is stored at (R123). -/
def symSlot (s : State) (j : Nat) : Nat := (s.sLen + j) % s.params.block

/-! Invariants. -/

/-- `t` is `s` but for the state that R46 leaves unspecified once a run has ended. -/
def DeadFrame (s t : State) : Prop :=
  t = { s with nextCode := t.nextCode, cur := t.cur, prev := t.prev, lastSym := t.lastSym, pBits := t.pBits,
               pLen := t.pLen, sIdx := t.sIdx, sLen := t.sLen, child := t.child, wt := t.wt, symBuf := t.symBuf,
               pairBuf := t.pairBuf, draws := t.draws }

/-! Which operations end a run (R24, R217). -/

/-- The operations that end a run in `DONE`. -/
def FinishesRun (i : Instr) : Prop :=
  i = .encEos ∨ i = .decStop ∨ (∃ w x, stopRecord i = some (w, x)) ∨ i = .decTrunc

/-- The operations that, run in `s`, take the fault BAD_CODE of `code` (R174; DEC_PAIR run by name: log 18). -/
def RaisesBadCode (s : State) (i : Instr) (code : Nat) : Prop :=
  i = .badCode code ∨ i = .raise .badCode code ∨
  (wordAt s code = none ∧ ∃ x, (∃ w, pairRecord i = some (w, code, x)) ∨ i = .decPair code x)

/-- A live node of the trie, a live slot of the word table (R19, R31, R34). -/
def Live (s : State) (c : Nat) : Prop :=
  c = s.params.emptyCode ∨ (s.params.startCode ≤ c ∧ c < s.nextCode)

/-- Every memory is in canonical form and holds cells of its own address range only: the trie links of codes for
symbols, each a code, the word table slots of codes, the buffers their bytes and bits (R16, R60). -/
structure MemoryInv (s : State) : Prop where
  child_wf : s.child.wf = true
  wt_wf : s.wt.wf = true
  symBuf_wf : s.symBuf.wf = true
  pairBuf_wf : s.pairBuf.wf = true
  child_range : ∀ c ∈ s.child, c.1 < 256 * s.params.maxCode ∧ c.2 < s.params.maxCode
  wt_range : ∀ c ∈ s.wt, c.1 < s.params.maxCode
  symBuf_range : ∀ c ∈ s.symBuf, c.1 < s.params.block
  pairBuf_range : ∀ c ∈ s.pairBuf, c.1 < 8 * s.params.block

/-- The dictionaries hold nothing at an index that is none, STOP_CODE above all, and every link leads to an entry
(R73). -/
structure DictInv (s : State) : Prop where
  child_index : ∀ c ∈ s.child, s.params.isIndex (c.1 / 256) = true ∧ s.params.isEntry c.2 = true
  wt_index : ∀ c ∈ s.wt, s.params.isIndex c.1 = true

/-- Every register keeps to its width or range, in every phase (R21, R22, R23, R26, R27, R28, R36). -/
structure RegWidths (s : State) : Prop where
  nextCode : s.nextCode < 2 ^ (s.params.codeBits + 1)
  cur : s.cur < 2 ^ s.params.codeBits
  prev : s.prev < 2 ^ s.params.codeBits
  info : s.info < 2 ^ (s.params.codeBits + 1)
  pBits : s.pBits ≤ 8 * s.params.block
  pLen : s.pLen ≤ s.params.block
  sIdx : s.sIdx ≤ s.params.block
  sLen : s.sLen ≤ s.params.block

/-- The bounds of a run (R47). -/
structure RunBounds (s : State) : Prop where
  code_low : busy s = true → s.params.startCode ≤ s.nextCode
  code_high : busy s = true → s.nextCode < s.params.maxCode
  sym_low : busy s = true → s.sIdx ≤ s.sLen
  sym_high : busy s = true → s.sLen ≤ s.params.block
  enc_bits : s.phase = .encRun → s.pBits < 8 * s.params.block
  dec_bits : s.phase = .decRun → s.pBits ≤ 8 * s.pLen
  dec_fill : s.phase = .decRun → s.pLen ≤ s.params.block
  dec_syms : s.phase = .decRun → s.sLen < s.params.block
  /-- A decode does not use `s_idx` (R28): it keeps RUN_INIT's 0, so `s_idx <= s_len` stays true as SYMBUF empties. -/
  dec_idx : s.phase = .decRun → s.sIdx = 0

/-- The trie in an encode (R22, R23, R31). -/
structure TrieInv (s : State) : Prop where
  /-- A link leads from a live node to a live node created after it. -/
  link : ∀ n x c, childAt s n x = some c →
    Live s n ∧ s.params.startCode ≤ c ∧ c < s.nextCode ∧ (n = s.params.emptyCode ∨ n < c)
  /-- Every live node but the root is the target of exactly one link. -/
  owner : ∀ c, s.params.startCode ≤ c → c < s.nextCode →
    ∃ n x, childAt s n x = some c ∧ ∀ n' x', childAt s n' x' = some c → n' = n ∧ x' = x
  cur_live : Live s s.cur
  cur_link : s.cur ≠ s.params.emptyCode → childAt s s.prev s.lastSym = some s.cur

/-- The word table in a decode (R34). -/
structure WordInv (s : State) : Prop where
  live : ∀ c, (wordAt s c).isSome = true ↔ Live s c
  empty : wordAt s s.params.emptyCode = some []
  extend : ∀ c w, s.params.startCode ≤ c → wordAt s c = some w →
    ∃ c' w' x, (c' = s.params.emptyCode ∨ c' < c) ∧ wordAt s c' = some w' ∧ w = w' ++ [x]
  length : ∀ c w, s.params.startCode ≤ c → wordAt s c = some w →
    1 ≤ w.length ∧ w.length ≤ c - s.params.startCode + 1

/-- The status a state can show (R24, R25, R35, R36, R39, R230). -/
def StatusInv (s : State) : Prop :=
  match s.phase with
  | .idle => s.mode = .enc ∧ s.trunc = false ∧ s.cause = causeNone ∧ s.info = 0
  | .encRun => s.mode = .enc ∧ s.trunc = false ∧ s.cause = causeNone ∧ s.info = 0
  | .decRun => s.mode = .dec ∧ s.trunc = false ∧ s.cause = causeNone ∧ s.info = 0
  | .done => s.info = 0 ∧
    ((s.trunc = false ∧ s.cause = causeNone) ∨ (s.mode = .dec ∧ s.trunc = true ∧ s.cause = causeTruncated))
  | .error => s.mode = .dec ∧ s.trunc = false ∧ s.cause = causeBadCode

/-- The invariant of the machine: the parameters meet their constraints, every register and memory keeps to its
range, and R31, R34, R39, R47, R73 hold. -/
structure Inv (s : State) : Prop where
  params : s.params.wf = true
  memory : MemoryInv s
  dict : DictInv s
  widths : RegWidths s
  bounds : RunBounds s
  trie : s.phase = .encRun → TrieInv s
  words : s.phase = .decRun → WordInv s
  status : StatusInv s

/-- A safe run of `k` steps: it stops in no fault and no refusal, and ends in `t`. -/
def Reaches (k : Nat) (s t : State) : Prop := Host.Core.run
  { State := State, Fault := Fault, Refusal := Refusal, step := step, reset := State.reset } k s = .next t

/-- A run has ended (R277). -/
def Ended (s : State) : Prop := s.phase = .done ∨ s.phase = .error

/-- The host makes no move in this step: it has none pending, or it waits (log 9). -/
def EngineTurn (s : State) : Prop := s.moves = [] ∨ s.moves.head? = some .wait

/-- The operations of a list one after another, up to the first that stops. -/
def runOps : List Instr → State → Host.Outcome State Fault Refusal
  | [], s => .next s
  | i :: is, s =>
    match exec i s with
    | .next t => runOps is t
    | .fault r => .fault r
    | .refused r => .refused r

/-- Two states that no later output, result or status can tell apart: they differ in what the spec says is never read
(R40, R43, R46, R271): buffer residue, consumed input, the trie position's parent at the root, the other mode's
dictionary, everything private outside a run. -/
structure Alike (s s' : State) : Prop where
  params : s.params = s'.params
  phase : s.phase = s'.phase
  mode : s.mode = s'.mode
  report : s.trunc = s'.trunc ∧ s.cause = s'.cause ∧ s.info = s'.info
  counters : s.bytesIn = s'.bytesIn ∧ s.bytesOut = s'.bytesOut
  streams : s.source = s'.source ∧ s.cuts = s'.cuts ∧ s.pulls = s'.pulls ∧ s.sink = s'.sink
  moves : s.moves = s'.moves
  result : s.result = s'.result
  cursors : busy s = true → s.nextCode = s'.nextCode ∧ s.sIdx = s'.sIdx ∧ s.sLen = s'.sLen ∧ s.pBits = s'.pBits ∧
    s.pLen = s'.pLen ∧ s.srcEos = s'.srcEos
  encoder : s.phase = .encRun → s.cur = s'.cur ∧
    (s.cur ≠ s.params.emptyCode → s.prev = s'.prev ∧ s.lastSym = s'.lastSym) ∧
    (∀ n x, childAt s n x = childAt s' n x) ∧
    (∀ i, s.sIdx ≤ i → i < s.sLen → symByte s i = symByte s' i) ∧ (∀ q, q < s.pBits → pairBit s q = pairBit s' q)
  decoder : s.phase = .decRun → (∀ c, wordAt s c = wordAt s' c) ∧
    (∀ i, i < s.sLen → symByte s i = symByte s' i) ∧
    (∀ q, s.pBits ≤ q → q < 8 * s.pLen → pairBit s q = pairBit s' q)

end Sys2Proof.Machine
end

