-- ==== Sys2Proof/Certificates/Slice0/Obligations.lean ====
section
/-! DEFINITION. The statements about the LZC core, for the provers. -/

open Sys2Proof Sys2Proof.Machine

/-! Encoding (30_encoding.md). -/

/-- Decoding the encoding of a well-formed operation, whatever follows it, gives the operation back with all its
operands. ENC_SYM.HIT and ENC_SYM.MISS share ENC_SYM's encoding (R101). -/
def Obligations.DecodeOfEncode : Prop :=
  ∀ (p : Params) (i : Instr) (f : Format) (r : Nat) (rest : List Bool),
    p.wf = true → i.wellFormed p = true → encode p i = some (f, r) →
    decode p f (bitsLE f.length r ++ rest) = .ok (i.asDecoded, rest)

/-- What decoding accepts is well-formed, and, but for records of more than 16 bits of code, its bits are the encoding
of the operation it gives. MODEL'S CHOICE (log 33): on a machine with a larger MAX_CODE than this hardware's, a record
wider than the table's 16 bits, which no operation of the table encodes to, decodes to DEC_STOP where its code is
STOP_CODE and to DEC_PAIR with its code and symbol otherwise, whether or not the code names a word. -/
def Obligations.EncodeOfDecode : Prop :=
  ∀ (p : Params) (f : Format) (bits : List Bool) (i : Instr) (rest : List Bool),
    p.wf = true → decode p f bits = .ok (i, rest) →
    i.wellFormed p = true ∧
    ((∃ r, encode p i = some (f, r) ∧ bits = bitsLE f.length r ++ rest) ∨
      ∃ w code x, f = .record w ∧ 16 < w ∧ code < 2 ^ w ∧ bits = bitsLE w code ++ bitsOfByte x ++ rest ∧
        i = if code = p.stopCode then .decStop else .decPair code x)

/-- Words written out from the encodings decode to what they stand for: P(1, 'a')/2 and STOP/2 of R126, R127 and R157,
a record of width 9, a raw byte, and three values of CTRL. -/
def Obligations.WrittenWordsDecode : Prop :=
  decode Params.hw (.record 2) [true, false, true, false, false, false, false, true, true, false] =
    .ok (.pairW2 1 0x61, []) ∧
  decode Params.hw (.record 2) (List.replicate 10 false) = .ok (.stopW2 0, []) ∧
  decode Params.hw (.record 9) ([true, false, false, false, false, false, false, false, true] ++
    [false, true, true, false, false, true, true, false]) = .ok (.pairW9 257 0x66, []) ∧
  decode Params.hw .symbol [true, false, false, false, false, true, true, false] = .ok (.encSym 0x61, []) ∧
  decode Params.hw .command (true :: List.replicate 63 false) = .ok (.startEnc 0, []) ∧
  decode Params.hw .command (true :: true :: List.replicate 62 false) = .ok (.startDec 0, []) ∧
  decode Params.hw .command (false :: true :: List.replicate 62 false) = .ok (.ctrlNop 1 0, [])

/-- A record is read as its code field, then its symbol field, each least significant bit first, and is a STOP record
exactly where the code is STOP_CODE (R91, R93, R94). MODEL'S CHOICE (log 33): of the widths a larger MAX_CODE gives,
those above the table's 16 decode to DEC_STOP at STOP_CODE and to DEC_PAIR at every other code, one that names no word
and is illegal by R96 among them, of which DEC_PAIR then makes the fault (log 18). -/
def Obligations.RecordFields : Prop :=
  ∀ (p : Params) (w : Nat) (bits : List Bool),
    p.wf = true → recordWidthOk p w = true → w + 8 ≤ bits.length →
    ∃ i code x, decode p (.record w) bits = .ok (i, bits.drop (w + 8)) ∧
      code = natOfBits (bits.take w) ∧ x = byteOfBits ((bits.drop w).take 8) ∧
      (w ≤ 16 → if code = p.stopCode then stopRecord i = some (w, x) ∧ pairRecord i = none
        else pairRecord i = some (w, code, x) ∧ stopRecord i = none) ∧
      (16 < w → i = if code = p.stopCode then .decStop else .decPair code x)

/-- The value `v` of a CTRL write selects its operation by bits 0 and 1 alone; bits 63:2 change nothing, and with
START = 0 the write has no effect (R103). -/
def Obligations.CtrlWriteSelects : Prop :=
  (∀ v : Word64, ∃ i, (∀ p rest, decode p .command (bitsLE 64 v.toNat ++ rest) = .ok (i, rest)) ∧
    (v.getLsbD 0 = true → v.getLsbD 1 = false → ∃ r, i = .startEnc r) ∧
    (v.getLsbD 0 = true → v.getLsbD 1 = true → ∃ r, i = .startDec r) ∧
    (v.getLsbD 0 = false → ∃ m r, i = .ctrlNop m r)) ∧
  (∀ (r r' : BitVec 62) (s : State), exec (.startEnc r) s = exec (.startEnc r') s ∧
    exec (.startDec r) s = exec (.startDec r') s) ∧
  (∀ (m : BitVec 1) (r : BitVec 62) (s : State), exec (.ctrlNop m r) s = .next s)

/-! Code width (44_adaptive_control.md). -/

/-- BITLEN is the number of binary digits: floor(log2 n) + 1, the least width whose field holds `n`. Only the result
is written (R190). BITLEN(0) is undefined there, and nothing is said of it. -/
def Obligations.BitlenIsLeastWidth : Prop :=
  (∀ (n : Nat) (s : State), 1 ≤ n → exec (.bitlen n) s = .next { s with result := .width (bitlen n) }) ∧
  (∀ n : Nat, 1 ≤ n → bitlen n = Nat.log 2 n + 1 ∧ n < 2 ^ bitlen n ∧ (∀ w, n < 2 ^ w → bitlen n ≤ w) ∧
    ∀ c, c < n → c < 2 ^ bitlen n) ∧
  (∀ k : Nat, bitlen (2 ^ k) = k + 1) ∧
  (∀ v ∈ [(1, 1), (2, 2), (3, 2), (4, 3), (7, 3), (8, 4), (255, 8), (256, 9), (257, 9), (32767, 15), (32768, 16),
    (65535, 16)], bitlen v.1 = v.2)

/-- ADVANCE counts up by one and goes back to START_CODE exactly where the next code would be MAX_CODE; nothing else but
the result is written (R192). -/
def Obligations.AdvanceCounts : Prop :=
  ∀ s : State, s.nextCode < s.params.maxCode →
    (s.nextCode + 1 < s.params.maxCode → exec .advance s =
      .next { s with nextCode := s.nextCode + 1, result := .advanced .continued }) ∧
    (s.nextCode + 1 = s.params.maxCode → exec .advance s =
      .next { s with nextCode := s.params.startCode, result := .advanced .reset })

/-- Who writes next_code, over every operation: a non-STOP pair and ADVANCE count up, a run's start and the reset give
START_CODE, every other operation of a run leaves it (R21, R192). The operations that end a run leave it unspecified
(R46). MODEL'S CHOICE: DEC_PAIR run by name on a dead code ends the run in ERROR (log 18). -/
def Obligations.NextCodeWriters : Prop :=
  ∀ (i : Instr) (s t : State), exec i s = .next t → t.nextCode ≠ s.nextCode →
    (t.nextCode = countUp s ∧
      ((∃ x, (i = .encSym x ∨ i = .encSymMiss x) ∧ childAt s s.cur x = none) ∨
        (∃ code x, ((∃ w, pairRecord i = some (w, code, x)) ∨ i = .decPair code x) ∧ wordAt s code ≠ none) ∨
        i = .advance)) ∨
    (t.nextCode = s.params.startCode ∧
      ((busy s = false ∧ ∃ r, i = .startEnc r ∨ i = .startDec r) ∨ i = .runInit ∨ i = .hwReset)) ∨
    (t.phase = .done ∧ FinishesRun i) ∨
    (t.phase = .error ∧ ∃ code, RaisesBadCode s i code)

/-- The width of every record of a run lies between BITLEN(START_CODE) and CODE_BITS = BITLEN(MAX_CODE - 1); on this
hardware between 2 and 16 (R194). -/
def Obligations.WidthRange : Prop :=
  (∀ s : State, Inv s → busy s = true →
    bitlen s.params.startCode ≤ recordWidth s ∧ recordWidth s ≤ s.params.codeBits ∧
    s.params.codeBits = bitlen (s.params.maxCode - 1) ∧ 2 ^ s.params.codeBits = s.params.maxCode ∧
    recordWidthOk s.params (recordWidth s) = true) ∧
  bitlen Params.hw.startCode = 2 ∧ Params.hw.codeBits = 16

/-- Widths within an epoch never fall and grow by at most 1 a step, by 1 exactly at a power of two; after a reset, and
at the start of a run, the width is START_CODE's (R195). -/
def Obligations.WidthMonotone : Prop :=
  (∀ n : Nat, 1 ≤ n → bitlen (n + 1) = bitlen n + if n + 1 = 2 ^ Nat.log 2 (n + 1) then 1 else 0) ∧
  (∀ s t : State, Inv s → busy s = true → step s = .next t → busy t = true →
    ((t.nextCode = s.nextCode ∨ t.nextCode = s.nextCode + 1) ∧
      recordWidth s ≤ recordWidth t ∧ recordWidth t ≤ recordWidth s + 1) ∨
    (s.nextCode + 1 = s.params.maxCode ∧ t.nextCode = s.params.startCode ∧
      recordWidth t = bitlen s.params.startCode)) ∧
  (∀ s t : State, busy s = false → step s = .next t → busy t = true →
    recordWidth t = bitlen s.params.startCode)

/-! Bit stream codec (41_bitstream_codec.md). -/

/-- RD_BYTES: pulls until `n` bytes are there or an answer is empty, into the front of the buffer (R120). The other
buffer, the rest of this one and every other register keep their values. -/
def Obligations.RdBytesFillsFromSource : Prop :=
  ∀ (buf : Buf) (n : Nat) (s : State), n ≤ s.params.block →
    ∃ (t : State) (taken : List Byte) (asked : List (Nat × Nat)),
      exec (.rdBytes buf n) s = .next t ∧ t.result = .got taken.length ∧ taken.length ≤ n ∧
      taken = s.source.take taken.length ∧ t.source = s.source.drop taken.length ∧
      t.bytesIn = s.bytesIn + BitVec.ofNat 64 taken.length ∧
      t.pulls = s.pulls ++ asked ∧ (asked.map Prod.snd).sum = taken.length ∧
      (∀ k q, asked[k]? = some q → 1 ≤ q.1 ∧ q.1 + ((asked.take k).map Prod.snd).sum = n ∧ q.2 ≤ q.1) ∧
      (s.srcEos = true → asked = [] ∧ t.srcEos = true) ∧
      (s.srcEos = false → (t.srcEos = true ↔ ∃ q ∈ asked, q.2 = 0)) ∧
      (taken.length < n → t.srcEos = true) ∧ (taken.length = n → t.srcEos = s.srcEos) ∧
      (∀ j b, taken[j]? = some b → bufByte t buf j = b) ∧
      (∀ j, taken.length ≤ j → bufByte t buf j = bufByte s buf j) ∧
      (∀ other, other ≠ buf → ∀ j, bufByte t other j = bufByte s other j) ∧
      (HostKeepsContract s → s.srcEos = false → taken = s.source.take n) ∧
      t = { s with symBuf := t.symBuf, pairBuf := t.pairBuf, srcEos := t.srcEos, bytesIn := t.bytesIn,
                   source := t.source, cuts := t.cuts, pulls := t.pulls, result := t.result }

/-- WR_BYTES: one push of the buffer's first `n` bytes, counted in BYTES_OUT; nothing else is written (R121). -/
def Obligations.WrBytesPushes : Prop :=
  ∀ (buf : Buf) (n : Nat) (s : State), 1 ≤ n → n ≤ s.params.block →
    exec (.wrBytes buf n) s = .next { s with
      sink := s.sink ++ [(List.range n).map (bufByte s buf)]
      bytesOut := s.bytesOut + BitVec.ofNat 64 n }

/-- RD_SYM: a prefetched byte, else a refill, else end-of-input (R122). With a host that keeps its contract it hands out
the pending symbols in order and then end-of-input. -/
def Obligations.RdSymHandsOut : Prop :=
  ∀ s : State, s.sIdx ≤ s.sLen → s.sLen ≤ s.params.block →
    (s.sIdx < s.sLen →
      exec .rdSym s = .next { s with sIdx := s.sIdx + 1, result := .symbol (symByte s s.sIdx) }) ∧
    (s.sIdx = s.sLen → ∃ u k, exec (.rdBytes .sym s.params.block) s = .next u ∧ u.result = .got k ∧
      exec .rdSym s = .next
        (if k = 0 then { u with sLen := 0, sIdx := 0, result := .endOfInput }
         else { u with sLen := k, sIdx := 1, result := .symbol (symByte u 0) })) ∧
    (1 ≤ s.params.block → HostKeepsContract s → ∃ t, exec .rdSym s = .next t ∧
      t.result = (match pendingSyms s with | [] => .endOfInput | x :: _ => .symbol x) ∧
      pendingSyms t = (pendingSyms s).tail ∧ HostKeepsContract t ∧ t.sIdx ≤ t.sLen ∧ t.sLen ≤ s.params.block)

/-- WR_RUN: the word's bytes are appended in order; whole buffers of BLOCK bytes are pushed as they fill and nothing else
is; an empty word has no effect (R123). -/
def Obligations.WrRunAppends : Prop :=
  (∀ s : State, exec (.wrRun []) s = .next s) ∧
  ∀ (word : List Symbol) (s : State), s.sLen < s.params.block →
    ∃ (t : State) (pushed : List (List Byte)), exec (.wrRun word) s = .next t ∧
      writtenBytes t = writtenBytes s ++ word ∧ t.sLen < s.params.block ∧
      t.sink = s.sink ++ pushed ∧ (∀ b ∈ pushed, b.length = s.params.block) ∧
      s.sLen + word.length = s.params.block * pushed.length + t.sLen ∧
      t.bytesOut = s.bytesOut + BitVec.ofNat 64 (s.params.block * pushed.length) ∧
      (∀ a, (∀ j, j < word.length → a ≠ symSlot s j) → symByte t a = symByte s a) ∧
      SymOutFrame s t

/-- GET_BIT: the bit under the cursor, else a refill, else `exhausted` (R124). With a host that keeps its contract it
reads the pending bits in order. -/
def Obligations.GetBitReads : Prop :=
  ∀ s : State, s.pBits ≤ 8 * s.pLen → s.pLen ≤ s.params.block →
    (s.pBits < 8 * s.pLen →
      exec .getBit s = .next { s with pBits := s.pBits + 1, result := .bit (pairBit s s.pBits) }) ∧
    (s.pBits = 8 * s.pLen → ∃ u k, exec (.rdBytes .pair s.params.block) s = .next u ∧ u.result = .got k ∧
      exec .getBit s = .next
        (if k = 0 then { u with pLen := 0, pBits := 0, result := .exhausted }
         else { u with pLen := k, pBits := 1, result := .bit (pairBit u 0) })) ∧
    (1 ≤ s.params.block → HostKeepsContract s → ∃ t, exec .getBit s = .next t ∧
      t.result = (match pendingBits s with | [] => .exhausted | b :: _ => .bit b) ∧
      pendingBits t = (pendingBits s).tail ∧ HostKeepsContract t ∧ t.pBits ≤ 8 * t.pLen ∧ t.pLen ≤ s.params.block)

/-- PUT_BIT: the bit under the cursor is stored, a 0 as well as a 1; a full buffer is pushed whole (R125). -/
def Obligations.PutBitStores : Prop :=
  ∀ (b : Bool) (s : State), s.pBits < 8 * s.params.block →
    ∃ t, exec (.putBit b) s = .next t ∧ pairBit t s.pBits = b ∧
      (∀ q, q ≠ s.pBits → pairBit t q = pairBit s q) ∧
      (s.pBits + 1 < 8 * s.params.block → t.pBits = s.pBits + 1 ∧ t.sink = s.sink ∧ t.bytesOut = s.bytesOut) ∧
      (s.pBits + 1 = 8 * s.params.block → t.pBits = 0 ∧
        t.sink = s.sink ++ [(List.range s.params.block).map (bufByte t .pair)] ∧
        t.bytesOut = s.bytesOut + BitVec.ofNat 64 s.params.block) ∧
      PairOutFrame s t

/-- RD_PAIR: `w` bits of code, 8 of symbol, `more` false exactly for STOP_CODE; `truncated` where the source ends inside
the record, and its bits are dropped (R126). It completes whatever the host answers, and no bit of PAIRBUF outside a
refill changes. -/
def Obligations.RdPairReadsRecord : Prop :=
  ∀ (w : Nat) (s : State), s.pBits ≤ 8 * s.pLen → s.pLen ≤ s.params.block → 1 ≤ s.params.block →
    ∃ t, exec (.rdPair w) s = .next t ∧ PairInFrame (s.setResult t.result) t ∧
      t.pBits ≤ 8 * t.pLen ∧ t.pLen ≤ s.params.block ∧
      (∀ q, w + 8 ≤ 8 * s.pLen - s.pBits ∨ s.srcEos = true ∨ 8 * min s.params.block s.source.length ≤ q →
        pairBit t q = pairBit s q) ∧
      (HostKeepsContract s → HostKeepsContract t ∧ pendingBits t = (pendingBits s).drop (w + 8) ∧
        t.result =
          if w + 8 ≤ (pendingBits s).length then
            .pair (natOfBits ((pendingBits s).take w)) (byteOfBits (((pendingBits s).drop w).take 8))
              (natOfBits ((pendingBits s).take w) != s.params.stopCode)
          else .truncated)

/-- WR_PAIR: exactly the low `w` bits of the code and the 8 of the symbol are appended; whole buffers are pushed as they
fill (R127). -/
def Obligations.WrPairAppends : Prop :=
  ∀ (code : Nat) (x : Symbol) (w : Nat) (s : State), s.pBits < 8 * s.params.block →
    ∃ (t : State) (pushed : List (List Byte)), exec (.wrPair code x w) s = .next t ∧
      packedBits t = packedBits s ++ (bitsLE w code ++ bitsOfByte x) ∧ t.pBits < 8 * s.params.block ∧
      t.sink = s.sink ++ pushed ∧ (∀ b ∈ pushed, b.length = s.params.block) ∧
      s.pBits + (w + 8) = 8 * s.params.block * pushed.length + t.pBits ∧
      t.bytesOut = s.bytesOut + BitVec.ofNat 64 (s.params.block * pushed.length) ∧
      (∀ a, (∀ j, j < w + 8 → a ≠ pairSlot s j) → pairBit t a = pairBit s a) ∧
      PairOutFrame s t

/-- FLUSH_PAIRS: the bytes that hold a written bit are pushed in one push, the last one completed with zeros; with no
written bit nothing is pushed (R128). -/
def Obligations.FlushPairsPads : Prop :=
  ∀ s : State, s.pBits ≤ 8 * s.params.block →
    (s.pBits = 0 → exec .flushPairs s = .next s) ∧
    (0 < s.pBits → ∃ t, exec .flushPairs s = .next t ∧ t.pBits = 0 ∧
      t.sink = s.sink ++ [(List.range ((s.pBits + 7) / 8)).map (bufByte t .pair)] ∧
      t.bytesOut = s.bytesOut + BitVec.ofNat 64 ((s.pBits + 7) / 8) ∧
      (∀ q, pairBit t q = if s.pBits ≤ q ∧ q < 8 * ((s.pBits + 7) / 8) then false else pairBit s q) ∧
      PairOutFrame s t)

/-- FLUSH_SYMS: the `s_len` buffered bytes are pushed in one push; with none nothing is pushed (R129). -/
def Obligations.FlushSymsPushes : Prop :=
  ∀ s : State, s.sLen ≤ s.params.block →
    (s.sLen = 0 → exec .flushSyms s = .next s) ∧
    (0 < s.sLen → exec .flushSyms s = .next { s with
      sink := s.sink ++ [(List.range s.sLen).map (symByte s)]
      bytesOut := s.bytesOut + BitVec.ofNat 64 s.sLen
      sLen := 0 })

/-- The pair codec's guarantee: from an empty buffer, the sink gets the packed bits of the pairs in order, completed
with zeros to whole bytes, in pushes of BLOCK bytes and one of the rest (R131). -/
def Obligations.PairCodecGuarantee : Prop :=
  ∀ (ps : List (Nat × Symbol × Nat)) (s : State), 1 ≤ s.params.block → s.pBits = 0 →
    ∃ (t : State) (pushed : List (List Byte)) (B : List Bool),
      runOps (ps.map (fun q => Instr.wrPair q.1 q.2.1 q.2.2) ++ [.flushPairs]) s = .next t ∧
      B = ps.flatMap (fun q => bitsLE q.2.2 q.1 ++ bitsOfByte q.2.1) ∧
      t.sink = s.sink ++ pushed ∧
      bitsOfBytes pushed.flatten = B ++ List.replicate (8 * ((B.length + 7) / 8) - B.length) false ∧
      t.bytesOut = s.bytesOut + BitVec.ofNat 64 ((B.length + 7) / 8) ∧
      pushed.map List.length = List.replicate (B.length / (8 * s.params.block)) s.params.block ++
        (if B.length % (8 * s.params.block) = 0 then []
         else [(B.length % (8 * s.params.block) + 7) / 8])

/-- The symbol codec's guarantee: from an empty buffer, the sink gets the words in order, in pushes of BLOCK bytes and
one of the rest (R132). -/
def Obligations.SymbolCodecGuarantee : Prop :=
  ∀ (ws : List (List Symbol)) (s : State), 1 ≤ s.params.block → s.sLen = 0 →
    ∃ (t : State) (pushed : List (List Byte)),
      runOps (ws.map Instr.wrRun ++ [.flushSyms]) s = .next t ∧
      t.sink = s.sink ++ pushed ∧ pushed.flatten = ws.flatten ∧
      t.bytesOut = s.bytesOut + BitVec.ofNat 64 ws.flatten.length ∧
      pushed.map List.length = List.replicate (ws.flatten.length / s.params.block) s.params.block ++
        (if ws.flatten.length % s.params.block = 0 then [] else [ws.flatten.length % s.params.block])

/-- The unpacker's guarantee: GET_BIT number `n` of a run returns bit `n mod 8` of byte `n div 8` of the source, and
`exhausted` past its end, whatever the cutting and whatever BLOCK (R133). -/
def Obligations.UnpackerGuarantee : Prop :=
  ∀ (n : Nat) (s : State), 1 ≤ s.params.block → HostKeepsContract s → s.srcEos = false → s.pBits = 0 → s.pLen = 0 →
    ∃ t, runOps (List.replicate (n + 1) .getBit) s = .next t ∧
      t.result = (match s.source[n / 8]? with
        | some b => .bit (b.getLsbD (n % 8))
        | none => .exhausted)

/-! Trie encoder (42_trie_encoder.md). -/

/-- ENC_SYM where the link is there is ENC_SYM.HIT: one link down, and nothing else is written (R151, R152). -/
def Obligations.EncSymHitDescends : Prop :=
  ∀ (x : Symbol) (c : Nat) (s : State), childAt s s.cur x = some c →
    exec (.encSym x) s = .next { s with prev := s.cur, cur := c, lastSym := x } ∧
    exec (.encSymHit x) s = .next { s with prev := s.cur, cur := c, lastSym := x }

/-- ENC_SYM where the link is NIL is ENC_SYM.MISS: the pair of the current node and the symbol at the width of the new
node's code, the new link, the root, the counter; a full dictionary is cleared in the same step (R151, R153). MODEL'S
CHOICE: the link is stored also where `cur` or `next_code` is a code below MAX_CODE that R73 does not allow, which no
run reaches (log 34). -/
def Obligations.EncSymMissEmits : Prop :=
  ∀ (x : Symbol) (s : State), childAt s s.cur x = none → s.pBits < 8 * s.params.block →
    s.cur < s.params.maxCode → s.nextCode < s.params.maxCode →
    ∃ (t : State) (pushed : List (List Byte)),
      exec (.encSym x) s = .next t ∧ exec (.encSymMiss x) s = .next t ∧
      packedBits t = packedBits s ++ (bitsLE (bitlen s.nextCode) s.cur ++ bitsOfByte x) ∧
      t.pBits < 8 * s.params.block ∧ t.sink = s.sink ++ pushed ∧ (∀ b ∈ pushed, b.length = s.params.block) ∧
      t.bytesOut = s.bytesOut + BitVec.ofNat 64 pushed.flatten.length ∧
      t.lastSym = x ∧ t.cur = s.params.emptyCode ∧
      (s.nextCode + 1 < s.params.maxCode → t.nextCode = s.nextCode + 1 ∧
        childAt t s.cur x = some s.nextCode ∧
        ∀ n y, (n ≠ s.cur ∨ y ≠ x) → childAt t n y = childAt s n y) ∧
      (s.nextCode + 1 = s.params.maxCode → t.nextCode = s.params.startCode ∧ ∀ n y, childAt t n y = none) ∧
      (∀ a, (∀ j, j < bitlen s.nextCode + 8 → a ≠ pairSlot s j) → pairBit t a = pairBit s a) ∧
      t = { s with pairBuf := t.pairBuf, pBits := t.pBits, sink := t.sink, bytesOut := t.bytesOut,
                   child := t.child, lastSym := t.lastSym, cur := t.cur, nextCode := t.nextCode }

/-- ENC_EOS: the final-flush pair where the input ended mid-match, with its ADVANCE, then the STOP pair, then the flush,
and the run is done (R155, R156, R157). MODEL'S CHOICE: the private state, which R46 leaves unspecified from then on,
takes free values (log 8), and nothing is said of it. -/
def Obligations.EncEosFinishes : Prop :=
  ∀ s : State, s.pBits < 8 * s.params.block → (s.cur = s.params.emptyCode ∨ s.nextCode < s.params.maxCode) →
    ∃ (t : State) (pushed : List (List Byte)) (pad : Nat) (final : List Bool) (next : Nat),
      exec .encEos s = .next t ∧
      (s.cur = s.params.emptyCode → final = [] ∧ next = s.nextCode) ∧
      (s.cur ≠ s.params.emptyCode →
        final = bitsLE (bitlen s.nextCode) s.prev ++ bitsOfByte s.lastSym ∧ next = countUp s) ∧
      bitsOfBytes (sinkBytes t) = packedBits s ++ (final ++ (bitsLE (bitlen next) s.params.stopCode ++ bitsOfByte 0)) ++
        List.replicate pad false ∧
      pad < 8 ∧ t.sink = s.sink ++ pushed ∧ (∀ b ∈ pushed, 1 ≤ b.length ∧ b.length ≤ s.params.block) ∧
      DeadFrame { s with
        phase := .done, sink := t.sink, bytesOut := s.bytesOut + BitVec.ofNat 64 pushed.flatten.length } t

/-- TRIE_RESET: every link is NIL; nothing else is written (R154). -/
def Obligations.TrieResetClears : Prop :=
  ∀ s : State, ∃ t, exec .trieReset s = .next t ∧ (∀ n x, childAt t n x = none) ∧ t = { s with child := t.child }

/-- Every code the encoder may emit fits its field: STOP_CODE, also at the width after a final-flush pair, the current
node, and, away from the root, its parent (R99). -/
def Obligations.EmittedCodesFit : Prop :=
  ∀ s : State, Inv s → s.phase = .encRun →
    s.params.stopCode < 2 ^ recordWidth s ∧ s.params.stopCode < 2 ^ bitlen (countUp s) ∧
    s.cur < s.nextCode ∧ s.cur < 2 ^ recordWidth s ∧
    (s.cur ≠ s.params.emptyCode → s.prev < s.nextCode ∧ s.prev < 2 ^ recordWidth s)

/-! Word-table decoder (43_word_table_decoder.md). -/

/-- A PAIR record whose code names a word, of every width, and DEC_PAIR: the word of the code with the symbol appended is
stored at next_code and written out, and the counter advances; a full table is cleared in the same step (R171). MODEL'S
CHOICE: the word is stored also where `next_code` is a code below MAX_CODE that R73 does not allow, which no run reaches
(log 34). -/
def Obligations.PairRecordAppendsWord : Prop :=
  ∀ (i : Instr) (code : Nat) (x : Symbol) (word : List Symbol) (s : State),
    ((∃ w, pairRecord i = some (w, code, x)) ∨ i = .decPair code x) → wordAt s code = some word →
    s.nextCode < s.params.maxCode → s.sLen < s.params.block →
    ∃ (t : State) (pushed : List (List Byte)), exec i s = .next t ∧
      writtenBytes t = writtenBytes s ++ (word ++ [x]) ∧ t.sLen < s.params.block ∧
      t.sink = s.sink ++ pushed ∧ (∀ b ∈ pushed, b.length = s.params.block) ∧
      t.bytesOut = s.bytesOut + BitVec.ofNat 64 pushed.flatten.length ∧
      (s.nextCode + 1 < s.params.maxCode → t.nextCode = s.nextCode + 1 ∧
        wordAt t s.nextCode = some (word ++ [x]) ∧ ∀ c, c ≠ s.nextCode → wordAt t c = wordAt s c) ∧
      (s.nextCode + 1 = s.params.maxCode → t.nextCode = s.params.startCode ∧
        (∀ c, c ≠ s.params.emptyCode → wordAt t c = none) ∧
        (s.params.emptyCode ≠ s.nextCode → wordAt t s.params.emptyCode = wordAt s s.params.emptyCode)) ∧
      (∀ a, (∀ j, j < word.length + 1 → a ≠ symSlot s j) → symByte t a = symByte s a) ∧
      t = { s with symBuf := t.symBuf, sLen := t.sLen, sink := t.sink, bytesOut := t.bytesOut,
                   wt := t.wt, nextCode := t.nextCode }

/-- A STOP record of every width, whatever its symbol, and DEC_STOP: the buffered bytes are pushed and the run is done
(R172). MODEL'S CHOICE: the private state, which R46 leaves unspecified from then on, takes free values (log 8), and
nothing is said of it. -/
def Obligations.StopRecordFinishes : Prop :=
  ∀ (i : Instr) (s : State), ((∃ w x, stopRecord i = some (w, x)) ∨ i = .decStop) → s.sLen ≤ s.params.block →
    ∃ t, exec i s = .next t ∧
      (s.sLen = 0 → DeadFrame { s with phase := .done } t) ∧
      (0 < s.sLen → DeadFrame { s with
        phase := .done
        sink := s.sink ++ [(List.range s.sLen).map (symByte s)]
        bytesOut := s.bytesOut + BitVec.ofNat 64 s.sLen } t)

/-- DEC_TRUNC: TRUNC and cause 3 are recorded with info 0, the words of all complete pairs are pushed, and the run is
done (R175). MODEL'S CHOICE: the private state, which R46 leaves unspecified from then on, takes free values (log 8), and
nothing is said of it. -/
def Obligations.TruncationReports : Prop :=
  ∀ s : State, s.sLen ≤ s.params.block →
    ∃ t, exec .decTrunc s = .next t ∧
      (s.sLen = 0 → DeadFrame { s with trunc := true, cause := 3, info := 0, phase := .done } t) ∧
      (0 < s.sLen → DeadFrame { s with
        trunc := true
        cause := 3
        info := 0
        phase := .done
        sink := s.sink ++ [(List.range s.sLen).map (symByte s)]
        bytesOut := s.bytesOut + BitVec.ofNat 64 s.sLen } t)

/-- An illegal record of every width takes the fault BAD_CODE, as the illegal-record operation and RAISE do: cause 4,
info the code, nothing flushed, phase ERROR, and nothing else (R174, R236). MODEL'S CHOICE: the private state, which R46
leaves unspecified from then on, takes free values (log 8), and nothing is said of it; DEC_PAIR run by name on a dead
code takes the fault too (log 18); a value wider than `info` is cut to its width (log 22). -/
def Obligations.IllegalRecordRaises : Prop :=
  ∀ (i : Instr) (code : Nat) (s : State), RaisesBadCode s i code →
    ∃ t, exec i s = .next t ∧ (code < 2 ^ (s.params.codeBits + 1) → t.info = code) ∧
      DeadFrame { s with cause := 4, info := code % 2 ^ (s.params.codeBits + 1), phase := .error } t

/-- WT_RESET: every slot but EMPTY_CODE's is NIL, and that one keeps its word; nothing else is written (R173). -/
def Obligations.WtResetClears : Prop :=
  ∀ s : State, ∃ t, exec .wtReset s = .next t ∧ (∀ c, c ≠ s.params.emptyCode → wordAt t c = none) ∧
    wordAt t s.params.emptyCode = wordAt s s.params.emptyCode ∧ t = { s with wt := t.wt }

/-- What decides between the cases the spec gives preconditions for (R152, R153, R171). MODEL'S CHOICE: the stop where
ENC_SYM.HIT or ENC_SYM.MISS is run against its precondition (log 17), the fault where DEC_PAIR is (log 18). -/
def Obligations.PreconditionsDecide : Prop :=
  ∀ (x : Symbol) (code : Nat) (s : State),
    (childAt s s.cur x = none → exec (.encSymHit x) s = .fault .hitWithoutChild) ∧
    (childAt s s.cur x ≠ none → exec (.encSymMiss x) s = .fault .missWithChild) ∧
    (wordAt s code = none → exec (.decPair code x) s = exec (.badCode code) s)

/-- Where an access to a buffer or a dictionary does not exist, or a transfer is longer than BLOCK or a push empty, the
model stops by name. MODEL'S CHOICE (log 16, log 26): R60, R68 and R73 give the ranges and no behaviour outside. -/
def Obligations.OutOfRangeStops : Prop :=
  ∀ (s : State) (x : Symbol) (b : Bool) (code w n : Nat) (buf : Buf),
    (8 * s.params.block ≤ s.pBits → exec (.putBit b) s = .fault .pairIndexOutOfRange ∧
      exec (.wrPair code x w) s = .fault .pairIndexOutOfRange ∧ exec .encEos s = .fault .pairIndexOutOfRange) ∧
    (8 * s.params.block < s.pBits → exec .flushPairs s = .fault .pairIndexOutOfRange) ∧
    (8 * s.pLen < s.pBits ∨ s.params.block < s.pLen →
      exec .getBit s = .fault .pairIndexOutOfRange ∧ exec (.rdPair w) s = .fault .pairIndexOutOfRange) ∧
    (s.sLen < s.sIdx ∨ s.params.block < s.sLen → exec .rdSym s = .fault .symIndexOutOfRange) ∧
    (s.params.block ≤ s.sLen → exec (.wrRun [x]) s = .fault .symIndexOutOfRange) ∧
    (s.params.block < s.sLen → exec .flushSyms s = .fault .symIndexOutOfRange ∧
      exec .decStop s = .fault .symIndexOutOfRange ∧ exec .decTrunc s = .fault .symIndexOutOfRange) ∧
    (s.params.maxCode ≤ s.nextCode → exec .advance s = .fault .codeOutOfRange) ∧
    (childAt s s.cur x = none → 8 * s.params.block ≤ s.pBits →
      exec (.encSym x) s = .fault .pairIndexOutOfRange ∧ exec (.encSymMiss x) s = .fault .pairIndexOutOfRange) ∧
    (childAt s s.cur x = none → s.pBits < 8 * s.params.block →
      s.params.maxCode ≤ s.cur ∨ s.params.maxCode ≤ s.nextCode →
      exec (.encSym x) s = .fault .codeOutOfRange ∧ exec (.encSymMiss x) s = .fault .codeOutOfRange) ∧
    (s.pBits < 8 * s.params.block → s.cur ≠ s.params.emptyCode → s.params.maxCode ≤ s.nextCode →
      exec .encEos s = .fault .codeOutOfRange) ∧
    (wordAt s code ≠ none → s.params.maxCode ≤ s.nextCode → exec (.decPair code x) s = .fault .codeOutOfRange) ∧
    (wordAt s code ≠ none → s.nextCode < s.params.maxCode → s.params.block ≤ s.sLen →
      exec (.decPair code x) s = .fault .symIndexOutOfRange) ∧
    (s.params.block < n → exec (.rdBytes buf n) s = .fault .transferLength) ∧
    (n = 0 ∨ s.params.block < n → exec (.wrBytes buf n) s = .fault .transferLength)

/-! Host commands and reset (45_host_commands.md, 70_reset_and_hazards.md). -/

/-- START_ENC and START_DEC outside a run: the mode, RUN_INIT's values and the run's phase; `prev`, `last_sym`, the
buffers' contents, the streams and the host's side stay (R211, R212). -/
def Obligations.StartBeginsRun : Prop :=
  ∀ (r : BitVec 62) (s : State), s.phase = .idle ∨ s.phase = .done ∨ s.phase = .error →
    exec (.startEnc r) s = .next { s with
      mode := .enc, phase := .encRun, nextCode := s.params.startCode, cur := s.params.emptyCode, child := [],
      wt := [(s.params.emptyCode, [])], pBits := 0, pLen := 0, sIdx := 0, sLen := 0, srcEos := false,
      trunc := false, cause := 0, info := 0, bytesIn := 0, bytesOut := 0 } ∧
    exec (.startDec r) s = .next { s with
      mode := .dec, phase := .decRun, nextCode := s.params.startCode, cur := s.params.emptyCode, child := [],
      wt := [(s.params.emptyCode, [])], pBits := 0, pLen := 0, sIdx := 0, sLen := 0, srcEos := false,
      trunc := false, cause := 0, info := 0, bytesIn := 0, bytesOut := 0 }

/-- A write of CTRL while BUSY with START = 1, and in any phase with START = 0, has no effect at all (R214). -/
def Obligations.StartWhileBusyIgnored : Prop :=
  (∀ (r : BitVec 62) (s : State), s.phase = .encRun ∨ s.phase = .decRun →
    exec (.startEnc r) s = .next s ∧ exec (.startDec r) s = .next s) ∧
  ∀ (m : BitVec 1) (r : BitVec 62) (s : State), exec (.ctrlNop m r) s = .next s

/-- RUN_INIT: the values of R213, the trie the root alone, the word table the empty word alone; nothing else is
written. -/
def Obligations.RunInitValues : Prop :=
  ∀ s : State, ∃ t, exec .runInit s = .next t ∧
    (∀ n x, childAt t n x = none) ∧ wordAt t s.params.emptyCode = some [] ∧
    (∀ c, c ≠ s.params.emptyCode → wordAt t c = none) ∧
    t = { s with
      nextCode := s.params.startCode, cur := s.params.emptyCode, child := t.child, wt := t.wt, pBits := 0, pLen := 0,
      sIdx := 0, sLen := 0, srcEos := false, trunc := false, cause := 0, info := 0, bytesIn := 0, bytesOut := 0 }

/-- CSR_READ returns the register's value, field by field, and 0 for CTRL and any other number; it writes nothing but
the port's read data (R215, R39). MODEL'S CHOICE: with a MAX_CODE larger than this hardware's, INFO shows all of the wider
`info` (log 2). -/
def Obligations.CsrReadFields : Prop :=
  ∀ (n : Nat) (s : State), ∃ v : Word64, exec (.csrRead n) s = .next { s with result := .value v } ∧
    (n = 1 →
      (v.getLsbD 0 = true ↔ s.phase = .encRun ∨ s.phase = .decRun) ∧ (v.getLsbD 1 = true ↔ s.phase = .done) ∧
      (v.getLsbD 2 = true ↔ s.phase = .error) ∧ v.getLsbD 3 = s.trunc ∧
      (v.getLsbD 4 = true ↔ s.mode = .dec) ∧ v.extractLsb' 5 3 = s.cause ∧ v.extractLsb' 8 56 = 0) ∧
    (n = 2 → v = s.bytesIn) ∧ (n = 3 → v = s.bytesOut) ∧
    (n = 4 → v = BitVec.ofNat 64 s.info ∧
      (s.info < 2 ^ 17 → (v.extractLsb' 0 17).toNat = s.info ∧ v.extractLsb' 17 47 = 0)) ∧
    (n = 0 ∨ 4 < n → v = 0)

/-- HW_RESET in any phase: the values of R45's first column; the streams, what was pushed and the host's side stay, and
nothing is flushed (R216). What R45 leaves unspecified is not constrained. -/
def Obligations.HwResetValues : Prop :=
  ∀ s : State, ∃ t, exec .hwReset s = .next t ∧
    t = { s with
      phase := .idle, mode := .enc, nextCode := s.params.startCode, cur := s.params.emptyCode, pBits := 0, pLen := 0,
      sIdx := 0, sLen := 0, srcEos := false, trunc := false, cause := 0, info := 0, bytesIn := 0, bytesOut := 0,
      prev := t.prev, lastSym := t.lastSym, child := t.child, wt := t.wt, symBuf := t.symBuf, pairBuf := t.pairBuf,
      draws := t.draws }

/-- After hardware reset: phase IDLE, the values of R45's first column, and the block does nothing until a command
(R260). -/
def Obligations.ResetIsIdle : Prop :=
  State.reset.phase = .idle ∧ State.reset.mode = .enc ∧
  State.reset.nextCode = State.reset.params.startCode ∧ State.reset.cur = State.reset.params.emptyCode ∧ State.reset.pBits = 0 ∧
  State.reset.pLen = 0 ∧ State.reset.sIdx = 0 ∧ State.reset.sLen = 0 ∧ State.reset.srcEos = false ∧
  State.reset.trunc = false ∧ State.reset.cause = 0 ∧ State.reset.info = 0 ∧ State.reset.bytesIn = 0 ∧
  State.reset.bytesOut = 0 ∧ statusReg State.reset = 0 ∧ step State.reset = .next State.reset

/-! The step. -/

/-- A step runs the decoded operation: the host's write of CTRL as format C; in the engine's turn, the record or the
symbol that decodes from the front of what is pending, in the state its fetch leaves, where the rest is pending. MODEL'S
CHOICE: what a record of more than 16 bits of code, on a machine with a larger MAX_CODE, decodes to (log 33). -/
def Obligations.StepRunsDecoded : Prop :=
  (∀ (s : State) (v : Word64) (ms : List HostMove) (i : Instr), s.moves = .regWrite 0 v :: ms →
    decode s.params .command (bitsLE 64 v.toNat) = .ok (i, []) → step s = exec i (s.setMoves ms)) ∧
  (∀ (s : State) (i : Instr) (rest : List Bool), EngineTurn s → s.phase = .decRun → s.pBits ≤ 8 * s.pLen →
    s.pLen ≤ s.params.block → 1 ≤ s.params.block → HostKeepsContract s →
    decode s.params (.record (recordWidth s)) (pendingBits s) = .ok (i, rest) →
    ∃ u, u = (rdPair (recordWidth s) (s.setMoves s.moves.tail)).2 ∧ step s = exec i u ∧ pendingBits u = rest ∧
      PairInFrame (s.setMoves s.moves.tail) u) ∧
  (∀ (s : State) (i : Instr) (rest : List Bool), EngineTurn s → s.phase = .encRun → s.sIdx ≤ s.sLen →
    s.sLen ≤ s.params.block → 1 ≤ s.params.block → HostKeepsContract s →
    decode s.params .symbol (bitsOfBytes (pendingSyms s)) = .ok (i, rest) →
    ∃ u, u = (rdSym (s.setMoves s.moves.tail)).2 ∧ step s = exec i u ∧ bitsOfBytes (pendingSyms u) = rest ∧
      SymInFrame (s.setMoves s.moves.tail) u)

/-- One decoder step, in the order of R96 and R238: an incomplete record is a truncation, then STOP_CODE stops, then a
code that names no word is illegal, else the pair is decoded; the record's bits are consumed first. -/
def Obligations.DecoderStepSelects : Prop :=
  ∀ s : State, Inv s → s.phase = .decRun → EngineTurn s → HostKeepsContract s →
    ∃ (u : State) (code : Nat) (x : Symbol), PairInFrame (s.setMoves s.moves.tail) u ∧ HostKeepsContract u ∧
      code = natOfBits ((pendingBits s).take (recordWidth s)) ∧
      x = byteOfBits (((pendingBits s).drop (recordWidth s)).take 8) ∧
      pendingBits u = (pendingBits s).drop (recordWidth s + 8) ∧
      ((pendingBits s).length < recordWidth s + 8 → step s = exec .decTrunc u) ∧
      (recordWidth s + 8 ≤ (pendingBits s).length →
        (code = s.params.stopCode → step s = exec .decStop u) ∧
        (code ≠ s.params.stopCode → wordAt s code ≠ none → step s = exec (.decPair code x) u) ∧
        (code ≠ s.params.stopCode → wordAt s code = none → step s = exec (.badCode code) u) ∧
        (wordAt s code ≠ none ↔
          code = s.params.emptyCode ∨ (s.params.startCode ≤ code ∧ code < s.nextCode)))

/-- One encoder step: the next pending symbol selects ENC_SYM, the end of input ENC_EOS (R150, R101, R102). -/
def Obligations.EncoderStepSelects : Prop :=
  ∀ s : State, Inv s → s.phase = .encRun → EngineTurn s → HostKeepsContract s →
    ∃ u, SymInFrame (s.setMoves s.moves.tail) u ∧ HostKeepsContract u ∧ pendingSyms u = (pendingSyms s).tail ∧
      (∀ x rest, pendingSyms s = x :: rest → step s = exec (.encSym x) u) ∧
      (pendingSyms s = [] → step s = exec .encEos u ∧ ∃ t, step s = .next t ∧ t.phase = .done)

/-- The steps that run no operation of the engine: outside a run the engine does nothing (R244, R260); a write of a
register other than CTRL has no effect (R39); a read is CSR_READ, `rst` is HW_RESET. MODEL'S CHOICE: the list of moves
itself (log 9) and connecting a source (log 25). -/
def Obligations.HostMovesAndIdle : Prop :=
  (∀ s : State, EngineTurn s → busy s = false → step s = .next (s.setMoves s.moves.tail)) ∧
  (∀ (s : State) (n : Nat) (v : Word64) (ms : List HostMove), s.moves = .regWrite n v :: ms → n ≠ 0 →
    step s = .next (s.setMoves ms)) ∧
  (∀ (s : State) (n : Nat) (ms : List HostMove), s.moves = .regRead n :: ms →
    step s = exec (.csrRead n) (s.setMoves ms)) ∧
  (∀ (s : State) (ms : List HostMove), s.moves = .rst :: ms → step s = exec .hwReset (s.setMoves ms)) ∧
  (∀ (s : State) (src : List Byte) (cs : List Nat) (ms : List HostMove), s.moves = .connect src cs :: ms →
    step s = .next { s with moves := ms, source := src, cuts := cs })

/-- The phase changes as R24 lists and in no other way, over every operation and over every step: a start outside a run,
ENC_EOS at the end of input, DEC_STOP at STOP_CODE or truncation, `raise` at a code that names no word, HW_RESET.
MODEL'S CHOICE: DEC_PAIR run by name on a dead code raises (log 18). -/
def Obligations.PhaseTransitions : Prop :=
  (∀ (i : Instr) (s t : State), exec i s = .next t → t.phase ≠ s.phase →
    (busy s = false ∧ (((∃ r, i = .startEnc r) ∧ t.phase = .encRun) ∨ ((∃ r, i = .startDec r) ∧ t.phase = .decRun))) ∨
    (i = .hwReset ∧ t.phase = .idle) ∨
    (FinishesRun i ∧ t.phase = .done) ∨
    ((∃ code, RaisesBadCode s i code) ∧ t.phase = .error)) ∧
  ∀ (s t u0 : State), u0 = s.setMoves s.moves.tail → step s = .next t → t.phase ≠ s.phase →
    (busy s = false ∧ ∃ v ms, s.moves = .regWrite 0 v :: ms ∧ v.getLsbD 0 = true ∧
      t.phase = if v.getLsbD 1 = true then .decRun else .encRun) ∨
    (s.moves.head? = some .rst ∧ t.phase = .idle) ∨
    (EngineTurn s ∧ s.phase = .encRun ∧ t.phase = .done ∧ (rdSym u0).1 = none ∧
      step s = exec .encEos (rdSym u0).2) ∨
    (EngineTurn s ∧ s.phase = .decRun ∧ t.phase = .done ∧
      (((rdPair (recordWidth s) u0).1 = none ∧ step s = exec .decTrunc (rdPair (recordWidth s) u0).2) ∨
        ∃ x more, (rdPair (recordWidth s) u0).1 = some (s.params.stopCode, x, more) ∧
          step s = exec .decStop (rdPair (recordWidth s) u0).2)) ∨
    (EngineTurn s ∧ s.phase = .decRun ∧ t.phase = .error ∧
      ∃ code x more, (rdPair (recordWidth s) u0).1 = some (code, x, more) ∧ code ≠ s.params.stopCode ∧
        wordAt s code = none ∧ step s = exec (.badCode code) (rdPair (recordWidth s) u0).2)

/-- A step only appends to the sink and only consumes the front of the source, in order; the counters count what moved;
the parameters stay (R62, R66, R68, R75, R130, R265). Each push is of 1 to BLOCK bytes. -/
def Obligations.StreamsMoveForward : Prop :=
  ∀ s t : State, Inv s → step s = .next t →
    ∃ (pushed : List (List Byte)) (asked : List (Nat × Nat)),
      t.sink = s.sink ++ pushed ∧ (∀ b ∈ pushed, 1 ≤ b.length ∧ b.length ≤ s.params.block) ∧
      t.pulls = s.pulls ++ asked ∧ (∀ q ∈ asked, 1 ≤ q.1 ∧ q.1 ≤ s.params.block ∧ q.2 ≤ q.1) ∧
      t.params = s.params ∧
      ((∀ src cs, s.moves.head? ≠ some (.connect src cs)) →
        (asked.map Prod.snd).sum ≤ s.source.length ∧ t.source = s.source.drop (asked.map Prod.snd).sum) ∧
      (EngineTurn s → t.bytesIn = s.bytesIn + BitVec.ofNat 64 (asked.map Prod.snd).sum ∧
        t.bytesOut = s.bytesOut + BitVec.ofNat 64 pushed.flatten.length) ∧
      (¬ EngineTurn s → pushed = [] ∧ asked = [])

/-- Which operations write TRUNC, cause or info, over every operation: RUN_INIT and the starts that perform it, HW_RESET,
`raise` and the illegal records that take it, truncation (R36). No codec or encoder operation reports anything (R134).
MODEL'S CHOICE: DEC_PAIR run by name on a dead code raises (log 18), and a value wider than `info` is cut to its width
(log 22). -/
def Obligations.ReportWriters : Prop :=
  ∀ (i : Instr) (s t : State), exec i s = .next t →
    (t.trunc ≠ s.trunc ∨ t.cause ≠ s.cause ∨ t.info ≠ s.info ∨ (t.phase = .error ∧ s.phase ≠ .error)) →
    (t.trunc = false ∧ t.cause = 0 ∧ t.info = 0 ∧
      ((busy s = false ∧ ∃ r, i = .startEnc r ∨ i = .startDec r) ∨ i = .runInit ∨ i = .hwReset)) ∨
    (t.trunc = true ∧ t.cause = 3 ∧ t.info = 0 ∧ i = .decTrunc) ∨
    (t.trunc = s.trunc ∧ t.cause = 4 ∧ t.phase = .error ∧ ∃ code,
      t.info = code % 2 ^ (s.params.codeBits + 1) ∧ RaisesBadCode s i code)

/-! Invariants and runs. -/

/-- The invariant holds after reset. -/
def Obligations.InvAtReset : Prop := Inv State.reset

/-- Every step keeps the invariant: parameters, canonical memories, the dictionaries' indices of R73, every register's
width, the bounds of R47, the trie's structure of R31 and R23 in an encode, the word table's of R34 in a decode, the
status of R39. -/
def Obligations.StepKeepsInv : Prop := ∀ s t : State, Inv s → step s = .next t → Inv t

/-- From a state that meets the invariant a step stops in no fault and no refusal, whatever the host's commands: the block
always has its next state. MODEL'S CHOICE: the host answers every pull and accepts every push within the step (log 10,
log 11). -/
def Obligations.StepNeverStops : Prop := ∀ s : State, Inv s → ∃ t, step s = .next t

/-- Every operation, in any phase and with any operands, keeps the memories canonical and inside their address ranges: the
trie's links, from codes to codes, the word table's slots, the two buffers' cells (R60). -/
def Obligations.MemoriesStayCanonical : Prop :=
  ∀ (i : Instr) (s t : State), s.params.wf = true → MemoryInv s → exec i s = .next t → MemoryInv t

/-- The values STATUS can show, one for each situation of a run; the reserved cause codes never appear (R39, R230). -/
def Obligations.StatusValues : Prop :=
  ∀ s : State, Inv s →
    (s.phase = .idle → statusReg s = 0x00) ∧ (s.phase = .encRun → statusReg s = 0x01) ∧
    (s.phase = .decRun → statusReg s = 0x11) ∧
    (s.phase = .done → statusReg s = 0x02 ∨ statusReg s = 0x12 ∨ statusReg s = 0x7a) ∧
    (s.phase = .error → statusReg s = 0x94) ∧
    (s.trunc = true → s.phase = .done) ∧ (s.mode = .enc → s.trunc = false ∧ s.phase ≠ .error)

/-- Every run on a finite source ends: an encoder step consumes a symbol or ends the run, a decoder step at least 10 bits
or ends it (R200). MODEL'S CHOICE: the host answers every pull and accepts every push within the step (log 10, log 11). -/
def Obligations.RunsEnd : Prop :=
  ∀ s : State, Inv s → s.moves = [] →
    (s.phase = .encRun → ∃ k t, k ≤ (pendingSyms s).length + 1 ∧ Reaches k s t ∧ t.phase = .done) ∧
    (s.phase = .decRun → ∃ k t, 10 * (k - 1) ≤ (pendingBits s).length ∧ Reaches k s t ∧ Ended t)

/-- The round trip: for every byte sequence, with any BLOCK on either side and any cutting of the streams, a decode of
what an encode produced ends in DONE with TRUNC = 0 and gives the sequence back; the counters end at the lengths
(R178, R243). MODEL'S CHOICE: the runs end because the host answers every pull and accepts every push within the step
(log 10, log 11). -/
def Obligations.RoundTrip : Prop :=
  ∀ e : State, e.params.wf = true → busy e = false → e.moves = [.regWrite 0 1] → HostKeepsContract e →
    ∃ (k : Nat) (e' : State) (body : List Byte),
      Reaches k e e' ∧ e'.phase = .done ∧ sinkBytes e' = sinkBytes e ++ body ∧
      e'.bytesIn = BitVec.ofNat 64 e.source.length ∧ e'.bytesOut = BitVec.ofNat 64 body.length ∧
      ∀ d : State, d.params.wf = true → d.params = { e.params with block := d.params.block } → busy d = false →
        d.moves = [.regWrite 0 3] → HostKeepsContract d → d.source = body →
        ∃ (k' : Nat) (d' : State), Reaches k' d d' ∧ d'.phase = .done ∧ d'.trunc = false ∧ d'.cause = 0 ∧
          sinkBytes d' = sinkBytes d ++ e.source ∧ d'.bytesOut = BitVec.ofNat 64 e.source.length

/-- What BLOCK and the cutting do not change: two runs of the same command on the same source, with any two buffer sizes
and any two cuttings, end in the same STATUS and INFO; ended in DONE they pushed the same bytes and have the same
BYTES_OUT; encoder runs have the same BYTES_IN (R275). MODEL'S CHOICE: the runs end because the host answers every pull
and accepts every push within the step (log 10, log 11). -/
def Obligations.BlockChangesNoResult : Prop :=
  ∀ (s s' : State) (v : Word64), s.params.wf = true → s'.params.wf = true →
    s'.params = { s.params with block := s'.params.block } → busy s = false → busy s' = false →
    v.getLsbD 0 = true → s.moves = [.regWrite 0 v] → s'.moves = [.regWrite 0 v] →
    HostKeepsContract s → HostKeepsContract s' → s.source = s'.source →
    ∃ k k' t t', Reaches k s t ∧ Reaches k' s' t' ∧ Ended t ∧ statusReg t = statusReg t' ∧ infoReg t = infoReg t' ∧
      (t.phase = .done → t.bytesOut = t'.bytesOut ∧
        ∃ out, sinkBytes t = sinkBytes s ++ out ∧ sinkBytes t' = sinkBytes s' ++ out) ∧
      (t.mode = .enc → t.bytesIn = t'.bytesIn)

/-- What the spec calls unspecified or never read cannot be told by the host: from two states that differ in that alone,
a step gives two states that differ in that alone, with the same outputs (R40, R43, R46). It holds for every value of
the free values. -/
def Obligations.ResidueIsInvisible : Prop :=
  ∀ s s' t : State, Inv s → Inv s' → Alike s s' → step s = .next t →
    ∃ t', step s' = .next t' ∧ Alike t t' ∧ statusReg t = statusReg t' ∧ infoReg t = infoReg t'
end

