-- ==== Sys2Proof/Laws/Bits.lean ====
section
/-! SUPPORT. Bits, fields and bytes: a field read back is the value written, and the other way round. -/

namespace Sys2Proof

@[simp] theorem length_bitsLE (w v : Nat) : (bitsLE w v).length = w := by simp [bitsLE]

@[simp] theorem bitsLE_zero (v : Nat) : bitsLE 0 v = [] := rfl

/-- The first bit of a field is the value's parity; the rest is the field of half the value. -/
theorem bitsLE_succ (w v : Nat) : bitsLE (w + 1) v = v.testBit 0 :: bitsLE w (v / 2) := by
  simp only [bitsLE, List.range_succ_eq_map, List.map_cons, List.map_map]
  congr 1
  apply List.map_congr_left
  intro k _
  simp [Nat.testBit_succ]

/-- A field holds the low bits of its value (R93). -/
theorem natOfBits_bitsLE (w v : Nat) : natOfBits (bitsLE w v) = v % 2 ^ w := by
  induction w generalizing v with
  | zero => simp [natOfBits, Nat.mod_one]
  | succ w ih =>
    rw [bitsLE_succ, natOfBits, ih, Nat.testBit_zero, pow_succ']
    have h := Nat.mod_mul (x := v) (a := 2) (b := 2 ^ w)
    rcases Nat.mod_two_eq_zero_or_one v with h2 | h2 <;> simp [h2] at h ⊢ <;> omega

theorem natOfBits_lt (bs : List Bool) : natOfBits bs < 2 ^ bs.length := by
  induction bs with
  | nil => simp [natOfBits]
  | cons b bs ih => cases b <;> simp [natOfBits, pow_succ] <;> omega

/-- The field of the value of bits is those bits. -/
theorem bitsLE_natOfBits (bs : List Bool) : bitsLE bs.length (natOfBits bs) = bs := by
  induction bs with
  | nil => rfl
  | cons b bs ih =>
    rw [List.length_cons, bitsLE_succ]
    congr 1
    · cases b <;> simp [natOfBits]
    · have : natOfBits (b :: bs) / 2 = natOfBits bs := by cases b <;> simp [natOfBits]; omega
      rw [this, ih]

@[simp] theorem length_bitsOfByte (b : Byte) : (bitsOfByte b).length = 8 := by simp [bitsOfByte]

theorem byteOfBits_bitsOfByte (b : Byte) : byteOfBits (bitsOfByte b) = b := by
  apply BitVec.eq_of_toNat_eq
  have := b.isLt
  simp [byteOfBits, bitsOfByte, natOfBits_bitsLE]
  omega

theorem bitsOfByte_byteOfBits {bs : List Bool} (h : bs.length = 8) : bitsOfByte (byteOfBits bs) = bs := by
  have h1 := natOfBits_lt bs
  rw [h] at h1
  have h2 : (byteOfBits bs).toNat = natOfBits bs := by simp [byteOfBits]; omega
  rw [bitsOfByte, h2, ← h, bitsLE_natOfBits]

/-- Reading `w1` bits then `w2` is reading `w1 + w2` and splitting at `w1` (R65). -/
theorem natOfBits_append (xs ys : List Bool) :
    natOfBits (xs ++ ys) = natOfBits xs + 2 ^ xs.length * natOfBits ys := by
  induction xs with
  | nil => simp [natOfBits]
  | cons b xs ih => simp only [List.cons_append, natOfBits, ih, List.length_cons, pow_succ']; ring

theorem bitsLE_append (a b v : Nat) : bitsLE (a + b) v = bitsLE a v ++ bitsLE b (v / 2 ^ a) := by
  induction a generalizing v with
  | zero => simp
  | succ a ih =>
    rw [show a + 1 + b = (a + b) + 1 by omega, bitsLE_succ, ih, bitsLE_succ, Nat.div_div_eq_div_mul, pow_succ']
    rfl

/-- A field of more bits than the value has starts with the value's own bits. -/
theorem bitsLE_mod (w v : Nat) : bitsLE w (v % 2 ^ w) = bitsLE w v := by
  have h := bitsLE_natOfBits (bitsLE w v)
  rwa [length_bitsLE, natOfBits_bitsLE] at h

end Sys2Proof
end

