-- ==== Sys2Proof/Laws/Memory.lean ====
section
/-! SUPPORT. The laws of the canonical memories: read after write, what a write leaves alone, and that every operation
keeps the canonical form. -/

namespace Sys2Proof.Machine

variable {α : Type}

@[simp] theorem Memory.get_nil (a : Nat) : Memory.get ([] : Memory α) a = none := rfl

theorem Memory.wf_iff (m : Memory α) : Memory.wf m = true ↔ (m.map Prod.fst).Pairwise (· < ·) := by
  simp [Memory.wf]

/-- A write to an address is what a read of it then gives; every other address reads as before. -/
theorem Memory.get_set (m : Memory α) (a b : Nat) (v : α) :
    (m.set a v).get b = if a = b then some v else m.get b := by
  induction m with
  | nil => simp [Memory.set, Memory.get]
  | cons c m ih =>
    obtain ⟨k, w⟩ := c
    simp only [Memory.set]
    split
    · simp [Memory.get]
    · split
      · subst_vars
        simp only [Memory.get]
        split <;> simp_all
      · simp only [Memory.get, ih]
        split <;> split <;> simp_all

theorem Memory.get_set_self (m : Memory α) (a : Nat) (v : α) : (m.set a v).get a = some v := by
  simp [Memory.get_set]

theorem Memory.get_set_ne (m : Memory α) {a b : Nat} (h : a ≠ b) (v : α) : (m.set a v).get b = m.get b := by
  simp [Memory.get_set, h]

/-- The cells a write lists: the written one and old ones. -/
theorem Memory.mem_set {m : Memory α} {a : Nat} {v : α} {c : Nat × α} (h : c ∈ m.set a v) : c = (a, v) ∨ c ∈ m := by
  induction m with
  | nil => simpa [Memory.set] using h
  | cons d m ih =>
    obtain ⟨k, w⟩ := d
    simp only [Memory.set] at h
    grind

/-- A property of the cells of a list holds of the memory made of it. -/
theorem Memory.forall_ofList {P : Nat × α → Prop} {l : List (Nat × α)} (h : ∀ c ∈ l, P c) :
    ∀ c ∈ Memory.ofList l, P c := by
  induction l with
  | nil => exact h
  | cons d l ih =>
    intro c hc
    rcases Memory.mem_set hc with rfl | hc
    · exact h _ List.mem_cons_self
    · exact ih (fun c hc => h c (List.mem_cons_of_mem _ hc)) c hc

/-- What is listed under an address is a cell of the memory. -/
theorem Memory.mem_of_get {m : Memory α} {a : Nat} {v : α} (h : m.get a = some v) : (a, v) ∈ m := by
  induction m with
  | nil => simp at h
  | cons d m ih =>
    obtain ⟨k, w⟩ := d
    simp only [Memory.get] at h
    split at h
    · simp_all
    · exact List.mem_cons_of_mem _ (ih h)

theorem Memory.wf_set {m : Memory α} (h : m.wf = true) (a : Nat) (v : α) : (m.set a v).wf = true := by
  rw [Memory.wf_iff] at *
  induction m with
  | nil => simp [Memory.set]
  | cons d m ih =>
    obtain ⟨k, w⟩ := d
    simp only [List.map_cons, List.pairwise_cons] at h
    simp only [Memory.set]
    split
    · rename_i hk
      simp only [List.map_cons, List.pairwise_cons, List.mem_cons, forall_eq_or_imp]
      exact ⟨⟨hk, fun b hb => lt_trans hk (h.1 b hb)⟩, h.1, h.2⟩
    · split
      · subst_vars
        simpa using h
      · simp only [List.map_cons, List.pairwise_cons]
        refine ⟨fun b hb => ?_, ih h.2⟩
        obtain ⟨c, hc, rfl⟩ := List.mem_map.1 hb
        rcases Memory.mem_set hc with rfl | hd
        · simp only; omega
        · exact h.1 _ (List.mem_map_of_mem hd)

/-- A run of writes: the written addresses read as written, every other one as before. -/
theorem Memory.get_setFrom (vs : List α) (m : Memory α) (a b : Nat) :
    (m.setFrom a vs).get b = if a ≤ b ∧ b < a + vs.length then vs[b - a]? else m.get b := by
  induction vs generalizing m a with
  | nil => simp [Memory.setFrom]
  | cons v vs ih =>
    simp only [Memory.setFrom, ih, Memory.get_set, List.length_cons]
    by_cases h : a = b
    · subst h; simp
    · by_cases h2 : a ≤ b
      · obtain ⟨d, rfl⟩ := Nat.exists_eq_add_of_lt (lt_of_le_of_ne h2 h)
        have e1 : a + d + 1 - (a + 1) = d := by omega
        have e2 : a + d + 1 - a = d + 1 := by omega
        simp only [e1, e2, List.getElem?_cons_succ, if_neg h]
        by_cases h3 : d < vs.length
        · rw [if_pos (by omega), if_pos (by omega)]
        · rw [if_neg (by omega), if_neg (by omega)]
      · rw [if_neg (by omega), if_neg h, if_neg (by omega)]

theorem Memory.mem_setFrom {vs : List α} {m : Memory α} {a : Nat} {c : Nat × α} (h : c ∈ m.setFrom a vs) :
    (a ≤ c.1 ∧ c.1 < a + vs.length) ∨ ∃ d ∈ m, d.1 = c.1 := by
  induction vs generalizing m a with
  | nil => exact .inr ⟨c, h, rfl⟩
  | cons v vs ih =>
    rcases ih h with h1 | ⟨d, hd, h1⟩
    · left; simp only [List.length_cons]; omega
    · rcases Memory.mem_set hd with rfl | hd
      · left; simp only [List.length_cons]; simp only at h1; omega
      · exact .inr ⟨d, hd, h1⟩

theorem Memory.wf_setFrom {m : Memory α} (h : m.wf = true) (a : Nat) (vs : List α) : (m.setFrom a vs).wf = true := by
  induction vs generalizing m a with
  | nil => exact h
  | cons v vs ih => exact ih (Memory.wf_set h a v) (a + 1)

theorem Memory.wf_ofList (l : List (Nat × α)) : (Memory.ofList l).wf = true := by
  induction l with
  | nil => simp [Memory.ofList, Memory.wf]
  | cons c l ih => exact Memory.wf_set ih _ _

theorem Memory.wf_filter {m : Memory α} (h : m.wf = true) (f : Nat × α → Bool) :
    Memory.wf (m.filter f) = true := by
  rw [Memory.wf_iff] at *
  exact h.sublist (List.filter_sublist.map _)

/-- Keeping only address `a`: it reads as before, every other address is unlisted. -/
theorem Memory.get_filter (m : Memory α) (a b : Nat) :
    Memory.get (m.filter fun c => c.1 == a) b = if b = a then m.get b else none := by
  induction m with
  | nil => simp
  | cons c m ih =>
    obtain ⟨k, w⟩ := c
    by_cases h : k = a
    · rw [List.filter_cons_of_pos (by simp [h])]
      by_cases hb : k = b
      · simp [Memory.get, hb, ← h]
      · simp only [Memory.get, if_neg hb]
        exact ih
    · rw [List.filter_cons_of_neg (by simp [h]), ih]
      by_cases hb : b = a
      · have : k ≠ b := by omega
        simp [Memory.get, this]
      · simp [hb]

/-- Canonical memories that read alike are equal. -/
theorem Memory.ext_get {m m' : Memory α} (h : m.wf = true) (h' : m'.wf = true)
    (e : ∀ a, m.get a = m'.get a) : m = m' := by
  rw [Memory.wf_iff] at h h'
  have low : ∀ {l : Memory α} {k : Nat}, (∀ b ∈ l.map Prod.fst, k < b) → Memory.get l k = none := by
    intro l k hl
    induction l with
    | nil => rfl
    | cons c l ih =>
      obtain ⟨j, w⟩ := c
      simp only [List.map_cons, List.mem_cons, forall_eq_or_imp] at hl
      have : j ≠ k := by omega
      simp only [Memory.get, if_neg this]
      exact ih hl.2
  induction m generalizing m' with
  | nil =>
    cases m' with
    | nil => rfl
    | cons d m' => have := e d.1; simp [Memory.get] at this
  | cons c m ih =>
    obtain ⟨k, w⟩ := c
    cases m' with
    | nil => have := e k; simp [Memory.get] at this
    | cons d m' =>
      obtain ⟨j, v⟩ := d
      simp only [List.map_cons, List.pairwise_cons] at h h'
      have hk := e k
      have hj := e j
      simp only [Memory.get, if_true] at hk hj
      have hkj : j = k := by
        rcases Nat.lt_trichotomy j k with h1 | h1 | h1
        · rw [if_neg (by omega), low (fun b hb => h1.trans (h.1 b hb))] at hj; simp at hj
        · exact h1
        · rw [if_neg (by omega), low (fun b hb => h1.trans (h'.1 b hb))] at hk; simp at hk
      subst hkj
      simp only [if_true, Option.some.injEq] at hk
      subst hk
      congr 1
      refine ih h.2 h'.2 fun a => ?_
      by_cases ha : j = a
      · subst ha; rw [low h.1, low h'.1]
      · have := e a; simpa [Memory.get, ha] using this

end Sys2Proof.Machine
end

