-- ==== Sys2Proof/Laws/State.lean ====
section
/-! SUPPORT. One lemma per field of State per named update. -/

namespace Sys2Proof.Machine

@[simp] theorem State.setPhase_params (s : State) (p : Phase) : (s.setPhase p).params = s.params := rfl
@[simp] theorem State.setPhase_phase (s : State) (p : Phase) : (s.setPhase p).phase = p := rfl
@[simp] theorem State.setPhase_mode (s : State) (p : Phase) : (s.setPhase p).mode = s.mode := rfl
@[simp] theorem State.setPhase_nextCode (s : State) (p : Phase) : (s.setPhase p).nextCode = s.nextCode := rfl
@[simp] theorem State.setPhase_cur (s : State) (p : Phase) : (s.setPhase p).cur = s.cur := rfl
@[simp] theorem State.setPhase_prev (s : State) (p : Phase) : (s.setPhase p).prev = s.prev := rfl
@[simp] theorem State.setPhase_lastSym (s : State) (p : Phase) : (s.setPhase p).lastSym = s.lastSym := rfl
@[simp] theorem State.setPhase_pBits (s : State) (p : Phase) : (s.setPhase p).pBits = s.pBits := rfl
@[simp] theorem State.setPhase_pLen (s : State) (p : Phase) : (s.setPhase p).pLen = s.pLen := rfl
@[simp] theorem State.setPhase_sIdx (s : State) (p : Phase) : (s.setPhase p).sIdx = s.sIdx := rfl
@[simp] theorem State.setPhase_sLen (s : State) (p : Phase) : (s.setPhase p).sLen = s.sLen := rfl
@[simp] theorem State.setPhase_srcEos (s : State) (p : Phase) : (s.setPhase p).srcEos = s.srcEos := rfl
@[simp] theorem State.setPhase_child (s : State) (p : Phase) : (s.setPhase p).child = s.child := rfl
@[simp] theorem State.setPhase_wt (s : State) (p : Phase) : (s.setPhase p).wt = s.wt := rfl
@[simp] theorem State.setPhase_trunc (s : State) (p : Phase) : (s.setPhase p).trunc = s.trunc := rfl
@[simp] theorem State.setPhase_cause (s : State) (p : Phase) : (s.setPhase p).cause = s.cause := rfl
@[simp] theorem State.setPhase_info (s : State) (p : Phase) : (s.setPhase p).info = s.info := rfl
@[simp] theorem State.setPhase_bytesIn (s : State) (p : Phase) : (s.setPhase p).bytesIn = s.bytesIn := rfl
@[simp] theorem State.setPhase_bytesOut (s : State) (p : Phase) : (s.setPhase p).bytesOut = s.bytesOut := rfl
@[simp] theorem State.setPhase_symBuf (s : State) (p : Phase) : (s.setPhase p).symBuf = s.symBuf := rfl
@[simp] theorem State.setPhase_pairBuf (s : State) (p : Phase) : (s.setPhase p).pairBuf = s.pairBuf := rfl
@[simp] theorem State.setPhase_source (s : State) (p : Phase) : (s.setPhase p).source = s.source := rfl
@[simp] theorem State.setPhase_cuts (s : State) (p : Phase) : (s.setPhase p).cuts = s.cuts := rfl
@[simp] theorem State.setPhase_pulls (s : State) (p : Phase) : (s.setPhase p).pulls = s.pulls := rfl
@[simp] theorem State.setPhase_sink (s : State) (p : Phase) : (s.setPhase p).sink = s.sink := rfl
@[simp] theorem State.setPhase_moves (s : State) (p : Phase) : (s.setPhase p).moves = s.moves := rfl
@[simp] theorem State.setPhase_result (s : State) (p : Phase) : (s.setPhase p).result = s.result := rfl
@[simp] theorem State.setPhase_draws (s : State) (p : Phase) : (s.setPhase p).draws = s.draws := rfl

@[simp] theorem State.setMode_params (s : State) (m : Mode) : (s.setMode m).params = s.params := rfl
@[simp] theorem State.setMode_phase (s : State) (m : Mode) : (s.setMode m).phase = s.phase := rfl
@[simp] theorem State.setMode_mode (s : State) (m : Mode) : (s.setMode m).mode = m := rfl
@[simp] theorem State.setMode_nextCode (s : State) (m : Mode) : (s.setMode m).nextCode = s.nextCode := rfl
@[simp] theorem State.setMode_cur (s : State) (m : Mode) : (s.setMode m).cur = s.cur := rfl
@[simp] theorem State.setMode_prev (s : State) (m : Mode) : (s.setMode m).prev = s.prev := rfl
@[simp] theorem State.setMode_lastSym (s : State) (m : Mode) : (s.setMode m).lastSym = s.lastSym := rfl
@[simp] theorem State.setMode_pBits (s : State) (m : Mode) : (s.setMode m).pBits = s.pBits := rfl
@[simp] theorem State.setMode_pLen (s : State) (m : Mode) : (s.setMode m).pLen = s.pLen := rfl
@[simp] theorem State.setMode_sIdx (s : State) (m : Mode) : (s.setMode m).sIdx = s.sIdx := rfl
@[simp] theorem State.setMode_sLen (s : State) (m : Mode) : (s.setMode m).sLen = s.sLen := rfl
@[simp] theorem State.setMode_srcEos (s : State) (m : Mode) : (s.setMode m).srcEos = s.srcEos := rfl
@[simp] theorem State.setMode_child (s : State) (m : Mode) : (s.setMode m).child = s.child := rfl
@[simp] theorem State.setMode_wt (s : State) (m : Mode) : (s.setMode m).wt = s.wt := rfl
@[simp] theorem State.setMode_trunc (s : State) (m : Mode) : (s.setMode m).trunc = s.trunc := rfl
@[simp] theorem State.setMode_cause (s : State) (m : Mode) : (s.setMode m).cause = s.cause := rfl
@[simp] theorem State.setMode_info (s : State) (m : Mode) : (s.setMode m).info = s.info := rfl
@[simp] theorem State.setMode_bytesIn (s : State) (m : Mode) : (s.setMode m).bytesIn = s.bytesIn := rfl
@[simp] theorem State.setMode_bytesOut (s : State) (m : Mode) : (s.setMode m).bytesOut = s.bytesOut := rfl
@[simp] theorem State.setMode_symBuf (s : State) (m : Mode) : (s.setMode m).symBuf = s.symBuf := rfl
@[simp] theorem State.setMode_pairBuf (s : State) (m : Mode) : (s.setMode m).pairBuf = s.pairBuf := rfl
@[simp] theorem State.setMode_source (s : State) (m : Mode) : (s.setMode m).source = s.source := rfl
@[simp] theorem State.setMode_cuts (s : State) (m : Mode) : (s.setMode m).cuts = s.cuts := rfl
@[simp] theorem State.setMode_pulls (s : State) (m : Mode) : (s.setMode m).pulls = s.pulls := rfl
@[simp] theorem State.setMode_sink (s : State) (m : Mode) : (s.setMode m).sink = s.sink := rfl
@[simp] theorem State.setMode_moves (s : State) (m : Mode) : (s.setMode m).moves = s.moves := rfl
@[simp] theorem State.setMode_result (s : State) (m : Mode) : (s.setMode m).result = s.result := rfl
@[simp] theorem State.setMode_draws (s : State) (m : Mode) : (s.setMode m).draws = s.draws := rfl

@[simp] theorem State.setNextCode_params (s : State) (c : Nat) : (s.setNextCode c).params = s.params := rfl
@[simp] theorem State.setNextCode_phase (s : State) (c : Nat) : (s.setNextCode c).phase = s.phase := rfl
@[simp] theorem State.setNextCode_mode (s : State) (c : Nat) : (s.setNextCode c).mode = s.mode := rfl
@[simp] theorem State.setNextCode_nextCode (s : State) (c : Nat) : (s.setNextCode c).nextCode = c := rfl
@[simp] theorem State.setNextCode_cur (s : State) (c : Nat) : (s.setNextCode c).cur = s.cur := rfl
@[simp] theorem State.setNextCode_prev (s : State) (c : Nat) : (s.setNextCode c).prev = s.prev := rfl
@[simp] theorem State.setNextCode_lastSym (s : State) (c : Nat) : (s.setNextCode c).lastSym = s.lastSym := rfl
@[simp] theorem State.setNextCode_pBits (s : State) (c : Nat) : (s.setNextCode c).pBits = s.pBits := rfl
@[simp] theorem State.setNextCode_pLen (s : State) (c : Nat) : (s.setNextCode c).pLen = s.pLen := rfl
@[simp] theorem State.setNextCode_sIdx (s : State) (c : Nat) : (s.setNextCode c).sIdx = s.sIdx := rfl
@[simp] theorem State.setNextCode_sLen (s : State) (c : Nat) : (s.setNextCode c).sLen = s.sLen := rfl
@[simp] theorem State.setNextCode_srcEos (s : State) (c : Nat) : (s.setNextCode c).srcEos = s.srcEos := rfl
@[simp] theorem State.setNextCode_child (s : State) (c : Nat) : (s.setNextCode c).child = s.child := rfl
@[simp] theorem State.setNextCode_wt (s : State) (c : Nat) : (s.setNextCode c).wt = s.wt := rfl
@[simp] theorem State.setNextCode_trunc (s : State) (c : Nat) : (s.setNextCode c).trunc = s.trunc := rfl
@[simp] theorem State.setNextCode_cause (s : State) (c : Nat) : (s.setNextCode c).cause = s.cause := rfl
@[simp] theorem State.setNextCode_info (s : State) (c : Nat) : (s.setNextCode c).info = s.info := rfl
@[simp] theorem State.setNextCode_bytesIn (s : State) (c : Nat) : (s.setNextCode c).bytesIn = s.bytesIn := rfl
@[simp] theorem State.setNextCode_bytesOut (s : State) (c : Nat) : (s.setNextCode c).bytesOut = s.bytesOut := rfl
@[simp] theorem State.setNextCode_symBuf (s : State) (c : Nat) : (s.setNextCode c).symBuf = s.symBuf := rfl
@[simp] theorem State.setNextCode_pairBuf (s : State) (c : Nat) : (s.setNextCode c).pairBuf = s.pairBuf := rfl
@[simp] theorem State.setNextCode_source (s : State) (c : Nat) : (s.setNextCode c).source = s.source := rfl
@[simp] theorem State.setNextCode_cuts (s : State) (c : Nat) : (s.setNextCode c).cuts = s.cuts := rfl
@[simp] theorem State.setNextCode_pulls (s : State) (c : Nat) : (s.setNextCode c).pulls = s.pulls := rfl
@[simp] theorem State.setNextCode_sink (s : State) (c : Nat) : (s.setNextCode c).sink = s.sink := rfl
@[simp] theorem State.setNextCode_moves (s : State) (c : Nat) : (s.setNextCode c).moves = s.moves := rfl
@[simp] theorem State.setNextCode_result (s : State) (c : Nat) : (s.setNextCode c).result = s.result := rfl
@[simp] theorem State.setNextCode_draws (s : State) (c : Nat) : (s.setNextCode c).draws = s.draws := rfl

@[simp] theorem State.setCur_params (s : State) (c : Nat) : (s.setCur c).params = s.params := rfl
@[simp] theorem State.setCur_phase (s : State) (c : Nat) : (s.setCur c).phase = s.phase := rfl
@[simp] theorem State.setCur_mode (s : State) (c : Nat) : (s.setCur c).mode = s.mode := rfl
@[simp] theorem State.setCur_nextCode (s : State) (c : Nat) : (s.setCur c).nextCode = s.nextCode := rfl
@[simp] theorem State.setCur_cur (s : State) (c : Nat) : (s.setCur c).cur = c := rfl
@[simp] theorem State.setCur_prev (s : State) (c : Nat) : (s.setCur c).prev = s.prev := rfl
@[simp] theorem State.setCur_lastSym (s : State) (c : Nat) : (s.setCur c).lastSym = s.lastSym := rfl
@[simp] theorem State.setCur_pBits (s : State) (c : Nat) : (s.setCur c).pBits = s.pBits := rfl
@[simp] theorem State.setCur_pLen (s : State) (c : Nat) : (s.setCur c).pLen = s.pLen := rfl
@[simp] theorem State.setCur_sIdx (s : State) (c : Nat) : (s.setCur c).sIdx = s.sIdx := rfl
@[simp] theorem State.setCur_sLen (s : State) (c : Nat) : (s.setCur c).sLen = s.sLen := rfl
@[simp] theorem State.setCur_srcEos (s : State) (c : Nat) : (s.setCur c).srcEos = s.srcEos := rfl
@[simp] theorem State.setCur_child (s : State) (c : Nat) : (s.setCur c).child = s.child := rfl
@[simp] theorem State.setCur_wt (s : State) (c : Nat) : (s.setCur c).wt = s.wt := rfl
@[simp] theorem State.setCur_trunc (s : State) (c : Nat) : (s.setCur c).trunc = s.trunc := rfl
@[simp] theorem State.setCur_cause (s : State) (c : Nat) : (s.setCur c).cause = s.cause := rfl
@[simp] theorem State.setCur_info (s : State) (c : Nat) : (s.setCur c).info = s.info := rfl
@[simp] theorem State.setCur_bytesIn (s : State) (c : Nat) : (s.setCur c).bytesIn = s.bytesIn := rfl
@[simp] theorem State.setCur_bytesOut (s : State) (c : Nat) : (s.setCur c).bytesOut = s.bytesOut := rfl
@[simp] theorem State.setCur_symBuf (s : State) (c : Nat) : (s.setCur c).symBuf = s.symBuf := rfl
@[simp] theorem State.setCur_pairBuf (s : State) (c : Nat) : (s.setCur c).pairBuf = s.pairBuf := rfl
@[simp] theorem State.setCur_source (s : State) (c : Nat) : (s.setCur c).source = s.source := rfl
@[simp] theorem State.setCur_cuts (s : State) (c : Nat) : (s.setCur c).cuts = s.cuts := rfl
@[simp] theorem State.setCur_pulls (s : State) (c : Nat) : (s.setCur c).pulls = s.pulls := rfl
@[simp] theorem State.setCur_sink (s : State) (c : Nat) : (s.setCur c).sink = s.sink := rfl
@[simp] theorem State.setCur_moves (s : State) (c : Nat) : (s.setCur c).moves = s.moves := rfl
@[simp] theorem State.setCur_result (s : State) (c : Nat) : (s.setCur c).result = s.result := rfl
@[simp] theorem State.setCur_draws (s : State) (c : Nat) : (s.setCur c).draws = s.draws := rfl

@[simp] theorem State.setPrev_params (s : State) (c : Nat) : (s.setPrev c).params = s.params := rfl
@[simp] theorem State.setPrev_phase (s : State) (c : Nat) : (s.setPrev c).phase = s.phase := rfl
@[simp] theorem State.setPrev_mode (s : State) (c : Nat) : (s.setPrev c).mode = s.mode := rfl
@[simp] theorem State.setPrev_nextCode (s : State) (c : Nat) : (s.setPrev c).nextCode = s.nextCode := rfl
@[simp] theorem State.setPrev_cur (s : State) (c : Nat) : (s.setPrev c).cur = s.cur := rfl
@[simp] theorem State.setPrev_prev (s : State) (c : Nat) : (s.setPrev c).prev = c := rfl
@[simp] theorem State.setPrev_lastSym (s : State) (c : Nat) : (s.setPrev c).lastSym = s.lastSym := rfl
@[simp] theorem State.setPrev_pBits (s : State) (c : Nat) : (s.setPrev c).pBits = s.pBits := rfl
@[simp] theorem State.setPrev_pLen (s : State) (c : Nat) : (s.setPrev c).pLen = s.pLen := rfl
@[simp] theorem State.setPrev_sIdx (s : State) (c : Nat) : (s.setPrev c).sIdx = s.sIdx := rfl
@[simp] theorem State.setPrev_sLen (s : State) (c : Nat) : (s.setPrev c).sLen = s.sLen := rfl
@[simp] theorem State.setPrev_srcEos (s : State) (c : Nat) : (s.setPrev c).srcEos = s.srcEos := rfl
@[simp] theorem State.setPrev_child (s : State) (c : Nat) : (s.setPrev c).child = s.child := rfl
@[simp] theorem State.setPrev_wt (s : State) (c : Nat) : (s.setPrev c).wt = s.wt := rfl
@[simp] theorem State.setPrev_trunc (s : State) (c : Nat) : (s.setPrev c).trunc = s.trunc := rfl
@[simp] theorem State.setPrev_cause (s : State) (c : Nat) : (s.setPrev c).cause = s.cause := rfl
@[simp] theorem State.setPrev_info (s : State) (c : Nat) : (s.setPrev c).info = s.info := rfl
@[simp] theorem State.setPrev_bytesIn (s : State) (c : Nat) : (s.setPrev c).bytesIn = s.bytesIn := rfl
@[simp] theorem State.setPrev_bytesOut (s : State) (c : Nat) : (s.setPrev c).bytesOut = s.bytesOut := rfl
@[simp] theorem State.setPrev_symBuf (s : State) (c : Nat) : (s.setPrev c).symBuf = s.symBuf := rfl
@[simp] theorem State.setPrev_pairBuf (s : State) (c : Nat) : (s.setPrev c).pairBuf = s.pairBuf := rfl
@[simp] theorem State.setPrev_source (s : State) (c : Nat) : (s.setPrev c).source = s.source := rfl
@[simp] theorem State.setPrev_cuts (s : State) (c : Nat) : (s.setPrev c).cuts = s.cuts := rfl
@[simp] theorem State.setPrev_pulls (s : State) (c : Nat) : (s.setPrev c).pulls = s.pulls := rfl
@[simp] theorem State.setPrev_sink (s : State) (c : Nat) : (s.setPrev c).sink = s.sink := rfl
@[simp] theorem State.setPrev_moves (s : State) (c : Nat) : (s.setPrev c).moves = s.moves := rfl
@[simp] theorem State.setPrev_result (s : State) (c : Nat) : (s.setPrev c).result = s.result := rfl
@[simp] theorem State.setPrev_draws (s : State) (c : Nat) : (s.setPrev c).draws = s.draws := rfl

@[simp] theorem State.setLastSym_params (s : State) (x : Symbol) : (s.setLastSym x).params = s.params := rfl
@[simp] theorem State.setLastSym_phase (s : State) (x : Symbol) : (s.setLastSym x).phase = s.phase := rfl
@[simp] theorem State.setLastSym_mode (s : State) (x : Symbol) : (s.setLastSym x).mode = s.mode := rfl
@[simp] theorem State.setLastSym_nextCode (s : State) (x : Symbol) : (s.setLastSym x).nextCode = s.nextCode := rfl
@[simp] theorem State.setLastSym_cur (s : State) (x : Symbol) : (s.setLastSym x).cur = s.cur := rfl
@[simp] theorem State.setLastSym_prev (s : State) (x : Symbol) : (s.setLastSym x).prev = s.prev := rfl
@[simp] theorem State.setLastSym_lastSym (s : State) (x : Symbol) : (s.setLastSym x).lastSym = x := rfl
@[simp] theorem State.setLastSym_pBits (s : State) (x : Symbol) : (s.setLastSym x).pBits = s.pBits := rfl
@[simp] theorem State.setLastSym_pLen (s : State) (x : Symbol) : (s.setLastSym x).pLen = s.pLen := rfl
@[simp] theorem State.setLastSym_sIdx (s : State) (x : Symbol) : (s.setLastSym x).sIdx = s.sIdx := rfl
@[simp] theorem State.setLastSym_sLen (s : State) (x : Symbol) : (s.setLastSym x).sLen = s.sLen := rfl
@[simp] theorem State.setLastSym_srcEos (s : State) (x : Symbol) : (s.setLastSym x).srcEos = s.srcEos := rfl
@[simp] theorem State.setLastSym_child (s : State) (x : Symbol) : (s.setLastSym x).child = s.child := rfl
@[simp] theorem State.setLastSym_wt (s : State) (x : Symbol) : (s.setLastSym x).wt = s.wt := rfl
@[simp] theorem State.setLastSym_trunc (s : State) (x : Symbol) : (s.setLastSym x).trunc = s.trunc := rfl
@[simp] theorem State.setLastSym_cause (s : State) (x : Symbol) : (s.setLastSym x).cause = s.cause := rfl
@[simp] theorem State.setLastSym_info (s : State) (x : Symbol) : (s.setLastSym x).info = s.info := rfl
@[simp] theorem State.setLastSym_bytesIn (s : State) (x : Symbol) : (s.setLastSym x).bytesIn = s.bytesIn := rfl
@[simp] theorem State.setLastSym_bytesOut (s : State) (x : Symbol) : (s.setLastSym x).bytesOut = s.bytesOut := rfl
@[simp] theorem State.setLastSym_symBuf (s : State) (x : Symbol) : (s.setLastSym x).symBuf = s.symBuf := rfl
@[simp] theorem State.setLastSym_pairBuf (s : State) (x : Symbol) : (s.setLastSym x).pairBuf = s.pairBuf := rfl
@[simp] theorem State.setLastSym_source (s : State) (x : Symbol) : (s.setLastSym x).source = s.source := rfl
@[simp] theorem State.setLastSym_cuts (s : State) (x : Symbol) : (s.setLastSym x).cuts = s.cuts := rfl
@[simp] theorem State.setLastSym_pulls (s : State) (x : Symbol) : (s.setLastSym x).pulls = s.pulls := rfl
@[simp] theorem State.setLastSym_sink (s : State) (x : Symbol) : (s.setLastSym x).sink = s.sink := rfl
@[simp] theorem State.setLastSym_moves (s : State) (x : Symbol) : (s.setLastSym x).moves = s.moves := rfl
@[simp] theorem State.setLastSym_result (s : State) (x : Symbol) : (s.setLastSym x).result = s.result := rfl
@[simp] theorem State.setLastSym_draws (s : State) (x : Symbol) : (s.setLastSym x).draws = s.draws := rfl

@[simp] theorem State.setPBits_params (s : State) (n : Nat) : (s.setPBits n).params = s.params := rfl
@[simp] theorem State.setPBits_phase (s : State) (n : Nat) : (s.setPBits n).phase = s.phase := rfl
@[simp] theorem State.setPBits_mode (s : State) (n : Nat) : (s.setPBits n).mode = s.mode := rfl
@[simp] theorem State.setPBits_nextCode (s : State) (n : Nat) : (s.setPBits n).nextCode = s.nextCode := rfl
@[simp] theorem State.setPBits_cur (s : State) (n : Nat) : (s.setPBits n).cur = s.cur := rfl
@[simp] theorem State.setPBits_prev (s : State) (n : Nat) : (s.setPBits n).prev = s.prev := rfl
@[simp] theorem State.setPBits_lastSym (s : State) (n : Nat) : (s.setPBits n).lastSym = s.lastSym := rfl
@[simp] theorem State.setPBits_pBits (s : State) (n : Nat) : (s.setPBits n).pBits = n := rfl
@[simp] theorem State.setPBits_pLen (s : State) (n : Nat) : (s.setPBits n).pLen = s.pLen := rfl
@[simp] theorem State.setPBits_sIdx (s : State) (n : Nat) : (s.setPBits n).sIdx = s.sIdx := rfl
@[simp] theorem State.setPBits_sLen (s : State) (n : Nat) : (s.setPBits n).sLen = s.sLen := rfl
@[simp] theorem State.setPBits_srcEos (s : State) (n : Nat) : (s.setPBits n).srcEos = s.srcEos := rfl
@[simp] theorem State.setPBits_child (s : State) (n : Nat) : (s.setPBits n).child = s.child := rfl
@[simp] theorem State.setPBits_wt (s : State) (n : Nat) : (s.setPBits n).wt = s.wt := rfl
@[simp] theorem State.setPBits_trunc (s : State) (n : Nat) : (s.setPBits n).trunc = s.trunc := rfl
@[simp] theorem State.setPBits_cause (s : State) (n : Nat) : (s.setPBits n).cause = s.cause := rfl
@[simp] theorem State.setPBits_info (s : State) (n : Nat) : (s.setPBits n).info = s.info := rfl
@[simp] theorem State.setPBits_bytesIn (s : State) (n : Nat) : (s.setPBits n).bytesIn = s.bytesIn := rfl
@[simp] theorem State.setPBits_bytesOut (s : State) (n : Nat) : (s.setPBits n).bytesOut = s.bytesOut := rfl
@[simp] theorem State.setPBits_symBuf (s : State) (n : Nat) : (s.setPBits n).symBuf = s.symBuf := rfl
@[simp] theorem State.setPBits_pairBuf (s : State) (n : Nat) : (s.setPBits n).pairBuf = s.pairBuf := rfl
@[simp] theorem State.setPBits_source (s : State) (n : Nat) : (s.setPBits n).source = s.source := rfl
@[simp] theorem State.setPBits_cuts (s : State) (n : Nat) : (s.setPBits n).cuts = s.cuts := rfl
@[simp] theorem State.setPBits_pulls (s : State) (n : Nat) : (s.setPBits n).pulls = s.pulls := rfl
@[simp] theorem State.setPBits_sink (s : State) (n : Nat) : (s.setPBits n).sink = s.sink := rfl
@[simp] theorem State.setPBits_moves (s : State) (n : Nat) : (s.setPBits n).moves = s.moves := rfl
@[simp] theorem State.setPBits_result (s : State) (n : Nat) : (s.setPBits n).result = s.result := rfl
@[simp] theorem State.setPBits_draws (s : State) (n : Nat) : (s.setPBits n).draws = s.draws := rfl

@[simp] theorem State.setPLen_params (s : State) (n : Nat) : (s.setPLen n).params = s.params := rfl
@[simp] theorem State.setPLen_phase (s : State) (n : Nat) : (s.setPLen n).phase = s.phase := rfl
@[simp] theorem State.setPLen_mode (s : State) (n : Nat) : (s.setPLen n).mode = s.mode := rfl
@[simp] theorem State.setPLen_nextCode (s : State) (n : Nat) : (s.setPLen n).nextCode = s.nextCode := rfl
@[simp] theorem State.setPLen_cur (s : State) (n : Nat) : (s.setPLen n).cur = s.cur := rfl
@[simp] theorem State.setPLen_prev (s : State) (n : Nat) : (s.setPLen n).prev = s.prev := rfl
@[simp] theorem State.setPLen_lastSym (s : State) (n : Nat) : (s.setPLen n).lastSym = s.lastSym := rfl
@[simp] theorem State.setPLen_pBits (s : State) (n : Nat) : (s.setPLen n).pBits = s.pBits := rfl
@[simp] theorem State.setPLen_pLen (s : State) (n : Nat) : (s.setPLen n).pLen = n := rfl
@[simp] theorem State.setPLen_sIdx (s : State) (n : Nat) : (s.setPLen n).sIdx = s.sIdx := rfl
@[simp] theorem State.setPLen_sLen (s : State) (n : Nat) : (s.setPLen n).sLen = s.sLen := rfl
@[simp] theorem State.setPLen_srcEos (s : State) (n : Nat) : (s.setPLen n).srcEos = s.srcEos := rfl
@[simp] theorem State.setPLen_child (s : State) (n : Nat) : (s.setPLen n).child = s.child := rfl
@[simp] theorem State.setPLen_wt (s : State) (n : Nat) : (s.setPLen n).wt = s.wt := rfl
@[simp] theorem State.setPLen_trunc (s : State) (n : Nat) : (s.setPLen n).trunc = s.trunc := rfl
@[simp] theorem State.setPLen_cause (s : State) (n : Nat) : (s.setPLen n).cause = s.cause := rfl
@[simp] theorem State.setPLen_info (s : State) (n : Nat) : (s.setPLen n).info = s.info := rfl
@[simp] theorem State.setPLen_bytesIn (s : State) (n : Nat) : (s.setPLen n).bytesIn = s.bytesIn := rfl
@[simp] theorem State.setPLen_bytesOut (s : State) (n : Nat) : (s.setPLen n).bytesOut = s.bytesOut := rfl
@[simp] theorem State.setPLen_symBuf (s : State) (n : Nat) : (s.setPLen n).symBuf = s.symBuf := rfl
@[simp] theorem State.setPLen_pairBuf (s : State) (n : Nat) : (s.setPLen n).pairBuf = s.pairBuf := rfl
@[simp] theorem State.setPLen_source (s : State) (n : Nat) : (s.setPLen n).source = s.source := rfl
@[simp] theorem State.setPLen_cuts (s : State) (n : Nat) : (s.setPLen n).cuts = s.cuts := rfl
@[simp] theorem State.setPLen_pulls (s : State) (n : Nat) : (s.setPLen n).pulls = s.pulls := rfl
@[simp] theorem State.setPLen_sink (s : State) (n : Nat) : (s.setPLen n).sink = s.sink := rfl
@[simp] theorem State.setPLen_moves (s : State) (n : Nat) : (s.setPLen n).moves = s.moves := rfl
@[simp] theorem State.setPLen_result (s : State) (n : Nat) : (s.setPLen n).result = s.result := rfl
@[simp] theorem State.setPLen_draws (s : State) (n : Nat) : (s.setPLen n).draws = s.draws := rfl

@[simp] theorem State.setSIdx_params (s : State) (n : Nat) : (s.setSIdx n).params = s.params := rfl
@[simp] theorem State.setSIdx_phase (s : State) (n : Nat) : (s.setSIdx n).phase = s.phase := rfl
@[simp] theorem State.setSIdx_mode (s : State) (n : Nat) : (s.setSIdx n).mode = s.mode := rfl
@[simp] theorem State.setSIdx_nextCode (s : State) (n : Nat) : (s.setSIdx n).nextCode = s.nextCode := rfl
@[simp] theorem State.setSIdx_cur (s : State) (n : Nat) : (s.setSIdx n).cur = s.cur := rfl
@[simp] theorem State.setSIdx_prev (s : State) (n : Nat) : (s.setSIdx n).prev = s.prev := rfl
@[simp] theorem State.setSIdx_lastSym (s : State) (n : Nat) : (s.setSIdx n).lastSym = s.lastSym := rfl
@[simp] theorem State.setSIdx_pBits (s : State) (n : Nat) : (s.setSIdx n).pBits = s.pBits := rfl
@[simp] theorem State.setSIdx_pLen (s : State) (n : Nat) : (s.setSIdx n).pLen = s.pLen := rfl
@[simp] theorem State.setSIdx_sIdx (s : State) (n : Nat) : (s.setSIdx n).sIdx = n := rfl
@[simp] theorem State.setSIdx_sLen (s : State) (n : Nat) : (s.setSIdx n).sLen = s.sLen := rfl
@[simp] theorem State.setSIdx_srcEos (s : State) (n : Nat) : (s.setSIdx n).srcEos = s.srcEos := rfl
@[simp] theorem State.setSIdx_child (s : State) (n : Nat) : (s.setSIdx n).child = s.child := rfl
@[simp] theorem State.setSIdx_wt (s : State) (n : Nat) : (s.setSIdx n).wt = s.wt := rfl
@[simp] theorem State.setSIdx_trunc (s : State) (n : Nat) : (s.setSIdx n).trunc = s.trunc := rfl
@[simp] theorem State.setSIdx_cause (s : State) (n : Nat) : (s.setSIdx n).cause = s.cause := rfl
@[simp] theorem State.setSIdx_info (s : State) (n : Nat) : (s.setSIdx n).info = s.info := rfl
@[simp] theorem State.setSIdx_bytesIn (s : State) (n : Nat) : (s.setSIdx n).bytesIn = s.bytesIn := rfl
@[simp] theorem State.setSIdx_bytesOut (s : State) (n : Nat) : (s.setSIdx n).bytesOut = s.bytesOut := rfl
@[simp] theorem State.setSIdx_symBuf (s : State) (n : Nat) : (s.setSIdx n).symBuf = s.symBuf := rfl
@[simp] theorem State.setSIdx_pairBuf (s : State) (n : Nat) : (s.setSIdx n).pairBuf = s.pairBuf := rfl
@[simp] theorem State.setSIdx_source (s : State) (n : Nat) : (s.setSIdx n).source = s.source := rfl
@[simp] theorem State.setSIdx_cuts (s : State) (n : Nat) : (s.setSIdx n).cuts = s.cuts := rfl
@[simp] theorem State.setSIdx_pulls (s : State) (n : Nat) : (s.setSIdx n).pulls = s.pulls := rfl
@[simp] theorem State.setSIdx_sink (s : State) (n : Nat) : (s.setSIdx n).sink = s.sink := rfl
@[simp] theorem State.setSIdx_moves (s : State) (n : Nat) : (s.setSIdx n).moves = s.moves := rfl
@[simp] theorem State.setSIdx_result (s : State) (n : Nat) : (s.setSIdx n).result = s.result := rfl
@[simp] theorem State.setSIdx_draws (s : State) (n : Nat) : (s.setSIdx n).draws = s.draws := rfl

@[simp] theorem State.setSLen_params (s : State) (n : Nat) : (s.setSLen n).params = s.params := rfl
@[simp] theorem State.setSLen_phase (s : State) (n : Nat) : (s.setSLen n).phase = s.phase := rfl
@[simp] theorem State.setSLen_mode (s : State) (n : Nat) : (s.setSLen n).mode = s.mode := rfl
@[simp] theorem State.setSLen_nextCode (s : State) (n : Nat) : (s.setSLen n).nextCode = s.nextCode := rfl
@[simp] theorem State.setSLen_cur (s : State) (n : Nat) : (s.setSLen n).cur = s.cur := rfl
@[simp] theorem State.setSLen_prev (s : State) (n : Nat) : (s.setSLen n).prev = s.prev := rfl
@[simp] theorem State.setSLen_lastSym (s : State) (n : Nat) : (s.setSLen n).lastSym = s.lastSym := rfl
@[simp] theorem State.setSLen_pBits (s : State) (n : Nat) : (s.setSLen n).pBits = s.pBits := rfl
@[simp] theorem State.setSLen_pLen (s : State) (n : Nat) : (s.setSLen n).pLen = s.pLen := rfl
@[simp] theorem State.setSLen_sIdx (s : State) (n : Nat) : (s.setSLen n).sIdx = s.sIdx := rfl
@[simp] theorem State.setSLen_sLen (s : State) (n : Nat) : (s.setSLen n).sLen = n := rfl
@[simp] theorem State.setSLen_srcEos (s : State) (n : Nat) : (s.setSLen n).srcEos = s.srcEos := rfl
@[simp] theorem State.setSLen_child (s : State) (n : Nat) : (s.setSLen n).child = s.child := rfl
@[simp] theorem State.setSLen_wt (s : State) (n : Nat) : (s.setSLen n).wt = s.wt := rfl
@[simp] theorem State.setSLen_trunc (s : State) (n : Nat) : (s.setSLen n).trunc = s.trunc := rfl
@[simp] theorem State.setSLen_cause (s : State) (n : Nat) : (s.setSLen n).cause = s.cause := rfl
@[simp] theorem State.setSLen_info (s : State) (n : Nat) : (s.setSLen n).info = s.info := rfl
@[simp] theorem State.setSLen_bytesIn (s : State) (n : Nat) : (s.setSLen n).bytesIn = s.bytesIn := rfl
@[simp] theorem State.setSLen_bytesOut (s : State) (n : Nat) : (s.setSLen n).bytesOut = s.bytesOut := rfl
@[simp] theorem State.setSLen_symBuf (s : State) (n : Nat) : (s.setSLen n).symBuf = s.symBuf := rfl
@[simp] theorem State.setSLen_pairBuf (s : State) (n : Nat) : (s.setSLen n).pairBuf = s.pairBuf := rfl
@[simp] theorem State.setSLen_source (s : State) (n : Nat) : (s.setSLen n).source = s.source := rfl
@[simp] theorem State.setSLen_cuts (s : State) (n : Nat) : (s.setSLen n).cuts = s.cuts := rfl
@[simp] theorem State.setSLen_pulls (s : State) (n : Nat) : (s.setSLen n).pulls = s.pulls := rfl
@[simp] theorem State.setSLen_sink (s : State) (n : Nat) : (s.setSLen n).sink = s.sink := rfl
@[simp] theorem State.setSLen_moves (s : State) (n : Nat) : (s.setSLen n).moves = s.moves := rfl
@[simp] theorem State.setSLen_result (s : State) (n : Nat) : (s.setSLen n).result = s.result := rfl
@[simp] theorem State.setSLen_draws (s : State) (n : Nat) : (s.setSLen n).draws = s.draws := rfl

@[simp] theorem State.setSrcEos_params (s : State) (b : Bool) : (s.setSrcEos b).params = s.params := rfl
@[simp] theorem State.setSrcEos_phase (s : State) (b : Bool) : (s.setSrcEos b).phase = s.phase := rfl
@[simp] theorem State.setSrcEos_mode (s : State) (b : Bool) : (s.setSrcEos b).mode = s.mode := rfl
@[simp] theorem State.setSrcEos_nextCode (s : State) (b : Bool) : (s.setSrcEos b).nextCode = s.nextCode := rfl
@[simp] theorem State.setSrcEos_cur (s : State) (b : Bool) : (s.setSrcEos b).cur = s.cur := rfl
@[simp] theorem State.setSrcEos_prev (s : State) (b : Bool) : (s.setSrcEos b).prev = s.prev := rfl
@[simp] theorem State.setSrcEos_lastSym (s : State) (b : Bool) : (s.setSrcEos b).lastSym = s.lastSym := rfl
@[simp] theorem State.setSrcEos_pBits (s : State) (b : Bool) : (s.setSrcEos b).pBits = s.pBits := rfl
@[simp] theorem State.setSrcEos_pLen (s : State) (b : Bool) : (s.setSrcEos b).pLen = s.pLen := rfl
@[simp] theorem State.setSrcEos_sIdx (s : State) (b : Bool) : (s.setSrcEos b).sIdx = s.sIdx := rfl
@[simp] theorem State.setSrcEos_sLen (s : State) (b : Bool) : (s.setSrcEos b).sLen = s.sLen := rfl
@[simp] theorem State.setSrcEos_srcEos (s : State) (b : Bool) : (s.setSrcEos b).srcEos = b := rfl
@[simp] theorem State.setSrcEos_child (s : State) (b : Bool) : (s.setSrcEos b).child = s.child := rfl
@[simp] theorem State.setSrcEos_wt (s : State) (b : Bool) : (s.setSrcEos b).wt = s.wt := rfl
@[simp] theorem State.setSrcEos_trunc (s : State) (b : Bool) : (s.setSrcEos b).trunc = s.trunc := rfl
@[simp] theorem State.setSrcEos_cause (s : State) (b : Bool) : (s.setSrcEos b).cause = s.cause := rfl
@[simp] theorem State.setSrcEos_info (s : State) (b : Bool) : (s.setSrcEos b).info = s.info := rfl
@[simp] theorem State.setSrcEos_bytesIn (s : State) (b : Bool) : (s.setSrcEos b).bytesIn = s.bytesIn := rfl
@[simp] theorem State.setSrcEos_bytesOut (s : State) (b : Bool) : (s.setSrcEos b).bytesOut = s.bytesOut := rfl
@[simp] theorem State.setSrcEos_symBuf (s : State) (b : Bool) : (s.setSrcEos b).symBuf = s.symBuf := rfl
@[simp] theorem State.setSrcEos_pairBuf (s : State) (b : Bool) : (s.setSrcEos b).pairBuf = s.pairBuf := rfl
@[simp] theorem State.setSrcEos_source (s : State) (b : Bool) : (s.setSrcEos b).source = s.source := rfl
@[simp] theorem State.setSrcEos_cuts (s : State) (b : Bool) : (s.setSrcEos b).cuts = s.cuts := rfl
@[simp] theorem State.setSrcEos_pulls (s : State) (b : Bool) : (s.setSrcEos b).pulls = s.pulls := rfl
@[simp] theorem State.setSrcEos_sink (s : State) (b : Bool) : (s.setSrcEos b).sink = s.sink := rfl
@[simp] theorem State.setSrcEos_moves (s : State) (b : Bool) : (s.setSrcEos b).moves = s.moves := rfl
@[simp] theorem State.setSrcEos_result (s : State) (b : Bool) : (s.setSrcEos b).result = s.result := rfl
@[simp] theorem State.setSrcEos_draws (s : State) (b : Bool) : (s.setSrcEos b).draws = s.draws := rfl

@[simp] theorem State.setChild_params (s : State) (m : Memory Nat) : (s.setChild m).params = s.params := rfl
@[simp] theorem State.setChild_phase (s : State) (m : Memory Nat) : (s.setChild m).phase = s.phase := rfl
@[simp] theorem State.setChild_mode (s : State) (m : Memory Nat) : (s.setChild m).mode = s.mode := rfl
@[simp] theorem State.setChild_nextCode (s : State) (m : Memory Nat) : (s.setChild m).nextCode = s.nextCode := rfl
@[simp] theorem State.setChild_cur (s : State) (m : Memory Nat) : (s.setChild m).cur = s.cur := rfl
@[simp] theorem State.setChild_prev (s : State) (m : Memory Nat) : (s.setChild m).prev = s.prev := rfl
@[simp] theorem State.setChild_lastSym (s : State) (m : Memory Nat) : (s.setChild m).lastSym = s.lastSym := rfl
@[simp] theorem State.setChild_pBits (s : State) (m : Memory Nat) : (s.setChild m).pBits = s.pBits := rfl
@[simp] theorem State.setChild_pLen (s : State) (m : Memory Nat) : (s.setChild m).pLen = s.pLen := rfl
@[simp] theorem State.setChild_sIdx (s : State) (m : Memory Nat) : (s.setChild m).sIdx = s.sIdx := rfl
@[simp] theorem State.setChild_sLen (s : State) (m : Memory Nat) : (s.setChild m).sLen = s.sLen := rfl
@[simp] theorem State.setChild_srcEos (s : State) (m : Memory Nat) : (s.setChild m).srcEos = s.srcEos := rfl
@[simp] theorem State.setChild_child (s : State) (m : Memory Nat) : (s.setChild m).child = m := rfl
@[simp] theorem State.setChild_wt (s : State) (m : Memory Nat) : (s.setChild m).wt = s.wt := rfl
@[simp] theorem State.setChild_trunc (s : State) (m : Memory Nat) : (s.setChild m).trunc = s.trunc := rfl
@[simp] theorem State.setChild_cause (s : State) (m : Memory Nat) : (s.setChild m).cause = s.cause := rfl
@[simp] theorem State.setChild_info (s : State) (m : Memory Nat) : (s.setChild m).info = s.info := rfl
@[simp] theorem State.setChild_bytesIn (s : State) (m : Memory Nat) : (s.setChild m).bytesIn = s.bytesIn := rfl
@[simp] theorem State.setChild_bytesOut (s : State) (m : Memory Nat) : (s.setChild m).bytesOut = s.bytesOut := rfl
@[simp] theorem State.setChild_symBuf (s : State) (m : Memory Nat) : (s.setChild m).symBuf = s.symBuf := rfl
@[simp] theorem State.setChild_pairBuf (s : State) (m : Memory Nat) : (s.setChild m).pairBuf = s.pairBuf := rfl
@[simp] theorem State.setChild_source (s : State) (m : Memory Nat) : (s.setChild m).source = s.source := rfl
@[simp] theorem State.setChild_cuts (s : State) (m : Memory Nat) : (s.setChild m).cuts = s.cuts := rfl
@[simp] theorem State.setChild_pulls (s : State) (m : Memory Nat) : (s.setChild m).pulls = s.pulls := rfl
@[simp] theorem State.setChild_sink (s : State) (m : Memory Nat) : (s.setChild m).sink = s.sink := rfl
@[simp] theorem State.setChild_moves (s : State) (m : Memory Nat) : (s.setChild m).moves = s.moves := rfl
@[simp] theorem State.setChild_result (s : State) (m : Memory Nat) : (s.setChild m).result = s.result := rfl
@[simp] theorem State.setChild_draws (s : State) (m : Memory Nat) : (s.setChild m).draws = s.draws := rfl

@[simp] theorem State.setWt_params (s : State) (m : Memory (List Symbol)) : (s.setWt m).params = s.params := rfl
@[simp] theorem State.setWt_phase (s : State) (m : Memory (List Symbol)) : (s.setWt m).phase = s.phase := rfl
@[simp] theorem State.setWt_mode (s : State) (m : Memory (List Symbol)) : (s.setWt m).mode = s.mode := rfl
@[simp] theorem State.setWt_nextCode (s : State) (m : Memory (List Symbol)) : (s.setWt m).nextCode = s.nextCode := rfl
@[simp] theorem State.setWt_cur (s : State) (m : Memory (List Symbol)) : (s.setWt m).cur = s.cur := rfl
@[simp] theorem State.setWt_prev (s : State) (m : Memory (List Symbol)) : (s.setWt m).prev = s.prev := rfl
@[simp] theorem State.setWt_lastSym (s : State) (m : Memory (List Symbol)) : (s.setWt m).lastSym = s.lastSym := rfl
@[simp] theorem State.setWt_pBits (s : State) (m : Memory (List Symbol)) : (s.setWt m).pBits = s.pBits := rfl
@[simp] theorem State.setWt_pLen (s : State) (m : Memory (List Symbol)) : (s.setWt m).pLen = s.pLen := rfl
@[simp] theorem State.setWt_sIdx (s : State) (m : Memory (List Symbol)) : (s.setWt m).sIdx = s.sIdx := rfl
@[simp] theorem State.setWt_sLen (s : State) (m : Memory (List Symbol)) : (s.setWt m).sLen = s.sLen := rfl
@[simp] theorem State.setWt_srcEos (s : State) (m : Memory (List Symbol)) : (s.setWt m).srcEos = s.srcEos := rfl
@[simp] theorem State.setWt_child (s : State) (m : Memory (List Symbol)) : (s.setWt m).child = s.child := rfl
@[simp] theorem State.setWt_wt (s : State) (m : Memory (List Symbol)) : (s.setWt m).wt = m := rfl
@[simp] theorem State.setWt_trunc (s : State) (m : Memory (List Symbol)) : (s.setWt m).trunc = s.trunc := rfl
@[simp] theorem State.setWt_cause (s : State) (m : Memory (List Symbol)) : (s.setWt m).cause = s.cause := rfl
@[simp] theorem State.setWt_info (s : State) (m : Memory (List Symbol)) : (s.setWt m).info = s.info := rfl
@[simp] theorem State.setWt_bytesIn (s : State) (m : Memory (List Symbol)) : (s.setWt m).bytesIn = s.bytesIn := rfl
@[simp] theorem State.setWt_bytesOut (s : State) (m : Memory (List Symbol)) : (s.setWt m).bytesOut = s.bytesOut := rfl
@[simp] theorem State.setWt_symBuf (s : State) (m : Memory (List Symbol)) : (s.setWt m).symBuf = s.symBuf := rfl
@[simp] theorem State.setWt_pairBuf (s : State) (m : Memory (List Symbol)) : (s.setWt m).pairBuf = s.pairBuf := rfl
@[simp] theorem State.setWt_source (s : State) (m : Memory (List Symbol)) : (s.setWt m).source = s.source := rfl
@[simp] theorem State.setWt_cuts (s : State) (m : Memory (List Symbol)) : (s.setWt m).cuts = s.cuts := rfl
@[simp] theorem State.setWt_pulls (s : State) (m : Memory (List Symbol)) : (s.setWt m).pulls = s.pulls := rfl
@[simp] theorem State.setWt_sink (s : State) (m : Memory (List Symbol)) : (s.setWt m).sink = s.sink := rfl
@[simp] theorem State.setWt_moves (s : State) (m : Memory (List Symbol)) : (s.setWt m).moves = s.moves := rfl
@[simp] theorem State.setWt_result (s : State) (m : Memory (List Symbol)) : (s.setWt m).result = s.result := rfl
@[simp] theorem State.setWt_draws (s : State) (m : Memory (List Symbol)) : (s.setWt m).draws = s.draws := rfl

@[simp] theorem State.setReport_params (s : State) (t : Bool) (c : BitVec 3) (i : Nat) : (s.setReport t c i).params = s.params := rfl
@[simp] theorem State.setReport_phase (s : State) (t : Bool) (c : BitVec 3) (i : Nat) : (s.setReport t c i).phase = s.phase := rfl
@[simp] theorem State.setReport_mode (s : State) (t : Bool) (c : BitVec 3) (i : Nat) : (s.setReport t c i).mode = s.mode := rfl
@[simp] theorem State.setReport_nextCode (s : State) (t : Bool) (c : BitVec 3) (i : Nat) : (s.setReport t c i).nextCode = s.nextCode := rfl
@[simp] theorem State.setReport_cur (s : State) (t : Bool) (c : BitVec 3) (i : Nat) : (s.setReport t c i).cur = s.cur := rfl
@[simp] theorem State.setReport_prev (s : State) (t : Bool) (c : BitVec 3) (i : Nat) : (s.setReport t c i).prev = s.prev := rfl
@[simp] theorem State.setReport_lastSym (s : State) (t : Bool) (c : BitVec 3) (i : Nat) : (s.setReport t c i).lastSym = s.lastSym := rfl
@[simp] theorem State.setReport_pBits (s : State) (t : Bool) (c : BitVec 3) (i : Nat) : (s.setReport t c i).pBits = s.pBits := rfl
@[simp] theorem State.setReport_pLen (s : State) (t : Bool) (c : BitVec 3) (i : Nat) : (s.setReport t c i).pLen = s.pLen := rfl
@[simp] theorem State.setReport_sIdx (s : State) (t : Bool) (c : BitVec 3) (i : Nat) : (s.setReport t c i).sIdx = s.sIdx := rfl
@[simp] theorem State.setReport_sLen (s : State) (t : Bool) (c : BitVec 3) (i : Nat) : (s.setReport t c i).sLen = s.sLen := rfl
@[simp] theorem State.setReport_srcEos (s : State) (t : Bool) (c : BitVec 3) (i : Nat) : (s.setReport t c i).srcEos = s.srcEos := rfl
@[simp] theorem State.setReport_child (s : State) (t : Bool) (c : BitVec 3) (i : Nat) : (s.setReport t c i).child = s.child := rfl
@[simp] theorem State.setReport_wt (s : State) (t : Bool) (c : BitVec 3) (i : Nat) : (s.setReport t c i).wt = s.wt := rfl
@[simp] theorem State.setReport_trunc (s : State) (t : Bool) (c : BitVec 3) (i : Nat) : (s.setReport t c i).trunc = t := rfl
@[simp] theorem State.setReport_cause (s : State) (t : Bool) (c : BitVec 3) (i : Nat) : (s.setReport t c i).cause = c := rfl
@[simp] theorem State.setReport_info (s : State) (t : Bool) (c : BitVec 3) (i : Nat) : (s.setReport t c i).info = i := rfl
@[simp] theorem State.setReport_bytesIn (s : State) (t : Bool) (c : BitVec 3) (i : Nat) : (s.setReport t c i).bytesIn = s.bytesIn := rfl
@[simp] theorem State.setReport_bytesOut (s : State) (t : Bool) (c : BitVec 3) (i : Nat) : (s.setReport t c i).bytesOut = s.bytesOut := rfl
@[simp] theorem State.setReport_symBuf (s : State) (t : Bool) (c : BitVec 3) (i : Nat) : (s.setReport t c i).symBuf = s.symBuf := rfl
@[simp] theorem State.setReport_pairBuf (s : State) (t : Bool) (c : BitVec 3) (i : Nat) : (s.setReport t c i).pairBuf = s.pairBuf := rfl
@[simp] theorem State.setReport_source (s : State) (t : Bool) (c : BitVec 3) (i : Nat) : (s.setReport t c i).source = s.source := rfl
@[simp] theorem State.setReport_cuts (s : State) (t : Bool) (c : BitVec 3) (i : Nat) : (s.setReport t c i).cuts = s.cuts := rfl
@[simp] theorem State.setReport_pulls (s : State) (t : Bool) (c : BitVec 3) (i : Nat) : (s.setReport t c i).pulls = s.pulls := rfl
@[simp] theorem State.setReport_sink (s : State) (t : Bool) (c : BitVec 3) (i : Nat) : (s.setReport t c i).sink = s.sink := rfl
@[simp] theorem State.setReport_moves (s : State) (t : Bool) (c : BitVec 3) (i : Nat) : (s.setReport t c i).moves = s.moves := rfl
@[simp] theorem State.setReport_result (s : State) (t : Bool) (c : BitVec 3) (i : Nat) : (s.setReport t c i).result = s.result := rfl
@[simp] theorem State.setReport_draws (s : State) (t : Bool) (c : BitVec 3) (i : Nat) : (s.setReport t c i).draws = s.draws := rfl

@[simp] theorem State.setBytesIn_params (s : State) (n : Word64) : (s.setBytesIn n).params = s.params := rfl
@[simp] theorem State.setBytesIn_phase (s : State) (n : Word64) : (s.setBytesIn n).phase = s.phase := rfl
@[simp] theorem State.setBytesIn_mode (s : State) (n : Word64) : (s.setBytesIn n).mode = s.mode := rfl
@[simp] theorem State.setBytesIn_nextCode (s : State) (n : Word64) : (s.setBytesIn n).nextCode = s.nextCode := rfl
@[simp] theorem State.setBytesIn_cur (s : State) (n : Word64) : (s.setBytesIn n).cur = s.cur := rfl
@[simp] theorem State.setBytesIn_prev (s : State) (n : Word64) : (s.setBytesIn n).prev = s.prev := rfl
@[simp] theorem State.setBytesIn_lastSym (s : State) (n : Word64) : (s.setBytesIn n).lastSym = s.lastSym := rfl
@[simp] theorem State.setBytesIn_pBits (s : State) (n : Word64) : (s.setBytesIn n).pBits = s.pBits := rfl
@[simp] theorem State.setBytesIn_pLen (s : State) (n : Word64) : (s.setBytesIn n).pLen = s.pLen := rfl
@[simp] theorem State.setBytesIn_sIdx (s : State) (n : Word64) : (s.setBytesIn n).sIdx = s.sIdx := rfl
@[simp] theorem State.setBytesIn_sLen (s : State) (n : Word64) : (s.setBytesIn n).sLen = s.sLen := rfl
@[simp] theorem State.setBytesIn_srcEos (s : State) (n : Word64) : (s.setBytesIn n).srcEos = s.srcEos := rfl
@[simp] theorem State.setBytesIn_child (s : State) (n : Word64) : (s.setBytesIn n).child = s.child := rfl
@[simp] theorem State.setBytesIn_wt (s : State) (n : Word64) : (s.setBytesIn n).wt = s.wt := rfl
@[simp] theorem State.setBytesIn_trunc (s : State) (n : Word64) : (s.setBytesIn n).trunc = s.trunc := rfl
@[simp] theorem State.setBytesIn_cause (s : State) (n : Word64) : (s.setBytesIn n).cause = s.cause := rfl
@[simp] theorem State.setBytesIn_info (s : State) (n : Word64) : (s.setBytesIn n).info = s.info := rfl
@[simp] theorem State.setBytesIn_bytesIn (s : State) (n : Word64) : (s.setBytesIn n).bytesIn = n := rfl
@[simp] theorem State.setBytesIn_bytesOut (s : State) (n : Word64) : (s.setBytesIn n).bytesOut = s.bytesOut := rfl
@[simp] theorem State.setBytesIn_symBuf (s : State) (n : Word64) : (s.setBytesIn n).symBuf = s.symBuf := rfl
@[simp] theorem State.setBytesIn_pairBuf (s : State) (n : Word64) : (s.setBytesIn n).pairBuf = s.pairBuf := rfl
@[simp] theorem State.setBytesIn_source (s : State) (n : Word64) : (s.setBytesIn n).source = s.source := rfl
@[simp] theorem State.setBytesIn_cuts (s : State) (n : Word64) : (s.setBytesIn n).cuts = s.cuts := rfl
@[simp] theorem State.setBytesIn_pulls (s : State) (n : Word64) : (s.setBytesIn n).pulls = s.pulls := rfl
@[simp] theorem State.setBytesIn_sink (s : State) (n : Word64) : (s.setBytesIn n).sink = s.sink := rfl
@[simp] theorem State.setBytesIn_moves (s : State) (n : Word64) : (s.setBytesIn n).moves = s.moves := rfl
@[simp] theorem State.setBytesIn_result (s : State) (n : Word64) : (s.setBytesIn n).result = s.result := rfl
@[simp] theorem State.setBytesIn_draws (s : State) (n : Word64) : (s.setBytesIn n).draws = s.draws := rfl

@[simp] theorem State.setSymBuf_params (s : State) (m : Memory Byte) : (s.setSymBuf m).params = s.params := rfl
@[simp] theorem State.setSymBuf_phase (s : State) (m : Memory Byte) : (s.setSymBuf m).phase = s.phase := rfl
@[simp] theorem State.setSymBuf_mode (s : State) (m : Memory Byte) : (s.setSymBuf m).mode = s.mode := rfl
@[simp] theorem State.setSymBuf_nextCode (s : State) (m : Memory Byte) : (s.setSymBuf m).nextCode = s.nextCode := rfl
@[simp] theorem State.setSymBuf_cur (s : State) (m : Memory Byte) : (s.setSymBuf m).cur = s.cur := rfl
@[simp] theorem State.setSymBuf_prev (s : State) (m : Memory Byte) : (s.setSymBuf m).prev = s.prev := rfl
@[simp] theorem State.setSymBuf_lastSym (s : State) (m : Memory Byte) : (s.setSymBuf m).lastSym = s.lastSym := rfl
@[simp] theorem State.setSymBuf_pBits (s : State) (m : Memory Byte) : (s.setSymBuf m).pBits = s.pBits := rfl
@[simp] theorem State.setSymBuf_pLen (s : State) (m : Memory Byte) : (s.setSymBuf m).pLen = s.pLen := rfl
@[simp] theorem State.setSymBuf_sIdx (s : State) (m : Memory Byte) : (s.setSymBuf m).sIdx = s.sIdx := rfl
@[simp] theorem State.setSymBuf_sLen (s : State) (m : Memory Byte) : (s.setSymBuf m).sLen = s.sLen := rfl
@[simp] theorem State.setSymBuf_srcEos (s : State) (m : Memory Byte) : (s.setSymBuf m).srcEos = s.srcEos := rfl
@[simp] theorem State.setSymBuf_child (s : State) (m : Memory Byte) : (s.setSymBuf m).child = s.child := rfl
@[simp] theorem State.setSymBuf_wt (s : State) (m : Memory Byte) : (s.setSymBuf m).wt = s.wt := rfl
@[simp] theorem State.setSymBuf_trunc (s : State) (m : Memory Byte) : (s.setSymBuf m).trunc = s.trunc := rfl
@[simp] theorem State.setSymBuf_cause (s : State) (m : Memory Byte) : (s.setSymBuf m).cause = s.cause := rfl
@[simp] theorem State.setSymBuf_info (s : State) (m : Memory Byte) : (s.setSymBuf m).info = s.info := rfl
@[simp] theorem State.setSymBuf_bytesIn (s : State) (m : Memory Byte) : (s.setSymBuf m).bytesIn = s.bytesIn := rfl
@[simp] theorem State.setSymBuf_bytesOut (s : State) (m : Memory Byte) : (s.setSymBuf m).bytesOut = s.bytesOut := rfl
@[simp] theorem State.setSymBuf_symBuf (s : State) (m : Memory Byte) : (s.setSymBuf m).symBuf = m := rfl
@[simp] theorem State.setSymBuf_pairBuf (s : State) (m : Memory Byte) : (s.setSymBuf m).pairBuf = s.pairBuf := rfl
@[simp] theorem State.setSymBuf_source (s : State) (m : Memory Byte) : (s.setSymBuf m).source = s.source := rfl
@[simp] theorem State.setSymBuf_cuts (s : State) (m : Memory Byte) : (s.setSymBuf m).cuts = s.cuts := rfl
@[simp] theorem State.setSymBuf_pulls (s : State) (m : Memory Byte) : (s.setSymBuf m).pulls = s.pulls := rfl
@[simp] theorem State.setSymBuf_sink (s : State) (m : Memory Byte) : (s.setSymBuf m).sink = s.sink := rfl
@[simp] theorem State.setSymBuf_moves (s : State) (m : Memory Byte) : (s.setSymBuf m).moves = s.moves := rfl
@[simp] theorem State.setSymBuf_result (s : State) (m : Memory Byte) : (s.setSymBuf m).result = s.result := rfl
@[simp] theorem State.setSymBuf_draws (s : State) (m : Memory Byte) : (s.setSymBuf m).draws = s.draws := rfl

@[simp] theorem State.setPairBuf_params (s : State) (m : Memory Bool) : (s.setPairBuf m).params = s.params := rfl
@[simp] theorem State.setPairBuf_phase (s : State) (m : Memory Bool) : (s.setPairBuf m).phase = s.phase := rfl
@[simp] theorem State.setPairBuf_mode (s : State) (m : Memory Bool) : (s.setPairBuf m).mode = s.mode := rfl
@[simp] theorem State.setPairBuf_nextCode (s : State) (m : Memory Bool) : (s.setPairBuf m).nextCode = s.nextCode := rfl
@[simp] theorem State.setPairBuf_cur (s : State) (m : Memory Bool) : (s.setPairBuf m).cur = s.cur := rfl
@[simp] theorem State.setPairBuf_prev (s : State) (m : Memory Bool) : (s.setPairBuf m).prev = s.prev := rfl
@[simp] theorem State.setPairBuf_lastSym (s : State) (m : Memory Bool) : (s.setPairBuf m).lastSym = s.lastSym := rfl
@[simp] theorem State.setPairBuf_pBits (s : State) (m : Memory Bool) : (s.setPairBuf m).pBits = s.pBits := rfl
@[simp] theorem State.setPairBuf_pLen (s : State) (m : Memory Bool) : (s.setPairBuf m).pLen = s.pLen := rfl
@[simp] theorem State.setPairBuf_sIdx (s : State) (m : Memory Bool) : (s.setPairBuf m).sIdx = s.sIdx := rfl
@[simp] theorem State.setPairBuf_sLen (s : State) (m : Memory Bool) : (s.setPairBuf m).sLen = s.sLen := rfl
@[simp] theorem State.setPairBuf_srcEos (s : State) (m : Memory Bool) : (s.setPairBuf m).srcEos = s.srcEos := rfl
@[simp] theorem State.setPairBuf_child (s : State) (m : Memory Bool) : (s.setPairBuf m).child = s.child := rfl
@[simp] theorem State.setPairBuf_wt (s : State) (m : Memory Bool) : (s.setPairBuf m).wt = s.wt := rfl
@[simp] theorem State.setPairBuf_trunc (s : State) (m : Memory Bool) : (s.setPairBuf m).trunc = s.trunc := rfl
@[simp] theorem State.setPairBuf_cause (s : State) (m : Memory Bool) : (s.setPairBuf m).cause = s.cause := rfl
@[simp] theorem State.setPairBuf_info (s : State) (m : Memory Bool) : (s.setPairBuf m).info = s.info := rfl
@[simp] theorem State.setPairBuf_bytesIn (s : State) (m : Memory Bool) : (s.setPairBuf m).bytesIn = s.bytesIn := rfl
@[simp] theorem State.setPairBuf_bytesOut (s : State) (m : Memory Bool) : (s.setPairBuf m).bytesOut = s.bytesOut := rfl
@[simp] theorem State.setPairBuf_symBuf (s : State) (m : Memory Bool) : (s.setPairBuf m).symBuf = s.symBuf := rfl
@[simp] theorem State.setPairBuf_pairBuf (s : State) (m : Memory Bool) : (s.setPairBuf m).pairBuf = m := rfl
@[simp] theorem State.setPairBuf_source (s : State) (m : Memory Bool) : (s.setPairBuf m).source = s.source := rfl
@[simp] theorem State.setPairBuf_cuts (s : State) (m : Memory Bool) : (s.setPairBuf m).cuts = s.cuts := rfl
@[simp] theorem State.setPairBuf_pulls (s : State) (m : Memory Bool) : (s.setPairBuf m).pulls = s.pulls := rfl
@[simp] theorem State.setPairBuf_sink (s : State) (m : Memory Bool) : (s.setPairBuf m).sink = s.sink := rfl
@[simp] theorem State.setPairBuf_moves (s : State) (m : Memory Bool) : (s.setPairBuf m).moves = s.moves := rfl
@[simp] theorem State.setPairBuf_result (s : State) (m : Memory Bool) : (s.setPairBuf m).result = s.result := rfl
@[simp] theorem State.setPairBuf_draws (s : State) (m : Memory Bool) : (s.setPairBuf m).draws = s.draws := rfl

@[simp] theorem State.setSource_params (s : State) (src : List Byte) (cs : List Nat) (ps : List (Nat × Nat)) : (s.setSource src cs ps).params = s.params := rfl
@[simp] theorem State.setSource_phase (s : State) (src : List Byte) (cs : List Nat) (ps : List (Nat × Nat)) : (s.setSource src cs ps).phase = s.phase := rfl
@[simp] theorem State.setSource_mode (s : State) (src : List Byte) (cs : List Nat) (ps : List (Nat × Nat)) : (s.setSource src cs ps).mode = s.mode := rfl
@[simp] theorem State.setSource_nextCode (s : State) (src : List Byte) (cs : List Nat) (ps : List (Nat × Nat)) : (s.setSource src cs ps).nextCode = s.nextCode := rfl
@[simp] theorem State.setSource_cur (s : State) (src : List Byte) (cs : List Nat) (ps : List (Nat × Nat)) : (s.setSource src cs ps).cur = s.cur := rfl
@[simp] theorem State.setSource_prev (s : State) (src : List Byte) (cs : List Nat) (ps : List (Nat × Nat)) : (s.setSource src cs ps).prev = s.prev := rfl
@[simp] theorem State.setSource_lastSym (s : State) (src : List Byte) (cs : List Nat) (ps : List (Nat × Nat)) : (s.setSource src cs ps).lastSym = s.lastSym := rfl
@[simp] theorem State.setSource_pBits (s : State) (src : List Byte) (cs : List Nat) (ps : List (Nat × Nat)) : (s.setSource src cs ps).pBits = s.pBits := rfl
@[simp] theorem State.setSource_pLen (s : State) (src : List Byte) (cs : List Nat) (ps : List (Nat × Nat)) : (s.setSource src cs ps).pLen = s.pLen := rfl
@[simp] theorem State.setSource_sIdx (s : State) (src : List Byte) (cs : List Nat) (ps : List (Nat × Nat)) : (s.setSource src cs ps).sIdx = s.sIdx := rfl
@[simp] theorem State.setSource_sLen (s : State) (src : List Byte) (cs : List Nat) (ps : List (Nat × Nat)) : (s.setSource src cs ps).sLen = s.sLen := rfl
@[simp] theorem State.setSource_srcEos (s : State) (src : List Byte) (cs : List Nat) (ps : List (Nat × Nat)) : (s.setSource src cs ps).srcEos = s.srcEos := rfl
@[simp] theorem State.setSource_child (s : State) (src : List Byte) (cs : List Nat) (ps : List (Nat × Nat)) : (s.setSource src cs ps).child = s.child := rfl
@[simp] theorem State.setSource_wt (s : State) (src : List Byte) (cs : List Nat) (ps : List (Nat × Nat)) : (s.setSource src cs ps).wt = s.wt := rfl
@[simp] theorem State.setSource_trunc (s : State) (src : List Byte) (cs : List Nat) (ps : List (Nat × Nat)) : (s.setSource src cs ps).trunc = s.trunc := rfl
@[simp] theorem State.setSource_cause (s : State) (src : List Byte) (cs : List Nat) (ps : List (Nat × Nat)) : (s.setSource src cs ps).cause = s.cause := rfl
@[simp] theorem State.setSource_info (s : State) (src : List Byte) (cs : List Nat) (ps : List (Nat × Nat)) : (s.setSource src cs ps).info = s.info := rfl
@[simp] theorem State.setSource_bytesIn (s : State) (src : List Byte) (cs : List Nat) (ps : List (Nat × Nat)) : (s.setSource src cs ps).bytesIn = s.bytesIn := rfl
@[simp] theorem State.setSource_bytesOut (s : State) (src : List Byte) (cs : List Nat) (ps : List (Nat × Nat)) : (s.setSource src cs ps).bytesOut = s.bytesOut := rfl
@[simp] theorem State.setSource_symBuf (s : State) (src : List Byte) (cs : List Nat) (ps : List (Nat × Nat)) : (s.setSource src cs ps).symBuf = s.symBuf := rfl
@[simp] theorem State.setSource_pairBuf (s : State) (src : List Byte) (cs : List Nat) (ps : List (Nat × Nat)) : (s.setSource src cs ps).pairBuf = s.pairBuf := rfl
@[simp] theorem State.setSource_source (s : State) (src : List Byte) (cs : List Nat) (ps : List (Nat × Nat)) : (s.setSource src cs ps).source = src := rfl
@[simp] theorem State.setSource_cuts (s : State) (src : List Byte) (cs : List Nat) (ps : List (Nat × Nat)) : (s.setSource src cs ps).cuts = cs := rfl
@[simp] theorem State.setSource_pulls (s : State) (src : List Byte) (cs : List Nat) (ps : List (Nat × Nat)) : (s.setSource src cs ps).pulls = ps := rfl
@[simp] theorem State.setSource_sink (s : State) (src : List Byte) (cs : List Nat) (ps : List (Nat × Nat)) : (s.setSource src cs ps).sink = s.sink := rfl
@[simp] theorem State.setSource_moves (s : State) (src : List Byte) (cs : List Nat) (ps : List (Nat × Nat)) : (s.setSource src cs ps).moves = s.moves := rfl
@[simp] theorem State.setSource_result (s : State) (src : List Byte) (cs : List Nat) (ps : List (Nat × Nat)) : (s.setSource src cs ps).result = s.result := rfl
@[simp] theorem State.setSource_draws (s : State) (src : List Byte) (cs : List Nat) (ps : List (Nat × Nat)) : (s.setSource src cs ps).draws = s.draws := rfl

@[simp] theorem State.setSink_params (s : State) (k : List (List Byte)) (n : Word64) : (s.setSink k n).params = s.params := rfl
@[simp] theorem State.setSink_phase (s : State) (k : List (List Byte)) (n : Word64) : (s.setSink k n).phase = s.phase := rfl
@[simp] theorem State.setSink_mode (s : State) (k : List (List Byte)) (n : Word64) : (s.setSink k n).mode = s.mode := rfl
@[simp] theorem State.setSink_nextCode (s : State) (k : List (List Byte)) (n : Word64) : (s.setSink k n).nextCode = s.nextCode := rfl
@[simp] theorem State.setSink_cur (s : State) (k : List (List Byte)) (n : Word64) : (s.setSink k n).cur = s.cur := rfl
@[simp] theorem State.setSink_prev (s : State) (k : List (List Byte)) (n : Word64) : (s.setSink k n).prev = s.prev := rfl
@[simp] theorem State.setSink_lastSym (s : State) (k : List (List Byte)) (n : Word64) : (s.setSink k n).lastSym = s.lastSym := rfl
@[simp] theorem State.setSink_pBits (s : State) (k : List (List Byte)) (n : Word64) : (s.setSink k n).pBits = s.pBits := rfl
@[simp] theorem State.setSink_pLen (s : State) (k : List (List Byte)) (n : Word64) : (s.setSink k n).pLen = s.pLen := rfl
@[simp] theorem State.setSink_sIdx (s : State) (k : List (List Byte)) (n : Word64) : (s.setSink k n).sIdx = s.sIdx := rfl
@[simp] theorem State.setSink_sLen (s : State) (k : List (List Byte)) (n : Word64) : (s.setSink k n).sLen = s.sLen := rfl
@[simp] theorem State.setSink_srcEos (s : State) (k : List (List Byte)) (n : Word64) : (s.setSink k n).srcEos = s.srcEos := rfl
@[simp] theorem State.setSink_child (s : State) (k : List (List Byte)) (n : Word64) : (s.setSink k n).child = s.child := rfl
@[simp] theorem State.setSink_wt (s : State) (k : List (List Byte)) (n : Word64) : (s.setSink k n).wt = s.wt := rfl
@[simp] theorem State.setSink_trunc (s : State) (k : List (List Byte)) (n : Word64) : (s.setSink k n).trunc = s.trunc := rfl
@[simp] theorem State.setSink_cause (s : State) (k : List (List Byte)) (n : Word64) : (s.setSink k n).cause = s.cause := rfl
@[simp] theorem State.setSink_info (s : State) (k : List (List Byte)) (n : Word64) : (s.setSink k n).info = s.info := rfl
@[simp] theorem State.setSink_bytesIn (s : State) (k : List (List Byte)) (n : Word64) : (s.setSink k n).bytesIn = s.bytesIn := rfl
@[simp] theorem State.setSink_bytesOut (s : State) (k : List (List Byte)) (n : Word64) : (s.setSink k n).bytesOut = n := rfl
@[simp] theorem State.setSink_symBuf (s : State) (k : List (List Byte)) (n : Word64) : (s.setSink k n).symBuf = s.symBuf := rfl
@[simp] theorem State.setSink_pairBuf (s : State) (k : List (List Byte)) (n : Word64) : (s.setSink k n).pairBuf = s.pairBuf := rfl
@[simp] theorem State.setSink_source (s : State) (k : List (List Byte)) (n : Word64) : (s.setSink k n).source = s.source := rfl
@[simp] theorem State.setSink_cuts (s : State) (k : List (List Byte)) (n : Word64) : (s.setSink k n).cuts = s.cuts := rfl
@[simp] theorem State.setSink_pulls (s : State) (k : List (List Byte)) (n : Word64) : (s.setSink k n).pulls = s.pulls := rfl
@[simp] theorem State.setSink_sink (s : State) (k : List (List Byte)) (n : Word64) : (s.setSink k n).sink = k := rfl
@[simp] theorem State.setSink_moves (s : State) (k : List (List Byte)) (n : Word64) : (s.setSink k n).moves = s.moves := rfl
@[simp] theorem State.setSink_result (s : State) (k : List (List Byte)) (n : Word64) : (s.setSink k n).result = s.result := rfl
@[simp] theorem State.setSink_draws (s : State) (k : List (List Byte)) (n : Word64) : (s.setSink k n).draws = s.draws := rfl

@[simp] theorem State.setMoves_params (s : State) (ms : List HostMove) : (s.setMoves ms).params = s.params := rfl
@[simp] theorem State.setMoves_phase (s : State) (ms : List HostMove) : (s.setMoves ms).phase = s.phase := rfl
@[simp] theorem State.setMoves_mode (s : State) (ms : List HostMove) : (s.setMoves ms).mode = s.mode := rfl
@[simp] theorem State.setMoves_nextCode (s : State) (ms : List HostMove) : (s.setMoves ms).nextCode = s.nextCode := rfl
@[simp] theorem State.setMoves_cur (s : State) (ms : List HostMove) : (s.setMoves ms).cur = s.cur := rfl
@[simp] theorem State.setMoves_prev (s : State) (ms : List HostMove) : (s.setMoves ms).prev = s.prev := rfl
@[simp] theorem State.setMoves_lastSym (s : State) (ms : List HostMove) : (s.setMoves ms).lastSym = s.lastSym := rfl
@[simp] theorem State.setMoves_pBits (s : State) (ms : List HostMove) : (s.setMoves ms).pBits = s.pBits := rfl
@[simp] theorem State.setMoves_pLen (s : State) (ms : List HostMove) : (s.setMoves ms).pLen = s.pLen := rfl
@[simp] theorem State.setMoves_sIdx (s : State) (ms : List HostMove) : (s.setMoves ms).sIdx = s.sIdx := rfl
@[simp] theorem State.setMoves_sLen (s : State) (ms : List HostMove) : (s.setMoves ms).sLen = s.sLen := rfl
@[simp] theorem State.setMoves_srcEos (s : State) (ms : List HostMove) : (s.setMoves ms).srcEos = s.srcEos := rfl
@[simp] theorem State.setMoves_child (s : State) (ms : List HostMove) : (s.setMoves ms).child = s.child := rfl
@[simp] theorem State.setMoves_wt (s : State) (ms : List HostMove) : (s.setMoves ms).wt = s.wt := rfl
@[simp] theorem State.setMoves_trunc (s : State) (ms : List HostMove) : (s.setMoves ms).trunc = s.trunc := rfl
@[simp] theorem State.setMoves_cause (s : State) (ms : List HostMove) : (s.setMoves ms).cause = s.cause := rfl
@[simp] theorem State.setMoves_info (s : State) (ms : List HostMove) : (s.setMoves ms).info = s.info := rfl
@[simp] theorem State.setMoves_bytesIn (s : State) (ms : List HostMove) : (s.setMoves ms).bytesIn = s.bytesIn := rfl
@[simp] theorem State.setMoves_bytesOut (s : State) (ms : List HostMove) : (s.setMoves ms).bytesOut = s.bytesOut := rfl
@[simp] theorem State.setMoves_symBuf (s : State) (ms : List HostMove) : (s.setMoves ms).symBuf = s.symBuf := rfl
@[simp] theorem State.setMoves_pairBuf (s : State) (ms : List HostMove) : (s.setMoves ms).pairBuf = s.pairBuf := rfl
@[simp] theorem State.setMoves_source (s : State) (ms : List HostMove) : (s.setMoves ms).source = s.source := rfl
@[simp] theorem State.setMoves_cuts (s : State) (ms : List HostMove) : (s.setMoves ms).cuts = s.cuts := rfl
@[simp] theorem State.setMoves_pulls (s : State) (ms : List HostMove) : (s.setMoves ms).pulls = s.pulls := rfl
@[simp] theorem State.setMoves_sink (s : State) (ms : List HostMove) : (s.setMoves ms).sink = s.sink := rfl
@[simp] theorem State.setMoves_moves (s : State) (ms : List HostMove) : (s.setMoves ms).moves = ms := rfl
@[simp] theorem State.setMoves_result (s : State) (ms : List HostMove) : (s.setMoves ms).result = s.result := rfl
@[simp] theorem State.setMoves_draws (s : State) (ms : List HostMove) : (s.setMoves ms).draws = s.draws := rfl

@[simp] theorem State.setResult_params (s : State) (r : OpResult) : (s.setResult r).params = s.params := rfl
@[simp] theorem State.setResult_phase (s : State) (r : OpResult) : (s.setResult r).phase = s.phase := rfl
@[simp] theorem State.setResult_mode (s : State) (r : OpResult) : (s.setResult r).mode = s.mode := rfl
@[simp] theorem State.setResult_nextCode (s : State) (r : OpResult) : (s.setResult r).nextCode = s.nextCode := rfl
@[simp] theorem State.setResult_cur (s : State) (r : OpResult) : (s.setResult r).cur = s.cur := rfl
@[simp] theorem State.setResult_prev (s : State) (r : OpResult) : (s.setResult r).prev = s.prev := rfl
@[simp] theorem State.setResult_lastSym (s : State) (r : OpResult) : (s.setResult r).lastSym = s.lastSym := rfl
@[simp] theorem State.setResult_pBits (s : State) (r : OpResult) : (s.setResult r).pBits = s.pBits := rfl
@[simp] theorem State.setResult_pLen (s : State) (r : OpResult) : (s.setResult r).pLen = s.pLen := rfl
@[simp] theorem State.setResult_sIdx (s : State) (r : OpResult) : (s.setResult r).sIdx = s.sIdx := rfl
@[simp] theorem State.setResult_sLen (s : State) (r : OpResult) : (s.setResult r).sLen = s.sLen := rfl
@[simp] theorem State.setResult_srcEos (s : State) (r : OpResult) : (s.setResult r).srcEos = s.srcEos := rfl
@[simp] theorem State.setResult_child (s : State) (r : OpResult) : (s.setResult r).child = s.child := rfl
@[simp] theorem State.setResult_wt (s : State) (r : OpResult) : (s.setResult r).wt = s.wt := rfl
@[simp] theorem State.setResult_trunc (s : State) (r : OpResult) : (s.setResult r).trunc = s.trunc := rfl
@[simp] theorem State.setResult_cause (s : State) (r : OpResult) : (s.setResult r).cause = s.cause := rfl
@[simp] theorem State.setResult_info (s : State) (r : OpResult) : (s.setResult r).info = s.info := rfl
@[simp] theorem State.setResult_bytesIn (s : State) (r : OpResult) : (s.setResult r).bytesIn = s.bytesIn := rfl
@[simp] theorem State.setResult_bytesOut (s : State) (r : OpResult) : (s.setResult r).bytesOut = s.bytesOut := rfl
@[simp] theorem State.setResult_symBuf (s : State) (r : OpResult) : (s.setResult r).symBuf = s.symBuf := rfl
@[simp] theorem State.setResult_pairBuf (s : State) (r : OpResult) : (s.setResult r).pairBuf = s.pairBuf := rfl
@[simp] theorem State.setResult_source (s : State) (r : OpResult) : (s.setResult r).source = s.source := rfl
@[simp] theorem State.setResult_cuts (s : State) (r : OpResult) : (s.setResult r).cuts = s.cuts := rfl
@[simp] theorem State.setResult_pulls (s : State) (r : OpResult) : (s.setResult r).pulls = s.pulls := rfl
@[simp] theorem State.setResult_sink (s : State) (r : OpResult) : (s.setResult r).sink = s.sink := rfl
@[simp] theorem State.setResult_moves (s : State) (r : OpResult) : (s.setResult r).moves = s.moves := rfl
@[simp] theorem State.setResult_result (s : State) (r : OpResult) : (s.setResult r).result = r := rfl
@[simp] theorem State.setResult_draws (s : State) (r : OpResult) : (s.setResult r).draws = s.draws := rfl

end Sys2Proof.Machine
end

