-- ==== Sys2Proof/Laws/Input.lean ====
section
/-! SUPPORT. What the input side of the codec does: RD_BYTES, RD_SYM, GET_BIT, RD_PAIR. -/

namespace Sys2Proof.Machine

theorem Memory.setFrom_append {α : Type} (xs ys : List α) (m : Memory α) (a : Nat) :
    m.setFrom a (xs ++ ys) = (m.setFrom a xs).setFrom (a + xs.length) ys := by
  induction xs generalizing m a with
  | nil => rfl
  | cons x xs ih =>
    simp only [List.cons_append, Memory.setFrom, ih, List.length_cons]
    congr 1
    omega

/-- The state after `taken` bytes have been read into a buffer at byte `got`. -/
def afterRead (buf : Buf) (got : Nat) (taken : List Byte) (eos : Bool) (cs : List Nat) (ps : List (Nat × Nat))
    (s : State) : State :=
  (((storeBytes buf got taken s).setSrcEos eos).setBytesIn (s.bytesIn + BitVec.ofNat 64 taken.length)).setSource
    (s.source.drop taken.length) cs ps

theorem length_flatMap_bitsOfByte (bs : List Byte) : (bs.flatMap bitsOfByte).length = 8 * bs.length := by
  induction bs with
  | nil => rfl
  | cons b bs ih => simp [ih]; omega

theorem afterRead_afterRead (buf : Buf) (got : Nat) (xs ys : List Byte) (e1 e2 : Bool) (c1 c2 : List Nat)
    (p1 p2 : List (Nat × Nat)) (s : State) :
    afterRead buf (got + xs.length) ys e2 c2 p2 (afterRead buf got xs e1 c1 p1 s) =
      afterRead buf got (xs ++ ys) e2 c2 p2 s := by
  have hb : s.bytesIn + BitVec.ofNat 64 xs.length + BitVec.ofNat 64 ys.length =
      s.bytesIn + BitVec.ofNat 64 (xs.length + ys.length) := by
    rw [BitVec.ofNat_add, BitVec.add_assoc]
  cases buf with
  | sym =>
    simp only [afterRead, storeBytes, State.setSource, State.setBytesIn, State.setSrcEos, State.setSymBuf,
      List.length_append, Memory.setFrom_append, List.drop_drop, hb]
  | pair =>
    have e : 8 * (got + xs.length) = 8 * got + (xs.flatMap bitsOfByte).length := by
      rw [length_flatMap_bitsOfByte]; ring
    simp only [afterRead, storeBytes, State.setSource, State.setBytesIn, State.setSrcEos, State.setPairBuf,
      List.length_append, List.flatMap_append, Memory.setFrom_append, List.drop_drop, hb, e]

/-- What a pull answers: the front of the source, at most `n` bytes; all of what is asked for or held when the host
keeps its contract and the answer is empty only for an empty source. -/
theorem pullAnswer_spec (n : Nat) (s : State) :
    pullAnswer n s = s.source.take (pullAnswer n s).length ∧ (pullAnswer n s).length ≤ n := by
  unfold pullAnswer
  split
  · exact ⟨by simp [List.take_eq_take_iff], by simp⟩
  · rename_i k cs _
    exact ⟨by simp [List.take_eq_take_iff], by simp⟩

theorem pullAnswer_isEmpty (n : Nat) (s : State) (hn : 0 < n) (hc : HostKeepsContract s)
    (h : pullAnswer n s = []) : s.source = [] := by
  unfold pullAnswer at h
  unfold HostKeepsContract at hc
  split at h
  · rcases List.take_eq_nil_iff.1 h with h | h
    · omega
    · exact h
  · rename_i k cs hk
    rw [hk] at hc
    simp at h hc
    rcases h with h | h
    · omega
    · exact h

theorem rdBytesLoop_spec (fuel : Nat) (buf : Buf) (n got : Nat) (s : State) (hf : n - got < fuel) (hg : got ≤ n) :
    ∃ taken eos cs ps, rdBytesLoop fuel buf n got s = (got + taken.length, afterRead buf got taken eos cs ps s) ∧
      taken = s.source.take taken.length ∧ got + taken.length ≤ n ∧ (got + taken.length < n → eos = true) ∧
      (s.srcEos = true → taken = [] ∧ eos = true ∧ cs = s.cuts ∧ ps = s.pulls) ∧
      (HostKeepsContract s → 0 ∉ cs ∧
        (s.srcEos = false → taken = s.source.take (n - got) ∧ (eos = true ↔ s.source.length < n - got))) := by
  induction fuel generalizing got s with
  | zero => omega
  | succ fuel ih =>
    have nothing : ∀ e c p, e = s.srcEos → c = s.cuts → p = s.pulls → s = afterRead buf got [] e c p s := by
      rintro _ _ _ rfl rfl rfl
      cases buf <;> simp [afterRead, storeBytes, Memory.setFrom, State.setSource, State.setBytesIn, State.setSrcEos,
        State.setSymBuf, State.setPairBuf]
    unfold rdBytesLoop
    by_cases hcond : got < n ∧ s.srcEos = false
    · rw [if_pos hcond]
      simp only
      obtain ⟨ha, hl⟩ := pullAnswer_spec (n - got) s
      by_cases he : pullAnswer (n - got) s = []
      · rw [if_pos (by simp [he])]
        refine ⟨[], true, s.cuts.tail, s.pulls ++ [(n - got, 0)], ?_, by simp, by simpa using hg, by simp,
          by simp [hcond.2], fun hc => ⟨fun h0 => hc (List.mem_of_mem_tail h0), fun _ => ?_⟩⟩
        · cases buf <;> simp [afterPull, he, afterRead, storeBytes, Memory.setFrom, State.setSource,
            State.setBytesIn, State.setSrcEos, State.setSymBuf, State.setPairBuf]
        · have := pullAnswer_isEmpty _ s (by omega) hc he
          simp [this]; omega
      · rw [if_neg (by simpa using he)]
        have hpos : 0 < (pullAnswer (n - got) s).length := List.length_pos_iff.2 he
        generalize hs1 : ((storeBytes buf got (pullAnswer (n - got) s) (afterPull (n - got) s)).setBytesIn
          ((afterPull (n - got) s).bytesIn + BitVec.ofNat 64 (pullAnswer (n - got) s).length)) = s1
        have hs1' : s1 = afterRead buf got (pullAnswer (n - got) s) s.srcEos s.cuts.tail
            (s.pulls ++ [(n - got, (pullAnswer (n - got) s).length)]) s := by
          rw [← hs1]
          cases buf <;> simp [afterPull, afterRead, storeBytes, State.setSource,
            State.setBytesIn, State.setSrcEos, State.setSymBuf, State.setPairBuf]
        obtain ⟨taken, eos, cs, ps, h1, h2, h3, h4, h5, h6⟩ := ih (got + (pullAnswer (n - got) s).length) s1
          (by omega) (by omega)
        have hsrc : s1.source = s.source.drop (pullAnswer (n - got) s).length := by rw [hs1']; simp [afterRead]
        have heos : s1.srcEos = s.srcEos := by rw [hs1']; simp [afterRead]
        have hcuts : s1.cuts = s.cuts.tail := by rw [hs1']; simp [afterRead]
        refine ⟨pullAnswer (n - got) s ++ taken, eos, cs, ps, ?_, ?_, ?_, ?_, by simp [hcond.2], fun hc => ?_⟩
        · rw [h1, hs1', afterRead_afterRead, List.length_append, Nat.add_assoc]
        · rw [hsrc] at h2
          rw [List.length_append, List.take_add, ← ha, ← h2]
        · rw [List.length_append]; omega
        · rw [List.length_append]; intro h; exact h4 (by omega)
        · have hc1 : HostKeepsContract s1 := by
            unfold HostKeepsContract at *
            rw [hcuts]
            exact fun h0 => hc (List.mem_of_mem_tail h0)
          obtain ⟨h7, h8⟩ := h6 hc1
          refine ⟨h7, fun _ => ?_⟩
          obtain ⟨h9, h10⟩ := h8 (by rw [heos]; exact hcond.2)
          constructor
          · rw [h9, hsrc, show n - (got + (pullAnswer (n - got) s).length) = n - got - (pullAnswer (n - got) s).length by omega]
            have e := List.take_add (l := s.source) (i := (pullAnswer (n - got) s).length)
              (j := n - got - (pullAnswer (n - got) s).length)
            rw [Nat.add_sub_cancel' hl, ← ha] at e
            exact e.symm
          · rw [h10, hsrc, List.length_drop]
            have : (pullAnswer (n - got) s).length ≤ s.source.length := by
              conv_lhs => rw [ha]
              simp
            omega
    · rw [if_neg hcond]
      refine ⟨[], s.srcEos, s.cuts, s.pulls, ?_, by simp, by simpa using hg, ?_, by simp, fun hc => ⟨hc, ?_⟩⟩
      · rw [← nothing _ _ _ rfl rfl rfl]; simp
      · intro h; simp at h; by_contra h2; exact hcond ⟨h, by simpa using h2⟩
      · intro h
        have : n - got = 0 := by by_contra h2; exact hcond ⟨by omega, h⟩
        simp [this, h]

/-- RD_BYTES reads the front of the source into the front of the buffer; fewer than `n` bytes only at the source's end;
nothing once the end has been seen; all that is asked for or held from a host that keeps its contract (R120). -/
theorem rdBytes_spec (buf : Buf) (n : Nat) (s : State) :
    ∃ taken eos cs ps, rdBytes buf n s = (taken.length, afterRead buf 0 taken eos cs ps s) ∧
      taken = s.source.take taken.length ∧ taken.length ≤ n ∧ (taken.length < n → eos = true) ∧
      (s.srcEos = true → taken = [] ∧ eos = true ∧ cs = s.cuts ∧ ps = s.pulls) ∧
      (HostKeepsContract s → 0 ∉ cs ∧
        (s.srcEos = false → taken = s.source.take n ∧ (eos = true ↔ s.source.length < n))) := by
  have h := rdBytesLoop_spec (n + 1) buf n 0 s (by omega) (by omega)
  simpa [rdBytes] using h

theorem SymInFrame.refl (s : State) : SymInFrame s s := rfl
theorem PairInFrame.refl (s : State) : PairInFrame s s := rfl

theorem SymInFrame.trans {s t u : State} (h1 : SymInFrame s t) (h2 : SymInFrame t u) : SymInFrame s u := by
  unfold SymInFrame at *
  rw [h1] at h2
  exact h2

theorem PairInFrame.trans {s t u : State} (h1 : PairInFrame s t) (h2 : PairInFrame t u) : PairInFrame s u := by
  unfold PairInFrame at *
  rw [h1] at h2
  exact h2

theorem SymInFrame.fields {s t : State} (h : SymInFrame s t) :
    t.params = s.params ∧ t.phase = s.phase ∧ t.mode = s.mode ∧ t.nextCode = s.nextCode ∧ t.cur = s.cur ∧
    t.prev = s.prev ∧ t.lastSym = s.lastSym ∧ t.child = s.child ∧ t.wt = s.wt ∧ t.draws = s.draws ∧
    t.trunc = s.trunc ∧ t.cause = s.cause ∧ t.info = s.info ∧ t.sink = s.sink ∧ t.bytesOut = s.bytesOut ∧
    t.moves = s.moves ∧ t.pairBuf = s.pairBuf ∧ t.pBits = s.pBits ∧ t.pLen = s.pLen := by
  unfold SymInFrame at h
  rw [h]
  simp

theorem PairInFrame.fields {s t : State} (h : PairInFrame s t) :
    t.params = s.params ∧ t.phase = s.phase ∧ t.mode = s.mode ∧ t.nextCode = s.nextCode ∧ t.cur = s.cur ∧
    t.prev = s.prev ∧ t.lastSym = s.lastSym ∧ t.child = s.child ∧ t.wt = s.wt ∧ t.draws = s.draws ∧
    t.trunc = s.trunc ∧ t.cause = s.cause ∧ t.info = s.info ∧ t.sink = s.sink ∧ t.bytesOut = s.bytesOut ∧
    t.moves = s.moves ∧ t.symBuf = s.symBuf ∧ t.sIdx = s.sIdx ∧ t.sLen = s.sLen := by
  unfold PairInFrame at h
  rw [h]
  simp

theorem afterRead_sym_frame (got : Nat) (xs : List Byte) (e : Bool) (c : List Nat) (p : List (Nat × Nat)) (s : State) :
    SymInFrame s (afterRead .sym got xs e c p s) := rfl

theorem afterRead_pair_frame (got : Nat) (xs : List Byte) (e : Bool) (c : List Nat) (p : List (Nat × Nat))
    (s : State) : PairInFrame s (afterRead .pair got xs e c p s) := rfl

/-! RD_SYM. -/

theorem setSyms_frame (s : State) (n m : Nat) : SymInFrame s ((s.setSLen n).setSIdx m) := rfl

theorem refillSyms_frame (s : State) : SymInFrame s (refillSyms s) := by
  obtain ⟨taken, eos, cs, ps, h, -⟩ := rdBytes_spec .sym s.params.block s
  unfold refillSyms
  rw [h]
  exact (afterRead_sym_frame 0 taken eos cs ps s).trans (setSyms_frame _ _ _)

theorem takeSym_frame (s : State) : SymInFrame s (takeSym s).2 := by
  simp only [takeSym, SymInFrame, State.setSIdx]

theorem rdSym_frame (s : State) : SymInFrame s (rdSym s).2 := by
  unfold rdSym
  split
  · simp only
    split
    · exact refillSyms_frame s
    · exact (refillSyms_frame s).trans (takeSym_frame _)
  · exact takeSym_frame s

theorem symByte_afterRead (xs : List Byte) (e : Bool) (c : List Nat) (p : List (Nat × Nat)) (s : State) (i : Nat)
    (h : i < xs.length) : symByte (afterRead .sym 0 xs e c p s) i = xs[i] := by
  simp [symByte, afterRead, storeBytes, Memory.get_setFrom, h]

/-- A refill hands on the front of the source: what is pending does not change (R122, R133). -/
theorem refillSyms_spec (s : State) (h : s.sIdx = s.sLen) (hb : 1 ≤ s.params.block) (hc : HostKeepsContract s) :
    pendingSyms (refillSyms s) = pendingSyms s ∧ HostKeepsContract (refillSyms s) ∧ (refillSyms s).sIdx = 0 ∧
    (refillSyms s).sLen ≤ s.params.block ∧ ((refillSyms s).sLen = 0 ↔ pendingSyms s = []) := by
  obtain ⟨taken, eos, cs, ps, h1, h2, h3, h4, h5, h6⟩ := rdBytes_spec .sym s.params.block s
  obtain ⟨h7, h8⟩ := h6 hc
  have hr : refillSyms s = ((afterRead .sym 0 taken eos cs ps s).setSLen taken.length).setSIdx 0 := by
    unfold refillSyms; rw [h1]
  have hp : pendingSyms s = if s.srcEos then [] else s.source := by simp [pendingSyms, h]
  have hn : pendingSyms (refillSyms s) = taken ++ if eos then [] else s.source.drop taken.length := by
    rw [hr, pendingSyms]
    congr 1
    apply List.ext_getElem
    · simp
    · intro i g1 g2
      simp only [List.getElem_map, List.getElem_range']
      have := symByte_afterRead taken eos cs ps s i g2
      simpa [symByte] using this
  refine ⟨?_, by rw [hr]; exact h7, by rw [hr]; rfl, by rw [hr]; exact h3, ?_⟩
  · rw [hn, hp]
    cases he : s.srcEos with
    | true => obtain ⟨rfl, rfl, -⟩ := h5 he; rfl
    | false =>
      obtain ⟨h9, h10⟩ := h8 he
      cases eos with
      | true =>
        have := h10.1 rfl
        simp only [if_true, List.append_nil]
        rw [h9, List.take_of_length_le (by omega)]; rfl
      | false =>
        have hl : taken.length = s.params.block := by
          by_contra hne; have := h4 (by omega); simp at this
        rw [h9] at hl
        simp only [Bool.false_eq_true, if_false]
        rw [h9, hl, List.take_append_drop]
  · rw [hr, hp]
    simp only [State.setSIdx_sLen, State.setSLen_sLen, List.length_eq_zero_iff]
    cases he : s.srcEos with
    | true => obtain ⟨rfl, rfl, -⟩ := h5 he; simp
    | false =>
      obtain ⟨h9, -⟩ := h8 he
      simp only [Bool.false_eq_true, if_false]
      rw [h9, List.take_eq_nil_iff]
      constructor
      · rintro (h | h)
        · omega
        · exact h
      · exact fun h => .inr h

theorem takeSym_spec (s : State) (h : s.sIdx < s.sLen) :
    ∃ x, takeSym s = (some x, s.setSIdx (s.sIdx + 1)) ∧ pendingSyms s = x :: pendingSyms (s.setSIdx (s.sIdx + 1)) := by
  refine ⟨symByte s s.sIdx, rfl, ?_⟩
  simp only [pendingSyms, State.setSIdx_sIdx, State.setSIdx_sLen, State.setSIdx_srcEos, State.setSIdx_source]
  rw [show s.sLen - s.sIdx = (s.sLen - (s.sIdx + 1)) + 1 by omega, List.range'_succ]
  rfl

/-- RD_SYM hands out the first pending symbol, or end-of-input when none is pending (R122). -/
theorem rdSym_spec (s : State) (h : s.sIdx ≤ s.sLen) (hl : s.sLen ≤ s.params.block) (hb : 1 ≤ s.params.block)
    (hc : HostKeepsContract s) :
    (rdSym s).1 = (pendingSyms s).head? ∧ pendingSyms (rdSym s).2 = (pendingSyms s).tail ∧
    HostKeepsContract (rdSym s).2 ∧ (rdSym s).2.sIdx ≤ (rdSym s).2.sLen ∧ (rdSym s).2.sLen ≤ s.params.block := by
  unfold rdSym
  split
  · rename_i he
    obtain ⟨h1, h2, h3, h4, h5⟩ := refillSyms_spec s he hb hc
    simp only
    split
    · rename_i h0
      have := h5.1 h0
      simp only [this, List.head?_nil, List.tail_nil, true_and]
      refine ⟨by rw [h1, this], h2, by omega, h4⟩
    · rename_i h0
      obtain ⟨x, hx1, hx2⟩ := takeSym_spec (refillSyms s) (by omega)
      rw [hx1, ← h1, hx2]
      refine ⟨rfl, rfl, h2, ?_, h4⟩
      simp only [State.setSIdx_sIdx, State.setSIdx_sLen]
      omega
  · rename_i he
    obtain ⟨x, hx1, hx2⟩ := takeSym_spec s (by omega)
    rw [hx1, hx2]
    refine ⟨rfl, rfl, hc, ?_, hl⟩
    simp only [State.setSIdx_sIdx, State.setSIdx_sLen]
    omega

/-- The bounds RD_SYM leaves, whatever the host answers (R47). -/
theorem rdSym_bounds (s : State) (h : s.sIdx ≤ s.sLen) (hl : s.sLen ≤ s.params.block) :
    (rdSym s).2.sIdx ≤ (rdSym s).2.sLen ∧ (rdSym s).2.sLen ≤ s.params.block := by
  have hr : (refillSyms s).sIdx = 0 ∧ (refillSyms s).sLen ≤ s.params.block := by
    obtain ⟨taken, eos, cs, ps, h1, h2, h3, -⟩ := rdBytes_spec .sym s.params.block s
    unfold refillSyms
    rw [h1]
    exact ⟨rfl, h3⟩
  unfold rdSym
  split
  · simp only
    split
    · exact ⟨by rw [hr.1]; exact Nat.zero_le _, hr.2⟩
    · simp only [takeSym, State.setSIdx_sIdx, State.setSIdx_sLen]
      omega
  · simp only [takeSym, State.setSIdx_sIdx, State.setSIdx_sLen]
    omega

/-! GET_BIT and RD_PAIR. -/

theorem setPairs_frame (s : State) (n m : Nat) : PairInFrame s ((s.setPLen n).setPBits m) := rfl

theorem refillPairs_frame (s : State) : PairInFrame s (refillPairs s) := by
  obtain ⟨taken, eos, cs, ps, h, -⟩ := rdBytes_spec .pair s.params.block s
  unfold refillPairs
  rw [h]
  exact (afterRead_pair_frame 0 taken eos cs ps s).trans (setPairs_frame _ _ _)

theorem takeBit_frame (s : State) : PairInFrame s (takeBit s).2 := by
  simp only [takeBit, PairInFrame, State.setPBits]

theorem getBit_frame (s : State) : PairInFrame s (getBit s).2 := by
  unfold getBit
  split
  · simp only
    split
    · exact refillPairs_frame s
    · exact (refillPairs_frame s).trans (takeBit_frame _)
  · exact takeBit_frame s

theorem pairBit_afterRead (xs : List Byte) (e : Bool) (c : List Nat) (p : List (Nat × Nat)) (s : State) (i : Nat)
    (h : i < (xs.flatMap bitsOfByte).length) :
    pairBit (afterRead .pair 0 xs e c p s) i = (xs.flatMap bitsOfByte)[i] := by
  simp only [pairBit, afterRead, storeBytes, State.setSource_pairBuf, State.setBytesIn_pairBuf,
    State.setSrcEos_pairBuf, State.setPairBuf_pairBuf, Memory.get_setFrom, Nat.mul_zero, Nat.zero_le, true_and,
    Nat.zero_add, if_pos h, Nat.sub_zero, List.getElem?_eq_getElem h, Option.getD_some]

theorem refillPairs_spec (s : State) (h : s.pBits = 8 * s.pLen) (hb : 1 ≤ s.params.block)
    (hc : HostKeepsContract s) :
    pendingBits (refillPairs s) = pendingBits s ∧ HostKeepsContract (refillPairs s) ∧ (refillPairs s).pBits = 0 ∧
    (refillPairs s).pLen ≤ s.params.block ∧ ((refillPairs s).pLen = 0 ↔ pendingBits s = []) := by
  obtain ⟨taken, eos, cs, ps, h1, h2, h3, h4, h5, h6⟩ := rdBytes_spec .pair s.params.block s
  obtain ⟨h7, h8⟩ := h6 hc
  have hr : refillPairs s = ((afterRead .pair 0 taken eos cs ps s).setPLen taken.length).setPBits 0 := by
    unfold refillPairs; rw [h1]
  have hp : pendingBits s = if s.srcEos then [] else bitsOfBytes s.source := by simp [pendingBits, h]
  have hn : pendingBits (refillPairs s) =
      bitsOfBytes taken ++ if eos then [] else bitsOfBytes (s.source.drop taken.length) := by
    rw [hr, pendingBits]
    congr 1
    apply List.ext_getElem
    · rw [bitsOfBytes, length_flatMap_bitsOfByte]; simp
    · intro i g1 g2
      simp only [List.getElem_map, List.getElem_range']
      change pairBit (afterRead .pair 0 taken eos cs ps s) (0 + 1 * i) = _
      rw [Nat.zero_add, Nat.one_mul]
      exact pairBit_afterRead taken eos cs ps s i g2
  have nil_iff : ∀ l : List Byte, bitsOfBytes l = [] ↔ l = [] := by
    intro l
    rw [← List.length_eq_zero_iff, bitsOfBytes, length_flatMap_bitsOfByte, ← List.length_eq_zero_iff]
    omega
  refine ⟨?_, by rw [hr]; exact h7, by rw [hr]; rfl, by rw [hr]; exact h3, ?_⟩
  · rw [hn, hp]
    cases he : s.srcEos with
    | true => obtain ⟨rfl, rfl, -⟩ := h5 he; rfl
    | false =>
      obtain ⟨h9, h10⟩ := h8 he
      cases eos with
      | true =>
        have := h10.1 rfl
        simp only [if_true, List.append_nil]
        rw [h9, List.take_of_length_le (by omega)]; rfl
      | false =>
        have hl : taken.length = s.params.block := by
          by_contra hne; have := h4 (by omega); simp at this
        rw [h9] at hl
        simp only [Bool.false_eq_true, if_false]
        rw [h9, hl, bitsOfBytes, bitsOfBytes, ← List.flatMap_append, List.take_append_drop, bitsOfBytes]
  · rw [hr, hp]
    simp only [State.setPBits_pLen, State.setPLen_pLen, List.length_eq_zero_iff]
    cases he : s.srcEos with
    | true => obtain ⟨rfl, rfl, -⟩ := h5 he; simp
    | false =>
      obtain ⟨h9, -⟩ := h8 he
      simp only [Bool.false_eq_true, if_false, nil_iff]
      rw [h9, List.take_eq_nil_iff]
      constructor
      · rintro (h | h)
        · omega
        · exact h
      · exact fun h => .inr h

theorem takeBit_spec (s : State) (h : s.pBits < 8 * s.pLen) :
    ∃ b, takeBit s = (some b, s.setPBits (s.pBits + 1)) ∧
      pendingBits s = b :: pendingBits (s.setPBits (s.pBits + 1)) := by
  refine ⟨pairBit s s.pBits, rfl, ?_⟩
  simp only [pendingBits, State.setPBits_pBits, State.setPBits_pLen, State.setPBits_srcEos, State.setPBits_source]
  rw [show 8 * s.pLen - s.pBits = (8 * s.pLen - (s.pBits + 1)) + 1 by omega, List.range'_succ]
  rfl

/-- GET_BIT reads the first pending bit, or `exhausted` when none is pending (R124, R133). -/
theorem getBit_spec (s : State) (h : s.pBits ≤ 8 * s.pLen) (hb : 1 ≤ s.params.block)
    (hc : HostKeepsContract s) :
    (getBit s).1 = (pendingBits s).head? ∧ pendingBits (getBit s).2 = (pendingBits s).tail ∧
    HostKeepsContract (getBit s).2 := by
  unfold getBit
  split
  · rename_i he
    obtain ⟨h1, h2, h3, h4, h5⟩ := refillPairs_spec s he hb hc
    simp only
    split
    · rename_i h0
      have := h5.1 h0
      simp only [this, List.head?_nil, List.tail_nil, true_and]
      exact ⟨by rw [h1, this], h2⟩
    · rename_i h0
      obtain ⟨x, hx1, hx2⟩ := takeBit_spec (refillPairs s) (by omega)
      rw [hx1, ← h1, hx2]
      exact ⟨rfl, rfl, h2⟩
  · rename_i he
    obtain ⟨x, hx1, hx2⟩ := takeBit_spec s (by omega)
    rw [hx1, hx2]
    exact ⟨rfl, rfl, hc⟩

/-- The bounds GET_BIT leaves, whatever the host answers (R47). -/
theorem getBit_bounds (s : State) (h : s.pBits ≤ 8 * s.pLen) (hl : s.pLen ≤ s.params.block) :
    (getBit s).2.pBits ≤ 8 * (getBit s).2.pLen ∧ (getBit s).2.pLen ≤ s.params.block := by
  have hr : (refillPairs s).pBits = 0 ∧ (refillPairs s).pLen ≤ s.params.block := by
    obtain ⟨taken, eos, cs, ps, h1, h2, h3, -⟩ := rdBytes_spec .pair s.params.block s
    unfold refillPairs
    rw [h1]
    exact ⟨rfl, h3⟩
  unfold getBit
  split
  · simp only
    split
    · exact ⟨by rw [hr.1]; exact Nat.zero_le _, hr.2⟩
    · simp only [takeBit, State.setPBits_pBits, State.setPBits_pLen]
      omega
  · simp only [takeBit, State.setPBits_pBits, State.setPBits_pLen]
    omega

theorem readBits_frame (n : Nat) (s : State) : PairInFrame s (readBits n s).2 := by
  induction n generalizing s with
  | zero => rfl
  | succ n ih =>
    have h1 := getBit_frame s
    unfold readBits
    split
    · rename_i s1 heq; rw [heq] at h1; exact h1
    · rename_i b s1 heq
      rw [heq] at h1
      have h2 := h1.trans (ih s1)
      split <;> (rename_i h; rw [h] at h2; exact h2)

theorem readBits_bounds (n : Nat) (s : State) (h : s.pBits ≤ 8 * s.pLen) (hl : s.pLen ≤ s.params.block) :
    (readBits n s).2.pBits ≤ 8 * (readBits n s).2.pLen ∧ (readBits n s).2.pLen ≤ s.params.block := by
  induction n generalizing s with
  | zero => exact ⟨h, hl⟩
  | succ n ih =>
    have h1 := getBit_bounds s h hl
    have hf := (getBit_frame s).fields.1
    unfold readBits
    split
    · rename_i s1 heq; rw [heq] at h1; exact h1
    · rename_i b s1 heq
      rw [heq] at h1 hf
      simp only at hf h1
      have h2 := ih s1 h1.1 (by rw [hf]; exact h1.2)
      rw [hf] at h2
      split <;> (rename_i h; rw [h] at h2; exact h2)

/-- A field of `n` bits is the first `n` pending bits, read least significant first; with fewer pending, none is left
and the field is not read (R93, R126). -/
theorem readBits_spec (n : Nat) (s : State) (h : s.pBits ≤ 8 * s.pLen) (hl : s.pLen ≤ s.params.block)
    (hb : 1 ≤ s.params.block) (hc : HostKeepsContract s) :
    (readBits n s).1 = (if n ≤ (pendingBits s).length then some (natOfBits ((pendingBits s).take n)) else none) ∧
    pendingBits (readBits n s).2 = (pendingBits s).drop n ∧ HostKeepsContract (readBits n s).2 := by
  induction n generalizing s with
  | zero => simp [readBits, natOfBits, hc]
  | succ n ih =>
    obtain ⟨h1, h2, h3⟩ := getBit_spec s h hb hc
    obtain ⟨b1, b2⟩ := getBit_bounds s h hl
    have hf := (getBit_frame s).fields.1
    unfold readBits
    split
    · rename_i s1 heq
      rw [heq] at h1 h2 h3
      simp only at h1 h2 h3
      have hnil : pendingBits s = [] := by
        cases hp : pendingBits s with
        | nil => rfl
        | cons a l => rw [hp] at h1; simp at h1
      simp [hnil, h2, h3]
    · rename_i b s1 heq
      rw [heq] at h1 h2 h3 b1 b2 hf
      simp only at h1 h2 h3 b1 b2 hf
      obtain ⟨l, hp⟩ : ∃ l, pendingBits s = b :: l := by
        cases hp : pendingBits s with
        | nil => rw [hp] at h1; simp at h1
        | cons a l => rw [hp] at h1; simp at h1; exact ⟨l, by rw [h1]⟩
      rw [hp, List.tail_cons] at h2
      obtain ⟨g1, g2, g3⟩ := ih s1 b1 (by rw [hf]; exact b2) (by rw [hf]; exact hb) h3
      rw [h2] at g1 g2
      split
      · rename_i s2 heq2
        rw [heq2] at g1 g2 g3
        simp only at g1 g2 g3
        have : ¬ n ≤ l.length := by
          intro hle; rw [if_pos hle] at g1; simp at g1
        simp [hp, g2, g3, this]
      · rename_i v s2 heq2
        rw [heq2] at g1 g2 g3
        simp only at g1 g2 g3
        have hle : n ≤ l.length := by
          by_contra hle; rw [if_neg hle] at g1; simp at g1
        rw [if_pos hle] at g1
        simp only [Option.some.injEq] at g1
        simp [hp, g2, g3, hle, g1, natOfBits]

theorem rdPair_frame (w : Nat) (s : State) : PairInFrame s (rdPair w s).2 := by
  have h1 := readBits_frame w s
  unfold rdPair
  split
  · rename_i s1 heq; rw [heq] at h1; exact h1
  · rename_i code s1 heq
    rw [heq] at h1
    have h2 := h1.trans (readBits_frame 8 s1)
    split <;> (rename_i h; rw [h] at h2; exact h2)

theorem rdPair_bounds (w : Nat) (s : State) (h : s.pBits ≤ 8 * s.pLen) (hl : s.pLen ≤ s.params.block) :
    (rdPair w s).2.pBits ≤ 8 * (rdPair w s).2.pLen ∧ (rdPair w s).2.pLen ≤ s.params.block := by
  have h1 := readBits_bounds w s h hl
  have hf := (readBits_frame w s).fields.1
  unfold rdPair
  split
  · rename_i s1 heq; rw [heq] at h1; exact h1
  · rename_i code s1 heq
    rw [heq] at h1 hf
    simp only at h1 hf
    have h2 := readBits_bounds 8 s1 h1.1 (by rw [hf]; exact h1.2)
    rw [hf] at h2
    split <;> (rename_i h; rw [h] at h2; exact h2)

/-- RD_PAIR reads `w + 8` pending bits as a code and a symbol, or, with fewer pending, is truncated (R126). -/
theorem rdPair_spec (w : Nat) (s : State) (h : s.pBits ≤ 8 * s.pLen) (hl : s.pLen ≤ s.params.block)
    (hb : 1 ≤ s.params.block) (hc : HostKeepsContract s) :
    (rdPair w s).1 = (if w + 8 ≤ (pendingBits s).length then
        some (natOfBits ((pendingBits s).take w), byteOfBits (((pendingBits s).drop w).take 8),
          natOfBits ((pendingBits s).take w) != s.params.stopCode)
      else none) ∧
    (w + 8 ≤ (pendingBits s).length → pendingBits (rdPair w s).2 = (pendingBits s).drop (w + 8)) ∧
    HostKeepsContract (rdPair w s).2 := by
  obtain ⟨h1, h2, h3⟩ := readBits_spec w s h hl hb hc
  obtain ⟨b1, b2⟩ := readBits_bounds w s h hl
  have hf := (readBits_frame w s).fields.1
  unfold rdPair
  split
  · rename_i s1 heq
    rw [heq] at h1 h2 h3
    simp only at h1 h2 h3
    have : ¬ w ≤ (pendingBits s).length := by
      intro hle; rw [if_pos hle] at h1; simp at h1
    rw [if_neg (by omega)]
    exact ⟨rfl, fun _ => by omega, h3⟩
  · rename_i code s1 heq
    rw [heq] at h1 h2 h3 b1 b2 hf
    simp only at h1 h2 h3 b1 b2 hf
    have hle : w ≤ (pendingBits s).length := by
      by_contra hle; rw [if_neg hle] at h1; simp at h1
    rw [if_pos hle] at h1
    simp only [Option.some.injEq] at h1
    obtain ⟨g1, g2, g3⟩ := readBits_spec 8 s1 b1 (by rw [hf]; exact b2) (by rw [hf]; exact hb) h3
    have hf2 := (readBits_frame 8 s1).fields.1
    rw [h2, List.length_drop] at g1
    rw [h2, List.drop_drop] at g2
    split
    · rename_i s2 heq2
      rw [heq2] at g1 g2 g3
      simp only at g1 g2 g3
      have : ¬ 8 ≤ (pendingBits s).length - w := by
        intro hle; rw [if_pos hle] at g1; simp at g1
      rw [if_neg (by omega)]
      exact ⟨rfl, fun _ => by omega, g3⟩
    · rename_i v s2 heq2
      rw [heq2] at g1 g2 g3 hf2
      simp only at g1 g2 g3 hf2
      have hle8 : 8 ≤ (pendingBits s).length - w := by
        by_contra hle; rw [if_neg hle] at g1; simp at g1
      rw [if_pos hle8] at g1
      simp only [Option.some.injEq] at g1
      rw [if_pos (by omega)]
      refine ⟨?_, fun _ => g2, g3⟩
      simp [h1, g1, byteOfBits, hf2, hf]

end Sys2Proof.Machine
end

