-- ==== Sys2Proof/Laws/Output.lean ====
section
/-! SUPPORT. What the output side of the codec does: WR_BYTES, PUT_BIT, WR_PAIR, FLUSH_PAIRS, WR_RUN, FLUSH_SYMS. For
each, what it may change (a `…_frame` lemma) and what it adds to the stream it writes. -/

namespace Sys2Proof.Machine

theorem PairOutFrame.refl (s : State) : PairOutFrame s s := rfl
theorem SymOutFrame.refl (s : State) : SymOutFrame s s := rfl

theorem PairOutFrame.trans {s t u : State} (h1 : PairOutFrame s t) (h2 : PairOutFrame t u) : PairOutFrame s u := by
  unfold PairOutFrame at *
  rw [h1] at h2
  exact h2

theorem SymOutFrame.trans {s t u : State} (h1 : SymOutFrame s t) (h2 : SymOutFrame t u) : SymOutFrame s u := by
  unfold SymOutFrame at *
  rw [h1] at h2
  exact h2

theorem PairOutFrame.fields {s t : State} (h : PairOutFrame s t) :
    t.params = s.params ∧ t.phase = s.phase ∧ t.mode = s.mode ∧ t.nextCode = s.nextCode ∧ t.cur = s.cur ∧
    t.prev = s.prev ∧ t.lastSym = s.lastSym ∧ t.child = s.child ∧ t.wt = s.wt ∧ t.draws = s.draws ∧
    t.trunc = s.trunc ∧ t.cause = s.cause ∧ t.info = s.info ∧ t.srcEos = s.srcEos ∧ t.source = s.source ∧
    t.cuts = s.cuts ∧ t.moves = s.moves ∧ t.symBuf = s.symBuf ∧ t.sIdx = s.sIdx ∧ t.sLen = s.sLen ∧
    t.pLen = s.pLen := by
  unfold PairOutFrame at h
  rw [h]
  simp

theorem SymOutFrame.fields {s t : State} (h : SymOutFrame s t) :
    t.params = s.params ∧ t.phase = s.phase ∧ t.mode = s.mode ∧ t.nextCode = s.nextCode ∧ t.cur = s.cur ∧
    t.prev = s.prev ∧ t.lastSym = s.lastSym ∧ t.child = s.child ∧ t.wt = s.wt ∧ t.draws = s.draws ∧
    t.trunc = s.trunc ∧ t.cause = s.cause ∧ t.info = s.info ∧ t.srcEos = s.srcEos ∧ t.source = s.source ∧
    t.cuts = s.cuts ∧ t.moves = s.moves ∧ t.pairBuf = s.pairBuf ∧ t.sIdx = s.sIdx ∧ t.pBits = s.pBits ∧
    t.pLen = s.pLen := by
  unfold SymOutFrame at h
  rw [h]
  simp

@[simp] theorem sinkBytes_wrBytes (buf : Buf) (n : Nat) (s : State) :
    sinkBytes (wrBytes buf n s) = sinkBytes s ++ bufFront s buf n := by
  simp [sinkBytes, wrBytes]

@[simp] theorem length_bufFront (s : State) (buf : Buf) (n : Nat) : (bufFront s buf n).length = n := by
  simp [bufFront]

@[simp] theorem bitsOfBytes_append (xs ys : List Byte) :
    bitsOfBytes (xs ++ ys) = bitsOfBytes xs ++ bitsOfBytes ys := by simp [bitsOfBytes]

/-- The bits of the first `n` bytes of PAIRBUF are its first `8 * n` bits. -/
theorem bitsOfBytes_bufFront_pair (s : State) (n : Nat) :
    bitsOfBytes (bufFront s .pair n) = (List.range (8 * n)).map (pairBit s) := by
  induction n with
  | zero => rfl
  | succ n ih =>
    have h1 : bufFront s .pair (n + 1) = bufFront s .pair n ++ [pairByte s n] := by
      simp [bufFront, List.range_succ, bufByte]
    have h2 : bitsOfByte (pairByte s n) = (List.range 8).map fun k => pairBit s (8 * n + k) :=
      bitsOfByte_byteOfBits (by simp)
    rw [h1, bitsOfBytes_append, ih, show 8 * (n + 1) = 8 * n + 8 by ring, List.range_add]
    simp [bitsOfBytes, h2, Function.comp_def]

/-! PUT_BIT and WR_PAIR. -/

theorem putBit_frame (b : Bool) (s : State) : PairOutFrame s (putBit b s) := by
  unfold putBit
  simp only
  split <;> rfl

theorem pairBit_set (s : State) (p q : Nat) (b : Bool) (n : Nat) :
    pairBit ((s.setPairBuf (s.pairBuf.set p b)).setPBits n) q = if p = q then b else pairBit s q := by
  simp only [pairBit, State.setPBits_pairBuf, State.setPairBuf_pairBuf, State.setPBits_draws,
    State.setPairBuf_draws, Memory.get_set]
  split <;> simp

/-- PUT_BIT appends its bit to the packed bits, and the cursor stays inside the buffer (R125). -/
theorem putBit_spec (b : Bool) (s : State) (h : s.pBits < 8 * s.params.block) :
    packedBits (putBit b s) = packedBits s ++ [b] ∧ (putBit b s).pBits < 8 * s.params.block := by
  have key : ∀ n, n ≤ s.pBits → (List.range n).map
      (pairBit ((s.setPairBuf (s.pairBuf.set s.pBits b)).setPBits (s.pBits + 1))) =
      (List.range n).map (pairBit s) := by
    intro n hn
    apply List.map_congr_left
    intro q hq
    rw [pairBit_set, if_neg (by have := List.mem_range.1 hq; omega)]
  have all : (List.range (s.pBits + 1)).map
      (pairBit ((s.setPairBuf (s.pairBuf.set s.pBits b)).setPBits (s.pBits + 1))) =
      (List.range s.pBits).map (pairBit s) ++ [b] := by
    rw [List.range_succ, List.map_append, key _ le_rfl]
    simp [pairBit_set]
  unfold putBit
  simp only
  by_cases hf : s.pBits + 1 = 8 * s.params.block
  · rw [if_pos hf]
    constructor
    · simp only [packedBits, State.setPBits_pBits, List.range_zero, List.map_nil, List.append_nil]
      have e : sinkBytes ((wrBytes .pair s.params.block
          ((s.setPairBuf (s.pairBuf.set s.pBits b)).setPBits (s.pBits + 1))).setPBits 0) =
          sinkBytes s ++ bufFront ((s.setPairBuf (s.pairBuf.set s.pBits b)).setPBits (s.pBits + 1)) .pair
            s.params.block := by
        simp [sinkBytes, wrBytes]
      rw [e, bitsOfBytes_append, bitsOfBytes_bufFront_pair, ← hf, all, List.append_assoc]
    · simp; omega
  · rw [if_neg hf]
    constructor
    · simp only [packedBits, State.setPBits_pBits, all]
      simp [sinkBytes]
    · simp; omega

theorem putBits_frame (bs : List Bool) (s : State) : PairOutFrame s (putBits bs s) := by
  induction bs generalizing s with
  | nil => exact .refl s
  | cons b bs ih => exact (putBit_frame b s).trans (ih _)

theorem putBits_spec (bs : List Bool) (s : State) (h : s.pBits < 8 * s.params.block) :
    packedBits (putBits bs s) = packedBits s ++ bs ∧ (putBits bs s).pBits < 8 * s.params.block := by
  induction bs generalizing s with
  | nil => simp [putBits, h]
  | cons b bs ih =>
    have hb := putBit_spec b s h
    have hp := (putBit_frame b s).fields.1
    have := ih (putBit b s) (by rw [hp]; exact hb.2)
    rw [hp] at this
    simp only [putBits]
    exact ⟨by rw [this.1, hb.1]; simp, this.2⟩

theorem wrPair_frame (code : Nat) (sym : Symbol) (w : Nat) (s : State) : PairOutFrame s (wrPair code sym w s) :=
  (putBits_frame _ s).trans (putBits_frame _ _)

/-- WR_PAIR appends the low `w` bits of the code and the eight of the symbol (R127). -/
theorem wrPair_spec (code : Nat) (sym : Symbol) (w : Nat) (s : State) (h : s.pBits < 8 * s.params.block) :
    packedBits (wrPair code sym w s) = packedBits s ++ (bitsLE w code ++ bitsOfByte sym) ∧
    (wrPair code sym w s).pBits < 8 * s.params.block := by
  have h1 := putBits_spec (bitsLE w code) s h
  have hp := (putBits_frame (bitsLE w code) s).fields.1
  have h2 := putBits_spec (bitsOfByte sym) (putBits (bitsLE w code) s) (by rw [hp]; exact h1.2)
  rw [hp] at h2
  exact ⟨by rw [wrPair, h2.1, h1.1, List.append_assoc], h2.2⟩

theorem flushPairs_frame (s : State) : PairOutFrame s (flushPairs s) := by
  unfold flushPairs
  simp only
  split <;> rfl

/-- FLUSH_PAIRS sends every pending bit to the sink, completed with fewer than 8 zeros (R128). -/
theorem flushPairs_spec (s : State) :
    bitsOfBytes (sinkBytes (flushPairs s)) =
      packedBits s ++ List.replicate (8 * ((s.pBits + 7) / 8) - s.pBits) false ∧ (flushPairs s).pBits = 0 := by
  refine ⟨?_, by simp [flushPairs]⟩
  unfold flushPairs
  simp only
  split
  · rename_i hn
    have e : sinkBytes ((wrBytes .pair ((s.pBits + 7) / 8) (s.setPairBuf (s.pairBuf.setFrom s.pBits
        (List.replicate (8 * ((s.pBits + 7) / 8) - s.pBits) false)))).setPBits 0) = sinkBytes s ++
        bufFront (s.setPairBuf (s.pairBuf.setFrom s.pBits
        (List.replicate (8 * ((s.pBits + 7) / 8) - s.pBits) false))) .pair ((s.pBits + 7) / 8) := by
      simp [sinkBytes, wrBytes]
    rw [e, bitsOfBytes_append, bitsOfBytes_bufFront_pair, packedBits, List.append_assoc]
    congr 1
    apply List.ext_getElem
    · simp; omega
    · intro i h1 h2
      simp only [List.length_map, List.length_range] at h1
      simp only [List.getElem_map, List.getElem_range, pairBit, State.setPairBuf_pairBuf, State.setPairBuf_draws,
        Memory.get_setFrom, List.length_replicate, List.getElem_append, List.length_map, List.length_range]
      by_cases hi : i < s.pBits
      · rw [dif_pos hi, if_neg (by omega)]
      · rw [dif_neg hi, if_pos (by omega)]
        rw [List.getElem?_replicate, if_pos (by omega), List.getElem_replicate]
        rfl
  · have h0 : s.pBits = 0 := by omega
    simp [packedBits, h0, sinkBytes, bitsOfBytes]

/-! WR_RUN and FLUSH_SYMS. -/

theorem wrSym_frame (x : Symbol) (s : State) : SymOutFrame s (wrSym x s) := by
  unfold wrSym
  simp only
  split <;> rfl

theorem bufFront_sym_set (s : State) (n : Nat) (x : Symbol) (m : Nat) (h : n ≤ s.sLen) :
    bufFront ((s.setSymBuf (s.symBuf.set s.sLen x)).setSLen m) .sym n = bufFront s .sym n := by
  apply List.map_congr_left
  intro q hq
  have := List.mem_range.1 hq
  simp [bufByte, symByte, Memory.get_set, show s.sLen ≠ q by omega]

/-- One symbol of WR_RUN is appended to the written bytes, and the index stays inside the buffer (R123). -/
theorem wrSym_spec (x : Symbol) (s : State) (h : s.sLen < s.params.block) :
    writtenBytes (wrSym x s) = writtenBytes s ++ [x] ∧ (wrSym x s).sLen < s.params.block := by
  have all : bufFront ((s.setSymBuf (s.symBuf.set s.sLen x)).setSLen (s.sLen + 1)) .sym (s.sLen + 1) =
      bufFront s .sym s.sLen ++ [x] := by
    have h1 := bufFront_sym_set s s.sLen x (s.sLen + 1) le_rfl
    unfold bufFront at h1 ⊢
    rw [List.range_succ, List.map_append, h1]
    simp [bufByte, symByte, Memory.get_set]
  unfold wrSym
  simp only
  by_cases hf : s.sLen + 1 = s.params.block
  · rw [if_pos hf]
    constructor
    · have e : sinkBytes ((wrBytes .sym s.params.block
          ((s.setSymBuf (s.symBuf.set s.sLen x)).setSLen (s.sLen + 1))).setSLen 0) =
          sinkBytes s ++ bufFront ((s.setSymBuf (s.symBuf.set s.sLen x)).setSLen (s.sLen + 1)) .sym
            s.params.block := by
        simp [sinkBytes, wrBytes]
      rw [writtenBytes, e, ← hf, all, writtenBytes]
      simp [bufFront]
    · simp; omega
  · rw [if_neg hf]
    constructor
    · rw [writtenBytes, writtenBytes]
      simp only [State.setSLen_sLen, all]
      simp [sinkBytes]
    · simp; omega

theorem wrRun_frame (word : List Symbol) (s : State) : SymOutFrame s (wrRun word s) := by
  induction word generalizing s with
  | nil => exact .refl s
  | cons x xs ih => exact (wrSym_frame x s).trans (ih _)

/-- WR_RUN appends the word to the written bytes (R123). -/
theorem wrRun_spec (word : List Symbol) (s : State) (h : s.sLen < s.params.block) :
    writtenBytes (wrRun word s) = writtenBytes s ++ word ∧ (wrRun word s).sLen < s.params.block := by
  induction word generalizing s with
  | nil => simp [wrRun, h]
  | cons x xs ih =>
    have hx := wrSym_spec x s h
    have hp := (wrSym_frame x s).fields.1
    have := ih (wrSym x s) (by rw [hp]; exact hx.2)
    rw [hp] at this
    simp only [wrRun]
    exact ⟨by rw [this.1, hx.1]; simp, this.2⟩

theorem flushSyms_frame (s : State) : SymOutFrame s (flushSyms s) := by
  unfold flushSyms
  split <;> rfl

/-- FLUSH_SYMS sends every pending byte to the sink (R129). -/
theorem flushSyms_spec (s : State) : sinkBytes (flushSyms s) = writtenBytes s ∧ (flushSyms s).sLen = 0 := by
  refine ⟨?_, by simp [flushSyms]⟩
  unfold flushSyms
  split
  · simp [sinkBytes, wrBytes, writtenBytes]
  · have h0 : s.sLen = 0 := by omega
    simp [writtenBytes, h0, sinkBytes, bufFront]

end Sys2Proof.Machine
end

