-- ==== Sys2Proof/Laws/Run.lean ====
section
/-! SUPPORT. What the dictionary, code-width and run operations do: BITLEN, ADVANCE, one link, one word, the effects of
ENC_SYM, ENC_EOS, DEC_PAIR, and the start of a run. -/

namespace Sys2Proof.Machine

/-! BITLEN (R190). -/

theorem bitlen_of_pos {n : Nat} (h : 1 ≤ n) : bitlen n = n.log2 + 1 := by
  unfold bitlen
  rw [if_neg (by omega)]

theorem lt_two_pow_bitlen {n : Nat} (h : 1 ≤ n) : n < 2 ^ bitlen n := by
  rw [bitlen_of_pos h]
  exact (Nat.log2_lt (by omega)).1 (Nat.lt_succ_self _)

theorem bitlen_le_of_lt {n w : Nat} (h : 1 ≤ n) (hw : n < 2 ^ w) : bitlen n ≤ w := by
  rw [bitlen_of_pos h]
  exact (Nat.log2_lt (by omega)).2 hw

theorem bitlen_mono {m n : Nat} (hm : 1 ≤ m) (h : m ≤ n) : bitlen m ≤ bitlen n :=
  bitlen_le_of_lt hm (h.trans_lt (lt_two_pow_bitlen (hm.trans h)))

theorem bitlen_succ_le {n : Nat} (h : 1 ≤ n) : bitlen (n + 1) ≤ bitlen n + 1 := by
  apply bitlen_le_of_lt (by omega)
  have := lt_two_pow_bitlen h
  rw [pow_succ]
  omega

/-! Parameters. -/

theorem Params.wf_iff (p : Params) : p.wf = true ↔
    p.stopCode ≠ p.emptyCode ∧ p.startCode = max p.stopCode p.emptyCode + 1 ∧ 2 ≤ p.startCode ∧
    p.maxCode = 2 ^ p.codeBits ∧ p.startCode < p.maxCode ∧ 1 ≤ p.block := by
  simp only [Params.wf, Params.codeBits, Bool.and_eq_true, bne_iff_ne, beq_iff_eq, decide_eq_true_eq, and_assoc,
    ge_iff_le, ne_eq]

/-- The width of a record of a run is one that occurs on the machine (R194). -/
theorem recordWidth_range {p : Params} (h : p.wf = true) {n : Nat} (hl : p.startCode ≤ n) (hh : n < p.maxCode) :
    p.minWidth ≤ bitlen n ∧ bitlen n ≤ p.codeBits ∧ 2 ≤ bitlen n := by
  obtain ⟨-, -, h2, hm, -, -⟩ := (Params.wf_iff p).1 h
  have e : p.minWidth = bitlen p.startCode := by rw [bitlen_of_pos (by omega)]; rfl
  refine ⟨?_, ?_, ?_⟩
  · rw [e]; exact bitlen_mono (by omega) hl
  · exact bitlen_le_of_lt (by omega) (by omega)
  · exact (show 2 = bitlen 2 by simp [bitlen]) ▸ bitlen_mono (by omega) (by omega)

/-! ADVANCE (R192). -/

theorem advance_eq (s : State) : advance s =
    if s.nextCode + 1 = s.params.maxCode then (.reset, s.setNextCode s.params.startCode)
    else (.continued, s.setNextCode (s.nextCode + 1)) := rfl

theorem advanceWith_eq (f : State → State) (s : State) : advanceWith f s =
    if s.nextCode + 1 = s.params.maxCode then f (s.setNextCode s.params.startCode)
    else s.setNextCode (s.nextCode + 1) := by
  unfold advanceWith advance
  by_cases h : s.nextCode + 1 = s.params.maxCode
  · simp only [if_pos h]
  · simp only [if_neg h]

/-! One link, one word. -/

theorem trieKey_inj {n m : Nat} {x y : Symbol} (h : trieKey n x = trieKey m y) : n = m ∧ x = y := by
  have hx := x.isLt
  have hy := y.isLt
  unfold trieKey at h
  refine ⟨by omega, BitVec.eq_of_toNat_eq (by omega)⟩

/-- A stored link reads as stored; every other link reads as before (R30). -/
theorem childAt_set (s : State) (n m c : Nat) (x y : Symbol) :
    childAt (s.setChild (s.child.set (trieKey n x) c)) m y = if n = m ∧ x = y then some c else childAt s m y := by
  simp only [childAt, State.setChild_child, Memory.get_set]
  by_cases h : n = m ∧ x = y
  · rw [if_pos h, if_pos (by rw [h.1, h.2])]
  · rw [if_neg h, if_neg fun e => h (trieKey_inj e)]

@[simp] theorem childAt_nil (s : State) (h : s.child = []) (n : Nat) (x : Symbol) : childAt s n x = none := by
  simp [childAt, h]

theorem childAt_congr {s t : State} (h : t.child = s.child) : childAt t = childAt s := by
  funext n x; simp [childAt, h]

theorem wordAt_congr {s t : State} (h : t.wt = s.wt) : wordAt t = wordAt s := by
  funext c; simp [wordAt, h]

/-- A stored word reads as stored; every other slot reads as before (R33). -/
theorem wordAt_set (s : State) (a c : Nat) (w : List Symbol) :
    wordAt (s.setWt (s.wt.set a w)) c = if a = c then some w else wordAt s c := by
  simp [wordAt, Memory.get_set]

/-- WT_RESET leaves the slot of EMPTY_CODE and clears every other (R173). -/
theorem wordAt_wtReset (s : State) (c : Nat) :
    wordAt (wtReset s) c = if c = s.params.emptyCode then wordAt s c else none := by
  simp [wordAt, wtReset, Memory.get_filter]

/-! The effects of the engine's operations, with their reads resolved. -/

/-- ENC_SYM.MISS (R153). -/
theorem miss_eq (x : Symbol) (s : State) : miss x s =
    if s.nextCode + 1 = s.params.maxCode then
      ((((wrPair s.cur x (recordWidth s) s).setLastSym x).setCur s.params.emptyCode).setNextCode
        s.params.startCode).setChild []
    else
      ((((wrPair s.cur x (recordWidth s) s).setChild (s.child.set (trieKey s.cur x) s.nextCode)).setLastSym x).setCur
        s.params.emptyCode).setNextCode (s.nextCode + 1) := by
  have f := (wrPair_frame s.cur x (recordWidth s) s).fields
  unfold miss
  generalize wrPair s.cur x (recordWidth s) s = s1 at f
  simp only [advanceWith_eq, State.setCur_nextCode, State.setLastSym_nextCode, State.setChild_nextCode,
    State.setCur_params, State.setLastSym_params, State.setChild_params, f.1, f.2.2.2.1, f.2.2.2.2.1,
    f.2.2.2.2.2.2.2.1]
  rfl

/-- The final-flush pair of ENC_EOS (R155, R156). -/
theorem finalFlush_eq (s : State) : finalFlush s =
    if s.cur = s.params.emptyCode then s
    else if s.nextCode + 1 = s.params.maxCode then
      (((wrPair s.prev s.lastSym (recordWidth s) s).setCur s.params.emptyCode).setNextCode
        s.params.startCode).setChild []
    else
      ((wrPair s.prev s.lastSym (recordWidth s) s).setCur s.params.emptyCode).setNextCode (s.nextCode + 1) := by
  have f := (wrPair_frame s.prev s.lastSym (recordWidth s) s).fields
  unfold finalFlush
  generalize wrPair s.prev s.lastSym (recordWidth s) s = s1 at f
  simp only [advanceWith_eq, State.setCur_nextCode, State.setCur_params, f.1, f.2.2.2.1]
  rfl

/-- DEC_PAIR (R171). -/
theorem appendWord_eq (word : List Symbol) (x : Symbol) (s : State) : appendWord word x s =
    if s.nextCode + 1 = s.params.maxCode then
      wtReset ((wrRun (word ++ [x]) (s.setWt (s.wt.set s.nextCode (word ++ [x])))).setNextCode s.params.startCode)
    else
      (wrRun (word ++ [x]) (s.setWt (s.wt.set s.nextCode (word ++ [x])))).setNextCode (s.nextCode + 1) := by
  have f := (wrRun_frame (word ++ [x]) (s.setWt (s.wt.set s.nextCode (word ++ [x])))).fields
  unfold appendWord
  simp only [advanceWith_eq, f.1, f.2.2.2.1, State.setWt_params, State.setWt_nextCode]

/-- The end of a run leaves everything but the phase and the state R46 calls unspecified. -/
theorem endRun_frame (p : Phase) (s : State) : DeadFrame (s.setPhase p) (endRun p s) := rfl

@[simp] theorem endRun_params (p : Phase) (s : State) : (endRun p s).params = s.params := rfl
@[simp] theorem endRun_phase (p : Phase) (s : State) : (endRun p s).phase = p := rfl
@[simp] theorem endRun_mode (p : Phase) (s : State) : (endRun p s).mode = s.mode := rfl
@[simp] theorem endRun_srcEos (p : Phase) (s : State) : (endRun p s).srcEos = s.srcEos := rfl
@[simp] theorem endRun_trunc (p : Phase) (s : State) : (endRun p s).trunc = s.trunc := rfl
@[simp] theorem endRun_cause (p : Phase) (s : State) : (endRun p s).cause = s.cause := rfl
@[simp] theorem endRun_info (p : Phase) (s : State) : (endRun p s).info = s.info := rfl
@[simp] theorem endRun_bytesIn (p : Phase) (s : State) : (endRun p s).bytesIn = s.bytesIn := rfl
@[simp] theorem endRun_bytesOut (p : Phase) (s : State) : (endRun p s).bytesOut = s.bytesOut := rfl
@[simp] theorem endRun_source (p : Phase) (s : State) : (endRun p s).source = s.source := rfl
@[simp] theorem endRun_cuts (p : Phase) (s : State) : (endRun p s).cuts = s.cuts := rfl
@[simp] theorem endRun_pulls (p : Phase) (s : State) : (endRun p s).pulls = s.pulls := rfl
@[simp] theorem endRun_sink (p : Phase) (s : State) : (endRun p s).sink = s.sink := rfl
@[simp] theorem endRun_moves (p : Phase) (s : State) : (endRun p s).moves = s.moves := rfl
@[simp] theorem endRun_result (p : Phase) (s : State) : (endRun p s).result = s.result := rfl

/-- A start outside a run; while BUSY nothing (R211, R212, R214). -/
theorem startRun_eq (m : Mode) (s : State) : startRun m s =
    if busy s then s else (runInit (s.setMode m)).setPhase (match m with | .enc => .encRun | .dec => .decRun) := rfl

theorem busy_iff (s : State) : busy s = true ↔ s.phase = .encRun ∨ s.phase = .decRun := by
  simp [busy]

end Sys2Proof.Machine
end

