-- ==== Sys2Proof/Laws/Canonical.lean ====
section
/-! SUPPORT. Every shared operation keeps the memories canonical and inside their address ranges. -/

namespace Sys2Proof.Machine

/-- The memory invariant is about five fields. -/
theorem MemoryInv.congr {s t : State} (h : MemoryInv s) (hp : t.params = s.params) (hc : t.child = s.child)
    (hw : t.wt = s.wt) (hs : t.symBuf = s.symBuf) (hb : t.pairBuf = s.pairBuf) : MemoryInv t := by
  obtain ⟨h1, h2, h3, h4, h5, h6, h7, h8⟩ := h
  exact ⟨hc ▸ h1, hw ▸ h2, hs ▸ h3, hb ▸ h4, hc ▸ hp ▸ h5, hw ▸ hp ▸ h6, hs ▸ hp ▸ h7, hb ▸ hp ▸ h8⟩

theorem MemoryInv.setChild {s : State} (h : MemoryInv s) {m : Memory Nat} (hm : m.wf = true)
    (hr : ∀ c ∈ m, c.1 < 256 * s.params.maxCode ∧ c.2 < s.params.maxCode) : MemoryInv (s.setChild m) :=
  ⟨hm, h.2, h.3, h.4, hr, h.6, h.7, h.8⟩

theorem MemoryInv.setWt {s : State} (h : MemoryInv s) {m : Memory (List Symbol)} (hm : m.wf = true)
    (hr : ∀ c ∈ m, c.1 < s.params.maxCode) : MemoryInv (s.setWt m) := ⟨h.1, hm, h.3, h.4, h.5, hr, h.7, h.8⟩

theorem MemoryInv.setSymBuf {s : State} (h : MemoryInv s) {m : Memory Byte} (hm : m.wf = true)
    (hr : ∀ c ∈ m, c.1 < s.params.block) : MemoryInv (s.setSymBuf m) := ⟨h.1, h.2, hm, h.4, h.5, h.6, hr, h.8⟩

theorem MemoryInv.setPairBuf {s : State} (h : MemoryInv s) {m : Memory Bool} (hm : m.wf = true)
    (hr : ∀ c ∈ m, c.1 < 8 * s.params.block) : MemoryInv (s.setPairBuf m) := ⟨h.1, h.2, h.3, hm, h.5, h.6, h.7, hr⟩

/-- A link stored at a code's node, to a code, keeps the trie in its range. -/
theorem Memory.range_link {m : Memory Nat} {n c b : Nat} {x : Symbol} (hr : ∀ d ∈ m, d.1 < 256 * b ∧ d.2 < b)
    (hn : n < b) (hc : c < b) : ∀ d ∈ m.set (trieKey n x) c, d.1 < 256 * b ∧ d.2 < b := by
  intro d hd
  rcases Memory.mem_set hd with rfl | hd
  · have := x.isLt
    exact ⟨by simp only [trieKey]; omega, hc⟩
  · exact hr d hd

/-- A value stored below a bound keeps every address below it. -/
theorem Memory.range_set {α : Type} {m : Memory α} {a b : Nat} {v : α} (hr : ∀ c ∈ m, c.1 < b) (h : a < b) :
    ∀ c ∈ m.set a v, c.1 < b := by
  intro c hc
  rcases Memory.mem_set hc with rfl | hc
  · exact h
  · exact hr c hc

/-- Values stored at `a`, `a + 1`, ... below a bound keep every address below it. -/
theorem Memory.range_setFrom {α : Type} {m : Memory α} {a b : Nat} {vs : List α} (hr : ∀ c ∈ m, c.1 < b)
    (h : a + vs.length ≤ b ∨ vs = []) : ∀ c ∈ m.setFrom a vs, c.1 < b := by
  intro c hc
  rcases Memory.mem_setFrom hc with h1 | ⟨d, hd, h1⟩
  · rcases h with h | rfl
    · omega
    · simp at h1; omega
  · rw [← h1]; exact hr d hd

/-! The output side. -/

theorem putBit_memory (b : Bool) {s : State} (h : MemoryInv s) (hp : s.pBits < 8 * s.params.block) :
    MemoryInv (putBit b s) := by
  have h1 : MemoryInv (s.setPairBuf (s.pairBuf.set s.pBits b)) := by
    exact h.setPairBuf (Memory.wf_set h.pairBuf_wf _ _) (Memory.range_set h.pairBuf_range hp)
  unfold putBit
  simp only
  split <;> exact h1.congr rfl rfl rfl rfl rfl

theorem putBits_memory (bs : List Bool) {s : State} (h : MemoryInv s) (hp : s.pBits < 8 * s.params.block) :
    MemoryInv (putBits bs s) := by
  induction bs generalizing s with
  | nil => exact h
  | cons b bs ih =>
    have e := (putBit_frame b s).fields.1
    exact ih (putBit_memory b h hp) (by rw [e]; exact (putBit_spec b s hp).2)

theorem wrPair_memory (code : Nat) (x : Symbol) (w : Nat) {s : State} (h : MemoryInv s)
    (hp : s.pBits < 8 * s.params.block) : MemoryInv (wrPair code x w s) := by
  have e := (putBits_frame (bitsLE w code) s).fields.1
  exact putBits_memory _ (putBits_memory _ h hp) (by rw [e]; exact (putBits_spec _ s hp).2)

theorem flushPairs_memory {s : State} (h : MemoryInv s) (hp : s.pBits ≤ 8 * s.params.block) :
    MemoryInv (flushPairs s) := by
  have h1 : MemoryInv (s.setPairBuf (s.pairBuf.setFrom s.pBits
      (List.replicate (8 * ((s.pBits + 7) / 8) - s.pBits) false))) := by
    refine h.setPairBuf (Memory.wf_setFrom h.pairBuf_wf _ _) (Memory.range_setFrom h.pairBuf_range (.inl ?_))
    rw [List.length_replicate]
    omega
  unfold flushPairs
  simp only
  split
  · exact h1.congr rfl rfl rfl rfl rfl
  · exact h.congr rfl rfl rfl rfl rfl

theorem wrSym_memory (x : Symbol) {s : State} (h : MemoryInv s) (hl : s.sLen < s.params.block) :
    MemoryInv (wrSym x s) := by
  have h1 : MemoryInv (s.setSymBuf (s.symBuf.set s.sLen x)) := by
    exact h.setSymBuf (Memory.wf_set h.symBuf_wf _ _) (Memory.range_set h.symBuf_range hl)
  unfold wrSym
  simp only
  split <;> exact h1.congr rfl rfl rfl rfl rfl

theorem wrRun_memory (word : List Symbol) {s : State} (h : MemoryInv s) (hl : s.sLen < s.params.block) :
    MemoryInv (wrRun word s) := by
  induction word generalizing s with
  | nil => exact h
  | cons x xs ih =>
    have e := (wrSym_frame x s).fields.1
    exact ih (wrSym_memory x h hl) (by rw [e]; exact (wrSym_spec x s hl).2)

theorem flushSyms_memory {s : State} (h : MemoryInv s) : MemoryInv (flushSyms s) := by
  unfold flushSyms
  split <;> exact h.congr rfl rfl rfl rfl rfl

/-! The input side. -/

theorem rdBytes_memory (buf : Buf) (n : Nat) {s : State} (h : MemoryInv s) (hn : n ≤ s.params.block) :
    MemoryInv (rdBytes buf n s).2 := by
  obtain ⟨taken, eos, cs, ps, h1, -, h3, -⟩ := rdBytes_spec buf n s
  rw [h1]
  have h4 : MemoryInv (storeBytes buf 0 taken s) := by
    cases buf with
    | sym =>
      exact h.setSymBuf (Memory.wf_setFrom h.symBuf_wf _ _) (Memory.range_setFrom h.symBuf_range (.inl (by omega)))
    | pair =>
      refine h.setPairBuf (Memory.wf_setFrom h.pairBuf_wf _ _) (Memory.range_setFrom h.pairBuf_range (.inl ?_))
      rw [length_flatMap_bitsOfByte]; omega
  unfold afterRead
  cases buf <;> exact h4.congr rfl rfl rfl rfl rfl

theorem refillSyms_memory {s : State} (h : MemoryInv s) : MemoryInv (refillSyms s) :=
  (rdBytes_memory .sym s.params.block h le_rfl).congr rfl rfl rfl rfl rfl

theorem refillPairs_memory {s : State} (h : MemoryInv s) : MemoryInv (refillPairs s) :=
  (rdBytes_memory .pair s.params.block h le_rfl).congr rfl rfl rfl rfl rfl

theorem rdSym_memory {s : State} (h : MemoryInv s) : MemoryInv (rdSym s).2 := by
  unfold rdSym
  split
  · simp only
    split
    · exact refillSyms_memory h
    · exact (refillSyms_memory h).congr rfl rfl rfl rfl rfl
  · exact h.congr rfl rfl rfl rfl rfl

theorem getBit_memory {s : State} (h : MemoryInv s) : MemoryInv (getBit s).2 := by
  unfold getBit
  split
  · simp only
    split
    · exact refillPairs_memory h
    · exact (refillPairs_memory h).congr rfl rfl rfl rfl rfl
  · exact h.congr rfl rfl rfl rfl rfl

theorem readBits_memory (n : Nat) {s : State} (h : MemoryInv s) : MemoryInv (readBits n s).2 := by
  induction n generalizing s with
  | zero => exact h
  | succ n ih =>
    have h1 := getBit_memory h
    unfold readBits
    split
    · rename_i s1 heq; rw [heq] at h1; exact h1
    · rename_i b s1 heq
      rw [heq] at h1
      have h2 := ih h1
      split <;> (rename_i e; rw [e] at h2; exact h2)

theorem rdPair_memory (w : Nat) {s : State} (h : MemoryInv s) : MemoryInv (rdPair w s).2 := by
  have h1 := readBits_memory w h
  unfold rdPair
  split
  · rename_i s1 heq; rw [heq] at h1; exact h1
  · rename_i code s1 heq
    rw [heq] at h1
    have h2 := readBits_memory 8 h1
    split <;> (rename_i e; rw [e] at h2; exact h2)

/-! The engine's operations and the run's. -/

theorem miss_memory (x : Symbol) {s : State} (h : MemoryInv s) (hp : s.pBits < 8 * s.params.block)
    (hu : s.cur < s.params.maxCode) (hn : s.nextCode < s.params.maxCode) : MemoryInv (miss x s) := by
  have h1 := wrPair_memory s.cur x (recordWidth s) h hp
  have f := (wrPair_frame s.cur x (recordWidth s) s).fields.1
  rw [miss_eq]
  generalize wrPair s.cur x (recordWidth s) s = s1 at h1 f
  split
  · exact (h1.setChild (m := []) rfl (by simp)).congr rfl rfl rfl rfl rfl
  · exact (h1.setChild (Memory.wf_set h.child_wf _ _)
      (f ▸ Memory.range_link h.child_range hu hn)).congr rfl rfl rfl rfl rfl

theorem finalFlush_memory {s : State} (h : MemoryInv s) (hp : s.pBits < 8 * s.params.block) :
    MemoryInv (finalFlush s) := by
  have h1 := wrPair_memory s.prev s.lastSym (recordWidth s) h hp
  rw [finalFlush_eq]
  generalize wrPair s.prev s.lastSym (recordWidth s) s = s1 at h1
  split
  · exact h
  · split
    · exact (h1.setChild (m := []) rfl (by simp)).congr rfl rfl rfl rfl rfl
    · exact h1.congr rfl rfl rfl rfl rfl

/-- The final-flush pair leaves the parameters, and the cursor inside the buffer. -/
theorem finalFlush_bounds {s : State} (hp : s.pBits < 8 * s.params.block) :
    (finalFlush s).params = s.params ∧ (finalFlush s).pBits < 8 * s.params.block := by
  have h1 := (wrPair_frame s.prev s.lastSym (recordWidth s) s).fields.1
  have h2 := (wrPair_spec s.prev s.lastSym (recordWidth s) s hp).2
  rw [finalFlush_eq]
  generalize wrPair s.prev s.lastSym (recordWidth s) s = s1 at h1 h2
  split
  · exact ⟨rfl, hp⟩
  · split <;> exact ⟨h1, h2⟩

theorem wtReset_memory {s : State} (h : MemoryInv s) : MemoryInv (wtReset s) :=
  h.setWt (Memory.wf_filter h.wt_wf _) fun c hc => h.wt_range c (List.mem_filter.1 hc).1

theorem appendWord_memory (word : List Symbol) (x : Symbol) {s : State} (h : MemoryInv s)
    (hl : s.sLen < s.params.block) (hn : s.nextCode < s.params.maxCode) : MemoryInv (appendWord word x s) := by
  have h1 := wrRun_memory (word ++ [x])
    (h.setWt (Memory.wf_set h.wt_wf s.nextCode (word ++ [x])) (Memory.range_set h.wt_range hn)) hl
  rw [appendWord_eq]
  generalize wrRun (word ++ [x]) (s.setWt (s.wt.set s.nextCode (word ++ [x]))) = s1 at h1
  split
  · exact wtReset_memory (h1.congr rfl rfl rfl rfl rfl)
  · exact h1.congr rfl rfl rfl rfl rfl

/-- A code is an index of the dictionaries' range. -/
theorem Params.lt_of_isIndex {p : Params} (h : p.wf = true) {c : Nat} (hc : p.isIndex c = true) : c < p.maxCode := by
  obtain ⟨-, h2, -, -, h5, -⟩ := (Params.wf_iff p).1 h
  simp only [Params.isIndex, Params.isEntry, Bool.or_eq_true, beq_iff_eq, Bool.and_eq_true, decide_eq_true_eq] at hc
  omega

theorem runInit_memory {s : State} (hp : s.params.wf = true) (h : MemoryInv s) : MemoryInv (runInit s) := by
  refine ⟨rfl, rfl, h.3, h.4, fun c hc => (nomatch hc), fun c hc => ?_, h.7, h.8⟩
  obtain rfl : c = (s.params.emptyCode, []) := by simpa [runInit] using hc
  exact Params.lt_of_isIndex hp (by simp [Params.isIndex])

theorem startRun_memory (m : Mode) {s : State} (hp : s.params.wf = true) (h : MemoryInv s) :
    MemoryInv (startRun m s) := by
  rw [startRun_eq]
  split
  · exact h
  · exact (runInit_memory (s := s.setMode m) hp (h.congr (t := s.setMode m) rfl rfl rfl rfl rfl)).congr rfl rfl rfl rfl rfl

/-- The indices of what is left unspecified (R73). -/
theorem unspecify_dict (s : State) : DictInv (unspecify s) where
  child_index := Memory.forall_ofList fun c hc => by
    have h := (List.mem_filter.1 hc).2
    rwa [Bool.and_eq_true] at h
  wt_index := Memory.forall_ofList fun c hc => (List.mem_filter.1 hc).2

theorem unspecify_memory {s : State} (hp : s.params.wf = true) : MemoryInv (unspecify s) := by
  obtain ⟨h1, h2⟩ := unspecify_dict s
  refine ⟨Memory.wf_ofList _, Memory.wf_ofList _, rfl, rfl, fun c hc => ?_,
    fun c hc => Params.lt_of_isIndex hp (h2 c hc), fun c hc => (nomatch hc), fun c hc => (nomatch hc)⟩
  have h3 := Params.lt_of_isIndex (p := (unspecify s).params) hp (h1 c hc).1
  have h4 : c.2 < (unspecify s).params.maxCode :=
    Params.lt_of_isIndex hp (Bool.or_eq_true_iff.2 (.inr (h1 c hc).2))
  exact ⟨by omega, h4⟩

theorem endRun_memory (p : Phase) {s : State} (hp : s.params.wf = true) : MemoryInv (endRun p s) :=
  (unspecify_memory hp).congr rfl rfl rfl rfl rfl

theorem stop_memory {s : State} (hp : s.params.wf = true) : MemoryInv (stop s) :=
  endRun_memory _ (by rw [(flushSyms_frame s).fields.1]; exact hp)

theorem truncate_memory {s : State} (hp : s.params.wf = true) : MemoryInv (truncate s) :=
  endRun_memory _ (by rw [(flushSyms_frame _).fields.1]; exact hp)

theorem raise_memory (f : FatalFault) (v : Nat) {s : State} (hp : s.params.wf = true) : MemoryInv (raise f v s) :=
  endRun_memory _ hp

/-- ENC_EOS before its end: the final-flush pair, the STOP pair and the flush leave the parameters and the report. -/
theorem endOfInput_eq (s : State) : ∃ u : State, endOfInput s = endRun .done u ∧ u.params = s.params ∧
    u.mode = s.mode ∧ u.trunc = s.trunc ∧ u.cause = s.cause ∧ u.info = s.info := by
  refine ⟨_, rfl, ?_⟩
  have f1 := (flushPairs_frame
    (wrPair (finalFlush s).params.stopCode 0 (recordWidth (finalFlush s)) (finalFlush s))).fields
  have f2 := (wrPair_frame (finalFlush s).params.stopCode 0 (recordWidth (finalFlush s)) (finalFlush s)).fields
  have f3 : (finalFlush s).params = s.params ∧ (finalFlush s).mode = s.mode ∧ (finalFlush s).trunc = s.trunc ∧
      (finalFlush s).cause = s.cause ∧ (finalFlush s).info = s.info := by
    have f := (wrPair_frame s.prev s.lastSym (recordWidth s) s).fields
    rw [finalFlush_eq]
    generalize wrPair s.prev s.lastSym (recordWidth s) s = s1 at *
    split
    · simp
    · split <;> simp [f]
  grind

theorem endOfInput_memory {s : State} (hp : s.params.wf = true) : MemoryInv (endOfInput s) := by
  obtain ⟨u, e, h, -⟩ := endOfInput_eq s
  rw [e]
  exact endRun_memory _ (by rw [h]; exact hp)

theorem hwReset_memory {s : State} (hp : s.params.wf = true) : MemoryInv (hwReset s) :=
  (unspecify_memory hp).congr rfl rfl rfl rfl rfl

end Sys2Proof.Machine
end

