-- ==== Sys2Proof/Laws/Step.lean ====
section
/-! SUPPORT. What a step can do: the records' operations, the inversion of a step, and runs of several steps. -/

namespace Sys2Proof.Machine

/-! Records. -/

/-- The operation of a PAIR record, of any width, runs the one meaning (R96, R171, R174). -/
theorem exec_of_pairRecord {i : Instr} {w code : Nat} {x : Symbol} (h : pairRecord i = some (w, code, x)) (s : State) :
    exec i s = runPair code x s := by
  cases i <;> simp only [pairRecord, reduceCtorEq, Option.some.injEq, Prod.mk.injEq] at h <;>
    (obtain ⟨-, rfl, rfl⟩ := h; rfl)

/-- The operation of a STOP record, of any width and with any symbol, runs the one meaning (R172). -/
theorem exec_of_stopRecord {i : Instr} {w : Nat} {x : Symbol} (h : stopRecord i = some (w, x)) (s : State) :
    exec i s = runStop s := by
  cases i <;> simp only [stopRecord, reduceCtorEq] at h <;> rfl

/-- The operations that raise BAD_CODE run the one entry (R174, R236). -/
theorem exec_of_raisesBadCode {s : State} {i : Instr} {code : Nat} (h : RaisesBadCode s i code) :
    exec i s = .next (raise .badCode code s) := by
  rcases h with rfl | rfl | ⟨hw, x, ⟨w, h⟩ | rfl⟩
  · rfl
  · rfl
  · rw [exec_of_pairRecord h, runPair, hw]
  · show runPair code x s = _
    rw [runPair, hw]

/-- The operation a record of one of the table's widths selects (R96). -/
theorem recordInstr_spec (p : Params) {w code : Nat} (x : Symbol) (h2 : 2 ≤ w) (h16 : w ≤ 16) (hc : code < 2 ^ w) :
    if code = p.stopCode then
      stopRecord (recordInstr p w code x) = some (w, x) ∧ pairRecord (recordInstr p w code x) = none
    else pairRecord (recordInstr p w code x) = some (w, code, x) ∧ stopRecord (recordInstr p w code x) = none := by
  by_cases hs : code = p.stopCode
  · simp only [if_pos hs]
    interval_cases w <;> simp only [recordInstr, if_pos hs] <;> exact ⟨rfl, rfl⟩
  · simp only [if_neg hs]
    interval_cases w <;> simp only [recordInstr, if_neg hs] <;>
      refine ⟨?_, rfl⟩ <;> simp only [pairRecord, BitVec.toNat_ofNat, Nat.mod_eq_of_lt hc]

/-- The operation a record of any other width selects (R96). -/
theorem recordInstr_other (p : Params) {w : Nat} (code : Nat) (x : Symbol) (h : w < 2 ∨ 16 < w) :
    recordInstr p w code x = if code = p.stopCode then .decStop else .decPair code x := by
  unfold recordInstr
  split <;> first | omega | rfl

/-- What the operation of a record does, whatever its width (R96, R238). -/
theorem exec_recordInstr (p : Params) {w code : Nat} (x : Symbol) (hc : code < 2 ^ w) (s : State) :
    exec (recordInstr p w code x) s = if code = p.stopCode then runStop s else runPair code x s := by
  by_cases hw : 2 ≤ w ∧ w ≤ 16
  · have hi := recordInstr_spec p x hw.1 hw.2 hc
    split at hi
    · rename_i hs; rw [if_pos hs]; exact exec_of_stopRecord hi.1 s
    · rename_i hs; rw [if_neg hs]; exact exec_of_pairRecord hi.1 s
  · rw [recordInstr_other p code x (by omega)]
    split <;> rfl

/-- A record that is read has a code that fits its field. -/
theorem readBits_lt (n : Nat) (s : State) {v : Nat} (h : (readBits n s).1 = some v) : v < 2 ^ n := by
  induction n generalizing s v with
  | zero => simp [readBits] at h; omega
  | succ n ih =>
    unfold readBits at h
    split at h
    · simp at h
    · rename_i b s1 _
      split at h
      · simp at h
      · rename_i v' s2 heq
        have h1 := ih s1 (v := v') (by rw [heq])
        simp only [Option.some.injEq] at h
        rw [pow_succ]
        cases b <;> simp at h <;> omega

theorem rdPair_code_lt (w : Nat) (s : State) {code : Nat} {x : Symbol} {more : Bool}
    (h : (rdPair w s).1 = some (code, x, more)) : code < 2 ^ w := by
  unfold rdPair at h
  split at h
  · simp at h
  · rename_i c s1 heq
    split at h
    · simp at h
    · simp only [Option.some.injEq, Prod.mk.injEq] at h
      rw [← h.1]
      exact readBits_lt w s (by rw [heq])

/-! The step. -/

theorem setMoves_self {s : State} {ms : List HostMove} (h : s.moves = ms) : s.setMoves ms = s := by
  subst h; rfl

/-- In the engine's turn the engine fetches, with the host's wait taken. -/
theorem fetch_engineTurn {s : State} (h : EngineTurn s) : fetch s = fetchEngine (s.setMoves s.moves.tail) := by
  rcases h with h | h
  · unfold fetch
    rw [h, List.tail_nil, setMoves_self h]
  · unfold fetch
    cases hm : s.moves with
    | nil => rw [hm] at h; simp at h
    | cons m ms =>
      rw [hm] at h
      simp only [List.head?_cons, Option.some.injEq] at h
      subst h
      rfl

/-- What a step can do: the engine's next symbol or record, nothing outside a run, or one move of the host. -/
theorem step_cases {s t : State} (h : step s = .next t) :
    (EngineTurn s ∧ s.phase = .encRun ∧ symReadOk s = true ∧
      ((∃ x, (rdSym (s.setMoves s.moves.tail)).1 = some x ∧
          exec (.encSym x) (rdSym (s.setMoves s.moves.tail)).2 = .next t) ∨
        ((rdSym (s.setMoves s.moves.tail)).1 = none ∧ exec .encEos (rdSym (s.setMoves s.moves.tail)).2 = .next t))) ∨
    (EngineTurn s ∧ s.phase = .decRun ∧ pairReadOk s = true ∧
      (((rdPair (recordWidth s) (s.setMoves s.moves.tail)).1 = none ∧
          exec .decTrunc (rdPair (recordWidth s) (s.setMoves s.moves.tail)).2 = .next t) ∨
        ∃ code x more, (rdPair (recordWidth s) (s.setMoves s.moves.tail)).1 = some (code, x, more) ∧
          exec (recordInstr s.params (recordWidth s) code x)
            (rdPair (recordWidth s) (s.setMoves s.moves.tail)).2 = .next t)) ∨
    (EngineTurn s ∧ busy s = false ∧ t = s.setMoves s.moves.tail) ∨
    (∃ v ms, s.moves = .regWrite 0 v :: ms ∧ exec (commandInstr v) (s.setMoves ms) = .next t) ∨
    (∃ n v ms, s.moves = .regWrite n v :: ms ∧ n ≠ 0 ∧ t = s.setMoves ms) ∨
    (∃ n ms, s.moves = .regRead n :: ms ∧ exec (.csrRead n) (s.setMoves ms) = .next t) ∨
    (∃ ms, s.moves = .rst :: ms ∧ exec .hwReset (s.setMoves ms) = .next t) ∨
    (∃ src cs ms, s.moves = .connect src cs :: ms ∧ t = (s.setMoves ms).setSource src cs s.pulls) := by
  by_cases he : EngineTurn s
  · unfold step at h
    rw [fetch_engineTurn he] at h
    cases hp : s.phase with
    | encRun =>
      left
      have e : fetchEngine (s.setMoves s.moves.tail) = fetchSymbol (s.setMoves s.moves.tail) := by
        unfold fetchEngine; rw [State.setMoves_phase, hp]
      rw [e] at h
      unfold fetchSymbol at h
      by_cases hr : symReadOk (s.setMoves s.moves.tail) = true
      · rw [if_pos hr] at h
        refine ⟨he, rfl, hr, ?_⟩
        cases hs : rdSym (s.setMoves s.moves.tail) with
        | mk o s1 =>
          rw [hs] at h
          cases o with
          | none => exact .inr ⟨rfl, h⟩
          | some x => exact .inl ⟨x, rfl, h⟩
      · rw [if_neg hr] at h; simp at h
    | decRun =>
      right; left
      have e : fetchEngine (s.setMoves s.moves.tail) = fetchRecord (s.setMoves s.moves.tail) := by
        unfold fetchEngine; rw [State.setMoves_phase, hp]
      rw [e] at h
      unfold fetchRecord at h
      by_cases hr : pairReadOk (s.setMoves s.moves.tail) = true
      · rw [if_pos hr] at h
        refine ⟨he, rfl, hr, ?_⟩
        have ew : recordWidth (s.setMoves s.moves.tail) = recordWidth s := rfl
        rw [ew] at h
        cases hs : rdPair (recordWidth s) (s.setMoves s.moves.tail) with
        | mk o s1 =>
          rw [hs] at h
          cases o with
          | none => exact .inl ⟨rfl, h⟩
          | some q =>
            obtain ⟨code, x, more⟩ := q
            exact .inr ⟨code, x, more, rfl, h⟩
      · rw [if_neg hr] at h; simp at h
    | idle =>
      right; right; left
      have e : fetchEngine (s.setMoves s.moves.tail) = .next (none, s.setMoves s.moves.tail) := by
        unfold fetchEngine; rw [State.setMoves_phase, hp]
      rw [e] at h
      simp only [Host.Outcome.next.injEq] at h
      exact ⟨he, by simp [busy, hp], h.symm⟩
    | done =>
      right; right; left
      have e : fetchEngine (s.setMoves s.moves.tail) = .next (none, s.setMoves s.moves.tail) := by
        unfold fetchEngine; rw [State.setMoves_phase, hp]
      rw [e] at h
      simp only [Host.Outcome.next.injEq] at h
      exact ⟨he, by simp [busy, hp], h.symm⟩
    | error =>
      right; right; left
      have e : fetchEngine (s.setMoves s.moves.tail) = .next (none, s.setMoves s.moves.tail) := by
        unfold fetchEngine; rw [State.setMoves_phase, hp]
      rw [e] at h
      simp only [Host.Outcome.next.injEq] at h
      exact ⟨he, by simp [busy, hp], h.symm⟩
  · right; right; right
    unfold step fetch at h
    cases hm : s.moves with
    | nil => exact absurd (.inl hm) he
    | cons m ms =>
      rw [hm] at h
      cases m with
      | wait => exact absurd (.inr (by rw [hm]; rfl)) he
      | regWrite n v =>
        by_cases hn : n = 0
        · subst hn
          exact .inl ⟨v, ms, rfl, h⟩
        · simp only [if_neg hn, Host.Outcome.next.injEq] at h
          exact .inr (.inl ⟨n, v, ms, rfl, hn, h.symm⟩)
      | regRead n => exact .inr (.inr (.inl ⟨n, ms, rfl, h⟩))
      | rst => exact .inr (.inr (.inr (.inl ⟨ms, rfl, h⟩)))
      | connect src cs =>
        simp only [Host.Outcome.next.injEq] at h
        exact .inr (.inr (.inr (.inr ⟨src, cs, ms, rfl, h.symm⟩)))

/-- What a write of CTRL runs (R103). -/
theorem exec_commandInstr (v : Word64) (s : State) : exec (commandInstr v) s =
    .next (if v.getLsbD 0 then startRun (if v.getLsbD 1 then .dec else .enc) s else s) := by
  unfold commandInstr
  split
  · split <;> rfl
  · rfl

/-! Runs. -/

theorem reaches_zero (s : State) : Reaches 0 s s := rfl

theorem reaches_succ {k : Nat} {s u t : State} (h : step s = .next u) (h1 : Reaches k u t) : Reaches (k + 1) s t := by
  unfold Reaches at *
  simp only [Host.Core.run, h]
  exact h1

theorem reaches_trans {j k : Nat} {s u t : State} (h : Reaches j s u) (h1 : Reaches k u t) : Reaches (j + k) s t := by
  induction j generalizing s with
  | zero =>
    have e : s = u := by simpa [Reaches, Host.Core.run] using h
    rw [Nat.zero_add, e]; exact h1
  | succ j ih =>
    unfold Reaches Host.Core.run at h
    simp only at h
    split at h
    · rename_i w hw
      have := reaches_succ hw (ih h)
      rwa [show j + k + 1 = j + 1 + k by omega] at this
    · simp at h
    · simp at h

end Sys2Proof.Machine
end

