-- ==== Sys2Proof/Laws/Dictionary.lean ====
section
/-! SUPPORT. The dictionaries' structure (R31, R34) at a run's start, after a symbol and after a pair. -/

namespace Sys2Proof.Machine

/-- The trie's invariant is about its own fields. -/
theorem TrieInv.congr {s t : State} (h : TrieInv s) (hp : t.params = s.params) (hn : t.nextCode = s.nextCode)
    (hc : t.child = s.child) (hu : t.cur = s.cur) (hv : t.prev = s.prev) (hl : t.lastSym = s.lastSym) : TrieInv t := by
  have e := childAt_congr hc
  obtain ⟨h1, h2, h3, h4⟩ := h
  exact ⟨by simpa only [e, Live, hp, hn] using h1, by simpa only [e, hp, hn] using h2,
    by simpa only [Live, hp, hn, hu] using h3, by simpa only [e, hp, hu, hv, hl] using h4⟩

/-- The word table's invariant is about its own fields. -/
theorem WordInv.congr {s t : State} (h : WordInv s) (hp : t.params = s.params) (hn : t.nextCode = s.nextCode)
    (hw : t.wt = s.wt) : WordInv t := by
  have e := wordAt_congr hw
  obtain ⟨h1, h2, h3, h4⟩ := h
  exact ⟨by simpa only [e, Live, hp, hn] using h1, by simpa only [e, hp] using h2,
    by simpa only [e, hp] using h3, by simpa only [e, hp] using h4⟩

/-- The root alone is a trie. -/
theorem TrieInv.root {s : State} (hc : s.child = []) (hn : s.nextCode = s.params.startCode)
    (hu : s.cur = s.params.emptyCode) : TrieInv s where
  link n x c h := by simp [childAt, hc] at h
  owner c h1 h2 := by omega
  cur_live := .inl hu
  cur_link h := absurd hu h

/-- The empty word alone is a word table. -/
theorem WordInv.empty_table {s : State} (hw : ∀ c, wordAt s c = if c = s.params.emptyCode then some [] else none)
    (he : s.params.emptyCode < s.params.startCode) (hn : s.nextCode = s.params.startCode) : WordInv s where
  live c := by
    rw [hw]
    unfold Live
    split
    · simp_all
    · simp only [Option.isSome_none, Bool.false_eq_true, false_iff, not_or]
      exact ⟨by assumption, by omega⟩
  empty := by rw [hw, if_pos rfl]
  extend c w h1 h2 := by rw [hw, if_neg (by omega)] at h2; simp at h2
  length c w h1 h2 := by rw [hw, if_neg (by omega)] at h2; simp at h2

/-- ENC_SYM.HIT keeps the trie: the node entered is live and hangs at the node left (R152). -/
theorem TrieInv.hit {s : State} (h : TrieInv s) {x : Symbol} {c : Nat} (hc : childAt s s.cur x = some c) :
    TrieInv (Machine.hit x c s) := by
  obtain ⟨h1, h2, h3, h4⟩ := h
  have hl := h1 _ _ _ hc
  exact ⟨h1, h2, .inr ⟨hl.2.1, hl.2.2.1⟩, fun _ => hc⟩

/-- The trie after ENC_SYM.MISS: the new node hangs at the current one, or, the dictionary full, the root alone is left
(R153). -/
theorem TrieInv.grow {s t : State} (h : TrieInv s) {x : Symbol} (hp : t.params = s.params)
    (hlow : s.params.startCode ≤ s.nextCode)
    (hx : childAt s s.cur x = none) (hu : t.cur = s.params.emptyCode) (hn : t.nextCode = s.nextCode + 1)
    (hc : ∀ n y, childAt t n y = if s.cur = n ∧ x = y then some s.nextCode else childAt s n y) : TrieInv t := by
  obtain ⟨h1, h2, h3, h4⟩ := h
  refine ⟨?_, ?_, .inl (by rw [hu, hp]), fun hh => absurd (by rw [hu, hp]) hh⟩
  · intro n y c hy
    rw [hc] at hy
    unfold Live
    rw [hp, hn]
    split at hy
    · rename_i e
      simp only [Option.some.injEq] at hy
      subst hy
      rcases h3 with h3 | h3
      · exact ⟨.inl (by rw [← e.1]; exact h3), hlow, by omega, .inl (by rw [← e.1]; exact h3)⟩
      · exact ⟨.inr (by omega), hlow, by omega, .inr (by omega)⟩
    · obtain ⟨g1, g2, g3, g4⟩ := h1 _ _ _ hy
      refine ⟨?_, g2, by omega, g4⟩
      rcases g1 with g1 | g1
      · exact .inl g1
      · exact .inr (by omega)
  · intro c hc1 hc2
    rw [hp] at hc1
    rw [hn] at hc2
    by_cases e : c = s.nextCode
    · subst e
      refine ⟨s.cur, x, by rw [hc, if_pos ⟨rfl, rfl⟩], fun n' x' h' => ?_⟩
      rw [hc] at h'
      split at h'
      · rename_i e; exact ⟨e.1.symm, e.2.symm⟩
      · have := (h1 _ _ _ h').2.2.1; omega
    · obtain ⟨n, y, g1, g2⟩ := h2 c hc1 (by omega)
      have ne : ¬ (s.cur = n ∧ x = y) := by
        rintro ⟨rfl, rfl⟩
        rw [hx] at g1; simp at g1
      refine ⟨n, y, by rw [hc, if_neg ne]; exact g1, fun n' x' h' => ?_⟩
      rw [hc] at h'
      split at h'
      · simp only [Option.some.injEq] at h'; omega
      · exact g2 n' x' h'

/-- The word table after DEC_PAIR without a capacity reset: the new word extends a live one (R171). -/
theorem WordInv.grow {s t : State} (h : WordInv s) {code : Nat} {word : List Symbol} {x : Symbol}
    (hp : t.params = s.params) (he : s.params.emptyCode < s.params.startCode)
    (hlow : s.params.startCode ≤ s.nextCode) (hword : wordAt s code = some word) (hn : t.nextCode = s.nextCode + 1)
    (hw : ∀ c, wordAt t c = if s.nextCode = c then some (word ++ [x]) else wordAt s c) : WordInv t := by
  obtain ⟨h1, h2, h3, h4⟩ := h
  have hlive : Live s code := (h1 code).1 (by rw [hword]; rfl)
  have ne : code ≠ s.nextCode := by
    rcases hlive with e | e
    · omega
    · omega
  refine ⟨?_, by rw [hw, hp, if_neg (by omega)]; exact h2, ?_, ?_⟩
  · intro c
    rw [hw]
    unfold Live
    rw [hp, hn]
    split
    · rename_i e
      subst e
      simp only [Option.isSome_some, true_iff]
      exact .inr ⟨hlow, by omega⟩
    · rename_i e
      rw [h1]
      unfold Live
      constructor
      · rintro (g | g)
        · exact .inl g
        · exact .inr (by omega)
      · rintro (g | g)
        · exact .inl g
        · exact .inr (by omega)
  · intro c w hc1 hc2
    rw [hp] at hc1
    rw [hw] at hc2
    split at hc2
    · rename_i e
      subst e
      simp only [Option.some.injEq] at hc2
      refine ⟨code, word, x, ?_, by rw [hw, if_neg fun e => ne e.symm]; exact hword, hc2.symm⟩
      rw [hp]
      rcases hlive with g | g
      · exact .inl g
      · exact .inr g.2
    · obtain ⟨c', w', y, g1, g2, g3⟩ := h3 c w hc1 hc2
      refine ⟨c', w', y, by rw [hp]; exact g1, ?_, g3⟩
      rw [hw, if_neg]
      · exact g2
      · rintro rfl
        have := (h1 s.nextCode).1 (by rw [g2]; rfl)
        rcases this with g | g
        · omega
        · omega
  · intro c w hc1 hc2
    rw [hp] at hc1 ⊢
    rw [hw] at hc2
    split at hc2
    · rename_i e
      subst e
      simp only [Option.some.injEq] at hc2
      subst hc2
      simp only [List.length_append, List.length_singleton]
      refine ⟨by omega, ?_⟩
      rcases hlive with g | g
      · rw [g, h2] at hword
        simp only [Option.some.injEq] at hword
        rw [← hword]
        simp
      · have := (h4 code word g.1 hword).2
        omega
    · exact h4 c w hc1 hc2

/-- The codes of a machine whose parameters meet their constraints (R8, R9). -/
theorem Params.codes {p : Params} (h : p.wf = true) :
    p.emptyCode < p.startCode ∧ p.stopCode < p.startCode ∧ p.startCode < p.maxCode ∧ 1 ≤ p.block ∧
      p.stopCode ≠ p.emptyCode ∧ p.maxCode = 2 ^ p.codeBits ∧ 2 * p.maxCode = 2 ^ (p.codeBits + 1) := by
  obtain ⟨h1, h2, h3, h4, h5, h6⟩ := (Params.wf_iff p).1 h
  exact ⟨by omega, by omega, h5, h6, h1, h4, by rw [pow_succ, ← h4]; omega⟩

theorem Params.isEntry_iff (p : Params) (c : Nat) : p.isEntry c = true ↔ p.startCode ≤ c ∧ c < p.maxCode := by
  simp [Params.isEntry]

theorem Params.isIndex_iff (p : Params) (c : Nat) :
    p.isIndex c = true ↔ c = p.emptyCode ∨ (p.startCode ≤ c ∧ c < p.maxCode) := by
  simp [Params.isIndex, Params.isEntry]

/-- STOP_CODE holds nothing in either dictionary (R73). -/
theorem DictInv.stop_free {s : State} (h : DictInv s) (hp : s.params.wf = true) :
    (∀ x, childAt s s.params.stopCode x = none) ∧ wordAt s s.params.stopCode = none := by
  obtain ⟨-, c2, -, -, c5, -⟩ := Params.codes hp
  constructor
  · intro x
    by_contra hc
    obtain ⟨c, hc⟩ := Option.ne_none_iff_exists'.1 hc
    have h1 := (Params.isIndex_iff _ _).1 (h.child_index _ (Memory.mem_of_get hc)).1
    have hx := x.isLt
    simp only [trieKey] at h1
    omega
  · by_contra hc
    obtain ⟨c, hc⟩ := Option.ne_none_iff_exists'.1 hc
    have h1 := (Params.isIndex_iff _ _).1 (h.wt_index _ (Memory.mem_of_get hc))
    simp only at h1
    omega

/-- The dictionaries' indices are about three fields. -/
theorem DictInv.congr {s t : State} (h : DictInv s) (hp : t.params = s.params) (hc : t.child = s.child)
    (hw : t.wt = s.wt) : DictInv t := by
  obtain ⟨h1, h2⟩ := h
  exact ⟨by rw [hp, hc]; exact h1, by rw [hp, hw]; exact h2⟩

/-- A link stored at an index, to an entry (R153). -/
theorem DictInv.setLink {s : State} (h : DictInv s) {n c : Nat} {x : Symbol} (hn : s.params.isIndex n = true)
    (hc : s.params.isEntry c = true) : DictInv (s.setChild (s.child.set (trieKey n x) c)) := by
  refine ⟨fun d hd => ?_, h.wt_index⟩
  rcases Memory.mem_set hd with rfl | hd
  · have hx := x.isLt
    exact ⟨by rw [show trieKey n x / 256 = n by unfold trieKey; omega]; exact hn, hc⟩
  · exact h.child_index d hd

/-- A word stored at an index (R171). -/
theorem DictInv.setWord {s : State} (h : DictInv s) {c : Nat} (w : List Symbol) (hc : s.params.isIndex c = true) :
    DictInv (s.setWt (s.wt.set c w)) := by
  refine ⟨h.child_index, fun d hd => ?_⟩
  rcases Memory.mem_set hd with rfl | hd
  · exact hc
  · exact h.wt_index d hd

theorem DictInv.wtReset {s : State} (h : DictInv s) : DictInv (wtReset s) :=
  ⟨h.child_index, fun d hd => h.wt_index d (List.mem_filter.1 hd).1⟩

theorem endRun_dict (p : Phase) (s : State) : DictInv (endRun p s) := (unspecify_dict s).congr rfl rfl rfl

theorem hwReset_dict (s : State) : DictInv (hwReset s) := (unspecify_dict s).congr rfl rfl rfl

/-- The registers' widths once a run has ended: the free values keep to them. -/
theorem endRun_widths (p : Phase) {s : State} (hi : s.info < 2 ^ (s.params.codeBits + 1)) : RegWidths (endRun p s) where
  nextCode := Nat.mod_lt _ (Nat.two_pow_pos _)
  cur := Nat.mod_lt _ (Nat.two_pow_pos _)
  prev := Nat.mod_lt _ (Nat.two_pow_pos _)
  info := hi
  pBits := Nat.lt_succ_iff.1 (Nat.mod_lt _ (Nat.succ_pos _))
  pLen := Nat.lt_succ_iff.1 (Nat.mod_lt _ (Nat.succ_pos _))
  sIdx := Nat.lt_succ_iff.1 (Nat.mod_lt _ (Nat.succ_pos _))
  sLen := Nat.lt_succ_iff.1 (Nat.mod_lt _ (Nat.succ_pos _))

theorem hwReset_widths {s : State} (hp : s.params.wf = true) : RegWidths (hwReset s) := by
  obtain ⟨c1, c2, c3, c4, c5, c6, c7⟩ := Params.codes hp
  refine ⟨?_, ?_, Nat.mod_lt _ (Nat.two_pow_pos _), Nat.two_pow_pos _, Nat.zero_le _, Nat.zero_le _, Nat.zero_le _,
    Nat.zero_le _⟩
  · show s.params.startCode < 2 ^ (s.params.codeBits + 1)
    omega
  · show s.params.emptyCode < 2 ^ s.params.codeBits
    omega

/-- A run just begun meets the invariant (R213, R47). -/
theorem startRun_inv (m : Mode) {s : State} (hb : busy s = false) (hp : s.params.wf = true) (hm : MemoryInv s)
    (hv : s.prev < 2 ^ s.params.codeBits) : Inv (startRun m s) := by
  obtain ⟨c1, c2, c3, c4, c5, c6, c7⟩ := Params.codes hp
  have hm' := startRun_memory m hp hm
  have hd : DictInv (startRun m s) := by
    rw [startRun_eq, if_neg (by simp [hb])]
    refine ⟨fun c hc => (nomatch hc), fun c hc => ?_⟩
    obtain rfl : c = (s.params.emptyCode, []) := by simpa [runInit] using hc
    exact (Params.isIndex_iff _ _).2 (.inl rfl)
  have hw : RegWidths (startRun m s) := by
    rw [startRun_eq, if_neg (by simp [hb])]
    refine ⟨?_, ?_, hv, Nat.two_pow_pos _, Nat.zero_le _, Nat.zero_le _, Nat.zero_le _, Nat.zero_le _⟩
    · show s.params.startCode < 2 ^ (s.params.codeBits + 1)
      omega
    · show s.params.emptyCode < 2 ^ s.params.codeBits
      omega
  rw [startRun_eq, if_neg (by simp [hb])] at *
  cases m
  · refine ⟨hp, hm', hd, hw,
      ⟨fun _ => le_rfl, fun _ => c3, fun _ => le_rfl, fun _ => Nat.zero_le _, fun _ => ?_, ?_, ?_, ?_, ?_⟩,
      fun _ => TrieInv.root rfl rfl rfl, ?_, ⟨rfl, rfl, rfl, rfl⟩⟩
    · simp [runInit]; exact c4
    all_goals simp
  · refine ⟨hp, hm', hd, hw,
      ⟨fun _ => le_rfl, fun _ => c3, fun _ => le_rfl, fun _ => Nat.zero_le _, ?_, fun _ => le_rfl,
        fun _ => Nat.zero_le _, fun _ => c4, fun _ => rfl⟩, ?_, fun _ => WordInv.empty_table ?_ c1 rfl,
      ⟨rfl, rfl, rfl, rfl⟩⟩
    · simp
    · simp
    · intro c
      simp only [wordAt, runInit, State.setPhase_wt, Memory.get, State.setPhase_params, State.setMode_params]
      by_cases e : s.params.emptyCode = c
      · subst e
        simp
      · simp [e, Ne.symm e]

end Sys2Proof.Machine
end

