-- ==== Sys2Proof/Tests/Slice0.lean ====
section
/-! SUPPORT. Tests: ill-formed operations refused, words written out from the encodings decoded, one step of each
operation on a small state with the expected values of the spec's examples, and for each statement a state that meets its
hypotheses. -/

open Sys2Proof Sys2Proof.Machine

namespace Sys2Proof.Tests

/-- A machine with `MAX_CODE = 4` and `BLOCK = 2` (the variant of 95_test_vectors.md that exercises the reset). -/
def tiny : Params := ⟨0, 1, 2, 4, 2⟩

/-- A machine whose every pair resets: `MAX_CODE = START_CODE + 1` (R192). -/
def single : Params := ⟨1, 2, 3, 4, 1⟩

/-- A machine with a larger dictionary than this hardware's, whose records grow to 17 bits (R9). -/
def wide : Params := ⟨0, 1, 2, 131072, 2⟩

/-- The idle machine with parameters `p` and a source. -/
def idleOn (p : Params) (source : List Byte) : State :=
  { State.reset with params := p, nextCode := p.startCode, cur := p.emptyCode, source := source }

/-- An encoder run just begun. -/
def encOn (p : Params) (source : List Byte) : State := startRun .enc (idleOn p source)

/-- A decoder run just begun. -/
def decOn (p : Params) (source : List Byte) : State := startRun .dec (idleOn p source)

/-- An outcome is a next state with a property. -/
def nextIs (o : Host.Outcome State Fault Refusal) (f : State → Bool) : Bool :=
  match o with
  | .next t => f t
  | .fault _ => false
  | .refused _ => false

/-- The operation decoded from the integer form of an encoding, on this hardware. -/
def decoded (f : Format) (r : Nat) : Option Instr := (decodeValue Params.hw f r).toOption

/-! Ill-formed operations are refused (WellFormed.lean). -/

theorem test_illformed_narrow_record_width : (Instr.pairW2 1 0x61).wellFormed ⟨3, 4, 5, 8, 1⟩ = false := by decide
theorem test_illformed_wide_record_width : (Instr.stopW4 0).wellFormed ⟨0, 1, 2, 8, 1⟩ = false := by decide
theorem test_illformed_pair_of_stop_code : (Instr.pairW2 0 0x61).wellFormed Params.hw = false := by decide
theorem test_illformed_decPair_stop_code : (Instr.decPair 0 0x61).wellFormed Params.hw = false := by decide
theorem test_illformed_decPair_code_range : (Instr.decPair 65536 0x61).wellFormed Params.hw = false := by decide
theorem test_illformed_badCode_stop_code : (Instr.badCode 0).wellFormed Params.hw = false := by decide
theorem test_illformed_badCode_empty_code : (Instr.badCode 1).wellFormed Params.hw = false := by decide
theorem test_illformed_badCode_code_range : (Instr.badCode 65536).wellFormed Params.hw = false := by decide
theorem test_illformed_rdBytes_none : (Instr.rdBytes .sym 0).wellFormed Params.hw = false := by decide
theorem test_illformed_rdBytes_too_many : (Instr.rdBytes .sym 4097).wellFormed Params.hw = false := by decide
theorem test_illformed_wrBytes_none : (Instr.wrBytes .pair 0).wellFormed Params.hw = false := by decide
theorem test_illformed_wrBytes_too_many : (Instr.wrBytes .pair 4097).wellFormed Params.hw = false := by decide
theorem test_illformed_rdPair_no_width : (Instr.rdPair 0).wellFormed Params.hw = false := by decide
theorem test_illformed_rdPair_wide : (Instr.rdPair 17).wellFormed Params.hw = false := by decide
theorem test_illformed_wrPair_code_range : (Instr.wrPair 65536 0 16).wellFormed Params.hw = false := by decide
theorem test_illformed_wrPair_no_width : (Instr.wrPair 1 0 0).wellFormed Params.hw = false := by decide
theorem test_illformed_wrPair_wide : (Instr.wrPair 1 0 17).wellFormed Params.hw = false := by decide
theorem test_illformed_bitlen_zero : (Instr.bitlen 0).wellFormed Params.hw = false := by decide
theorem test_illformed_raise_value_range : (Instr.raise .badCode 131072).wellFormed Params.hw = false := by decide

theorem test_wellformed_hw : Params.hw.wf = true := by decide
theorem test_wellformed_tiny : tiny.wf = true ∧ single.wf = true ∧ wide.wf = true := by decide

/-! Words written out as the table has them: the symbol's eight bits, then the code field's (R91, R92). -/

theorem test_decode_pairW2 : decoded (.record 2) 0b0110000101 = some (.pairW2 1 0x61) := by decide
theorem test_decode_pairW3 : decoded (.record 3) 0b01100001111 = some (.pairW3 7 0x61) := by decide
theorem test_decode_pairW4 : decoded (.record 4) 0b011000011101 = some (.pairW4 13 0x61) := by decide
theorem test_decode_pairW5 : decoded (.record 5) 0b0110000110111 = some (.pairW5 23 0x61) := by decide
theorem test_decode_pairW6 : decoded (.record 6) 0b01100001111011 = some (.pairW6 59 0x61) := by decide
theorem test_decode_pairW7 : decoded (.record 7) 0b011000011010001 = some (.pairW7 81 0x61) := by decide
theorem test_decode_pairW8 : decoded (.record 8) 0b0110000110001111 = some (.pairW8 143 0x61) := by decide
theorem test_decode_pairW9 : decoded (.record 9) 0b01100001100100111 = some (.pairW9 295 0x61) := by decide
theorem test_decode_pairW10 : decoded (.record 10) 0b011000011101001011 = some (.pairW10 843 0x61) := by decide
theorem test_decode_pairW11 : decoded (.record 11) 0b0110000110001001011 = some (.pairW11 1099 0x61) := by decide
theorem test_decode_pairW12 : decoded (.record 12) 0b01100001100110000011 = some (.pairW12 2435 0x61) := by decide
theorem test_decode_pairW13 : decoded (.record 13) 0b011000011101110110001 = some (.pairW13 7089 0x61) := by decide
theorem test_decode_pairW14 : decoded (.record 14) 0b0110000110010101001111 = some (.pairW14 9551 0x61) := by decide
theorem test_decode_pairW15 : decoded (.record 15) 0b01100001100011101101111 = some (.pairW15 18287 0x61) := by decide
theorem test_decode_pairW16 : decoded (.record 16) 0b011000011110100011100001 = some (.pairW16 59617 0x61) := by decide
theorem test_decode_stopW2 : decoded (.record 2) 0b1010010100 = some (.stopW2 0xa5) := by decide
theorem test_decode_stopW3 : decoded (.record 3) 0b10100101000 = some (.stopW3 0xa5) := by decide
theorem test_decode_stopW4 : decoded (.record 4) 0b101001010000 = some (.stopW4 0xa5) := by decide
theorem test_decode_stopW5 : decoded (.record 5) 0b1010010100000 = some (.stopW5 0xa5) := by decide
theorem test_decode_stopW6 : decoded (.record 6) 0b10100101000000 = some (.stopW6 0xa5) := by decide
theorem test_decode_stopW7 : decoded (.record 7) 0b101001010000000 = some (.stopW7 0xa5) := by decide
theorem test_decode_stopW8 : decoded (.record 8) 0b1010010100000000 = some (.stopW8 0xa5) := by decide
theorem test_decode_stopW9 : decoded (.record 9) 0b10100101000000000 = some (.stopW9 0xa5) := by decide
theorem test_decode_stopW10 : decoded (.record 10) 0b101001010000000000 = some (.stopW10 0xa5) := by decide
theorem test_decode_stopW11 : decoded (.record 11) 0b1010010100000000000 = some (.stopW11 0xa5) := by decide
theorem test_decode_stopW12 : decoded (.record 12) 0b10100101000000000000 = some (.stopW12 0xa5) := by decide
theorem test_decode_stopW13 : decoded (.record 13) 0b101001010000000000000 = some (.stopW13 0xa5) := by decide
theorem test_decode_stopW14 : decoded (.record 14) 0b1010010100000000000000 = some (.stopW14 0xa5) := by decide
theorem test_decode_stopW15 : decoded (.record 15) 0b10100101000000000000000 = some (.stopW15 0xa5) := by decide
theorem test_decode_stopW16 : decoded (.record 16) 0b101001010000000000000000 = some (.stopW16 0xa5) := by decide
theorem test_decode_encSym : decoded .symbol 0b11100110 = some (.encSym 0xe6) := by decide
theorem test_decode_startEnc : decoded .command 0b10101 = some (.startEnc 0b101) := by decide
theorem test_decode_startDec : decoded .command 0b00011 = some (.startDec 0) := by decide
theorem test_decode_ctrlNop : decoded .command 0b00110 = some (.ctrlNop 1 1) := by decide

/-- Body bytes `85 01 00` of R126: the record P(1, 'a')/2, and six bits over. -/
theorem test_decode_body : (decode Params.hw (.record 2) (bitsOfBytes [0x85, 0x01])).toOption =
    some (.pairW2 1 0x61, [false, false, false, false, false, false]) := by decide

theorem test_decode_short : (decode Params.hw (.record 2) (List.replicate 9 true)).toOption = none := by decide
theorem test_decode_no_such_width : decoded (.record 17) 3 = none := by decide

/-- The encoder's words are the table's. -/
theorem test_encode : encode Params.hw (.pairW9 257 0x66) = some (.record 9, 0b01100110100000001) ∧
    encode Params.hw (.stopW3 0) = some (.record 3, 0) ∧ encode Params.hw (.startDec 0) = some (.command, 3) := by decide

/-! One step of each operation. The expected values are those of the rules' examples. -/

/-- R120: three bytes, then the end. -/
theorem test_rdBytes : nextIs (exec (.rdBytes .sym 4096) (idleOn Params.hw [0x61, 0x62, 0x63])) (fun t =>
    t.result == .got 3 && t.srcEos && t.bytesIn == 3 && symByte t 2 == 0x63) = true := by decide

/-- R120: a short answer is retried. -/
theorem test_rdBytes_retry : nextIs (exec (.rdBytes .pair 2) { idleOn tiny [0x85, 0x01, 0x00] with cuts := [1, 1] })
    (fun t => t.result == .got 2 && !t.srcEos && t.pulls == [(2, 1), (1, 1)] && t.source == [0x00] &&
      pairByte t 0 == 0x85) = true := by decide

/-- R121. -/
theorem test_wrBytes : nextIs (exec (.wrBytes .sym 2) { idleOn tiny [] with symBuf := [(0, 0x85), (1, 0x15)] })
    (fun t => t.sink == [[0x85, 0x15]] && t.bytesOut == 2) = true := by decide

/-- R122: the first of `61 62`, and the end after both. -/
theorem test_rdSym : nextIs (exec .rdSym (idleOn Params.hw [0x61, 0x62])) (fun t =>
    t.result == .symbol 0x61 && t.sIdx == 1 && t.sLen == 2) = true := by decide
theorem test_rdSym_end : nextIs (exec .rdSym (idleOn Params.hw [])) (fun t =>
    t.result == .endOfInput && t.srcEos && t.sLen == 0) = true := by decide

/-- R123, its example with `BLOCK = 2`: the buffer fills, is pushed, and the rest starts at index 0. -/
theorem test_wrRun : nextIs (exec (.wrRun [0x61, 0x62]) { idleOn tiny [] with sLen := 1, symBuf := [(0, 0x60)] })
    (fun t => t.sink == [[0x60, 0x61]] && t.sLen == 1 && symByte t 0 == 0x62) = true := by decide

/-- R124: the first and the last bit of `0x85`. -/
theorem test_getBit : nextIs (exec .getBit (idleOn Params.hw [0x85])) (fun t =>
    t.result == .bit true && t.pBits == 1 && t.pLen == 1) = true := by decide
theorem test_getBit_second : nextIs (exec .getBit { idleOn Params.hw [] with
    pBits := 1, pLen := 1, pairBuf := [(0, true), (1, false), (2, true)] })
    (fun t => t.result == .bit false && t.pBits == 2) = true := by decide

/-- R125, its example with the other bits 0. -/
theorem test_putBit : nextIs (exec (.putBit true) { idleOn tiny [] with
    pBits := 15, pairBuf := (List.range 15).map fun k => (k, false) })
    (fun t => t.sink == [[0x00, 0x80]] && t.pBits == 0) = true := by decide

/-- R126. -/
theorem test_rdPair : nextIs (exec (.rdPair 2) (idleOn Params.hw [0x85, 0x01, 0x00])) (fun t =>
    t.result == .pair 1 0x61 true && t.pBits == 10) = true := by decide
theorem test_rdPair_truncated : nextIs (exec (.rdPair 2) (idleOn Params.hw [0x00])) (fun t =>
    t.result == .truncated) = true := by decide

/-- R127. -/
theorem test_wrPair : nextIs (exec (.wrPair 1 0x61 2) (idleOn Params.hw [])) (fun t =>
    t.pBits == 10 && pairByte t 0 == 0x85 && pairBit t 8 && !pairBit t 9) = true := by decide

/-- R128, its example with ten written bits: the residue of the last byte is cleared. -/
theorem test_flushPairs : nextIs (exec .flushPairs { idleOn Params.hw [] with
    pBits := 10, pairBuf := (bitsOfBytes [0x85, 0xfd]).zipIdx.map fun b => (b.2, b.1) })
    (fun t => t.sink == [[0x85, 0x01]] && t.pBits == 0 && t.bytesOut == 2) = true := by decide

/-- R129. -/
theorem test_flushSyms : nextIs (exec .flushSyms { idleOn Params.hw [] with
    sLen := 2, symBuf := [(0, 0x61), (1, 0x62)] })
    (fun t => t.sink == [[0x61, 0x62]] && t.sLen == 0) = true := by decide

/-- R152. -/
def hitState : State := { encOn Params.hw [] with nextCode := 3, child := [(trieKey 1 0x61, 2)] }
theorem test_encSym_hit : nextIs (exec (.encSym 0x61) hitState) (fun t =>
    t.prev == 1 && t.cur == 2 && t.lastSym == 0x61 && t.pBits == 0) = true := by decide
theorem test_encSymHit : nextIs (exec (.encSymHit 0x61) hitState) (fun t => t.prev == 1 && t.cur == 2) = true := by
  decide

/-- R153: the fresh run's first symbol, and the capacity reset at `MAX_CODE = 4`. -/
theorem test_encSymMiss : nextIs (exec (.encSymMiss 0x61) (encOn Params.hw [])) (fun t =>
    t.pBits == 10 && pairByte t 0 == 0x85 && childAt t 1 0x61 == some 2 && t.nextCode == 3 && t.cur == 1) = true := by
  decide
theorem test_encSym_reset : nextIs (exec (.encSym 0x62) { encOn tiny [] with
    nextCode := 3, child := [(trieKey 1 0x61, 2)] })
    (fun t => t.nextCode == 2 && t.child == [] && t.cur == 1) = true := by decide

/-- R155: input "aa" after its two symbols; R157: the empty input. -/
theorem test_encEos : nextIs (exec .encEos { hitState with
    cur := 2, prev := 1, lastSym := 0x61, pBits := 10
    pairBuf := (bitsOfBytes [0x85, 0x01]).zipIdx.map fun b => (b.2, b.1) })
    (fun t => sinkBytes t == [0x85, 0x15, 0x06, 0x00]) = true := by decide
theorem test_encEos_empty : nextIs (exec .encEos (encOn Params.hw [])) (fun t =>
    t.sink == [[0x00, 0x00]] && statusReg t == 0x02 && t.bytesOut == 2) = true := by decide

/-- R154, R173. -/
theorem test_trieReset : nextIs (exec .trieReset hitState) (fun t => t.child == [] && t.nextCode == 3) = true := by decide
theorem test_wtReset : nextIs (exec .wtReset { decOn tiny [] with wt := [(1, []), (2, [0x61]), (3, [0x62])] })
    (fun t => t.wt == [(1, [])]) = true := by decide

/-- R171: the fresh run's first record, and the capacity reset at `MAX_CODE = 4`. -/
theorem test_decPair : nextIs (exec (.decPair 1 0x61) (decOn Params.hw [])) (fun t =>
    wordAt t 2 == some [0x61] && symByte t 0 == 0x61 && t.sLen == 1 && t.nextCode == 3) = true := by decide
theorem test_decPair_reset : nextIs (exec (.decPair 2 0x62) { decOn tiny [] with
    nextCode := 3, wt := [(1, []), (2, [0x61])] })
    (fun t => t.wt == [(1, [])] && t.nextCode == 2 && sinkBytes t == [0x61, 0x62]) = true := by decide
theorem test_pairW3 : nextIs (exec (.pairW3 2 0x62) { decOn Params.hw [] with
    nextCode := 4, wt := [(1, []), (2, [0x61]), (3, [0x7a])] })
    (fun t => wordAt t 4 == some [0x61, 0x62] && t.sLen == 2) = true := by decide

/-- R172, R175, R174: the statuses of V35. -/
theorem test_decStop : nextIs (exec .decStop (decOn Params.hw [])) (fun t =>
    statusReg t == 0x12 && t.bytesOut == 0 && t.sink == []) = true := by decide
theorem test_stopW2 : nextIs (exec (.stopW2 0xff) { decOn Params.hw [] with sLen := 1, symBuf := [(0, 0x61)] })
    (fun t => t.sink == [[0x61]] && t.phase == .done) = true := by decide
theorem test_decTrunc : nextIs (exec .decTrunc (decOn Params.hw [])) (fun t => statusReg t == 0x7a) = true := by decide
theorem test_badCode : nextIs (exec (.badCode 3) { decOn Params.hw [] with sLen := 1 }) (fun t =>
    statusReg t == 0x94 && infoReg t == 3 && t.sink == []) = true := by decide
theorem test_raise : nextIs (exec (.raise .badCode 65535) (decOn Params.hw [])) (fun t =>
    statusReg t == 0x94 && infoReg t == 65535) = true := by decide

/-- R211, R212, R214. -/
theorem test_startEnc : nextIs (exec (.startEnc 0) (idleOn Params.hw [])) (fun t => statusReg t == 0x01) = true := by
  decide
theorem test_startDec : nextIs (exec (.startDec 5) (idleOn Params.hw [])) (fun t => statusReg t == 0x11) = true := by
  decide
theorem test_start_while_busy : nextIs (exec (.startDec 0) hitState) (fun t => t == hitState) = true := by decide
theorem test_ctrlNop : nextIs (exec (.ctrlNop 1 0) hitState) (fun t => t == hitState) = true := by decide

/-- R213, R215, R216. -/
theorem test_runInit : nextIs (exec .runInit { hitState with trunc := true, bytesIn := 7, srcEos := true }) (fun t =>
    t.child == [] && t.wt == [(1, [])] && t.nextCode == 2 && !t.trunc && t.bytesIn == 0 && !t.srcEos) = true := by decide
theorem test_csrRead : nextIs (exec (.csrRead 2) { hitState with bytesIn := 7 }) (fun t =>
    t.result == .value 7) = true := by decide
theorem test_hwReset : nextIs (exec .hwReset { hitState with sink := [[0x85]], pBits := 2 }) (fun t =>
    statusReg t == 0 && t.pBits == 0 && t.sink == [[0x85]] && t.nextCode == 2) = true := by decide

/-- R190, R192. -/
theorem test_bitlen : nextIs (exec (.bitlen 257) State.reset) (fun t => t.result == .width 9) = true := by decide
theorem test_advance : nextIs (exec .advance { State.reset with nextCode := 65534 }) (fun t =>
    t.nextCode == 65535 && t.result == .advanced .continued) = true := by decide
theorem test_advance_reset : nextIs (exec .advance { State.reset with nextCode := 65535 }) (fun t =>
    t.nextCode == 2 && t.result == .advanced .reset) = true := by decide

/-! One fetched step: the operation placed where the next step fetches, from reset. -/

theorem test_step_pair : nextIs (step (State.reset.withFetchWord 10 0b0110000101)) (fun t =>
    wordAt t 2 == some [0x61] && t.nextCode == 3 && t.pBits == 10) = true := by decide
theorem test_step_stop : nextIs (step (State.reset.withFetchWord 10 0)) (fun t => statusReg t == 0x12) = true := by decide
theorem test_step_symbol : nextIs (step (State.reset.withFetchWord 8 0x61)) (fun t =>
    childAt t 1 0x61 == some 2 && pairByte t 0 == 0x85) = true := by decide
theorem test_step_start : nextIs (step (State.reset.withFetchWord 64 3)) (fun t => statusReg t == 0x11) = true := by decide
/-- R9, R96: with `next_code` at 65536 a record has 17 bits of code. -/
theorem test_step_wide_record : nextIs (step { decOn wide (bytesOfBits (bitsLE 17 1 ++ bitsOfByte 0x61)) with
    nextCode := 65536 }) (fun t => wordAt t 65536 == some [0x61] && t.nextCode == 65537 && t.sLen == 1) = true := by
  decide +kernel
theorem test_step_wide_stop : nextIs (step { decOn wide [0x00, 0x00, 0x00, 0x00] with nextCode := 65536 }) (fun t =>
    statusReg t == 0x12) = true := by decide +kernel
theorem test_step_idle : nextIs (step State.reset) (fun t => t == State.reset) = true := by decide

/-! For each statement with hypotheses, a state and operands that meet all of them together. -/

/-- What `nextIs` says. -/
theorem next_of_nextIs {o : Host.Outcome State Fault Refusal} {f : State → Bool} (h : nextIs o f = true) :
    ∃ t, o = .next t ∧ f t = true := by
  cases o with
  | next t => exact ⟨t, rfl, h⟩
  | fault r => simp [nextIs] at h
  | refused r => simp [nextIs] at h

theorem idleOn_memory (p : Params) (source : List Byte) : MemoryInv (idleOn p source) := by
  constructor <;> first | rfl | (intro c hc; cases hc)

theorem idleOn_dict (p : Params) (source : List Byte) : DictInv (idleOn p source) := by
  constructor <;> (intro c hc; cases hc)

theorem encOn_inv {p : Params} (hp : p.wf = true) (source : List Byte) : Inv (encOn p source) :=
  startRun_inv .enc rfl hp (idleOn_memory p source) (Nat.two_pow_pos _)

theorem decOn_inv {p : Params} (hp : p.wf = true) (source : List Byte) : Inv (decOn p source) :=
  startRun_inv .dec rfl hp (idleOn_memory p source) (Nat.two_pow_pos _)

/-- An encode at the end of its input `61 61`, its second symbol matched (R155). -/
def midMatch : State := { encOn tiny [] with
  nextCode := 3, cur := 2, prev := 1, lastSym := 0x61, child := [(trieKey 1 0x61, 2)], pBits := 10
  pairBuf := (bitsOfBytes [0x85, 0x01]).zipIdx.map fun b => (b.2, b.1) }

theorem midMatch_inv : Inv midMatch := by
  have h : TrieInv { encOn tiny [] with nextCode := 3, child := [(trieKey 1 0x61, 2)] } :=
    (TrieInv.root (s := encOn tiny []) rfl rfl rfl).grow (x := 0x61) rfl (by decide) rfl rfl rfl
      fun n y => childAt_set (encOn tiny []) 1 n 2 0x61 y
  refine ⟨by decide,
    ⟨by decide, by decide, by decide, by decide, by decide, by decide, by decide, by decide⟩, ⟨by decide, by decide⟩,
    ⟨by decide, by decide, by decide, by decide, by decide, by decide, by decide, by decide⟩,
    ⟨fun _ => by decide, fun _ => by decide, fun _ => by decide, fun _ => by decide, fun _ => by decide, ?_, ?_, ?_, ?_⟩,
    fun _ => (h.hit (x := 0x61) (c := 2) (by decide)).congr rfl rfl rfl rfl rfl rfl, ?_, ⟨rfl, rfl, rfl, rfl⟩⟩ <;>
  (intro hh; exact absurd hh (by decide))

/-- A decode of the body `85 29 06` that has read its first record, P(1, 'a')/2, and stands before its second,
P(2, 'b')/2 (R126, R171). -/
def midDecode : State := { decOn tiny [0x06] with
  nextCode := 3, wt := [(1, []), (2, [0x61])], sLen := 1, symBuf := [(0, 0x61)], pBits := 10, pLen := 2
  pairBuf := (bitsOfBytes [0x85, 0x29]).zipIdx.map fun b => (b.2, b.1) }

theorem midDecode_inv : Inv midDecode := by
  have h : WordInv { decOn tiny [0x06] with nextCode := 3, wt := [(1, []), (2, [0x61])] } :=
    ((decOn_inv (p := tiny) (by decide) [0x06]).words rfl).grow (code := 1) (word := []) (x := 0x61) rfl (by decide)
      (by decide) rfl rfl fun c => wordAt_set (decOn tiny [0x06]) 2 c [0x61]
  refine ⟨by decide,
    ⟨by decide, by decide, by decide, by decide, by decide, by decide, by decide, by decide⟩, ⟨by decide, by decide⟩,
    ⟨by decide, by decide, by decide, by decide, by decide, by decide, by decide, by decide⟩,
    ⟨fun _ => by decide, fun _ => by decide, fun _ => by decide, fun _ => by decide, ?_, fun _ => by decide,
      fun _ => by decide, fun _ => by decide, fun _ => by decide⟩, ?_, fun _ => h.congr rfl rfl rfl,
    ⟨rfl, rfl, rfl, rfl⟩⟩ <;>
  (intro hh; exact absurd hh (by decide))

/-- Outside a run the invariant is about the memories, the widths and the status alone. -/
theorem quiet_inv {s : State} (hp : s.params.wf = true) (hm : MemoryInv s) (hd : DictInv s) (hw : RegWidths s)
    (hb : busy s = false) (hs : StatusInv s) : Inv s := by
  have h : s.phase ≠ .encRun ∧ s.phase ≠ .decRun := by
    constructor <;> (intro hh; simp [busy, hh] at hb)
  refine ⟨hp, hm, hd, hw, ⟨?_, ?_, ?_, ?_, ?_, ?_, ?_, ?_, ?_⟩, ?_, ?_, hs⟩ <;>
  (intro hh; first | (rw [hb] at hh; cases hh) | exact absurd hh h.1 | exact absurd hh h.2)

/-- The same, for a state of the tiny machine whose registers and memories of a run are the idle machine's. -/
theorem tiny_inv {s : State} (hp : s.params = tiny)
    (hr : s.nextCode = 2 ∧ s.cur = 1 ∧ s.prev = 0 ∧ s.pBits = 0 ∧ s.pLen = 0 ∧ s.sIdx = 0 ∧ s.sLen = 0)
    (hm : s.child = [] ∧ s.wt = [] ∧ s.symBuf = [] ∧ s.pairBuf = []) (hi : s.info < 8) (hb : busy s = false)
    (hs : StatusInv s) : Inv s := by
  obtain ⟨r1, r2, r3, r4, r5, r6, r7⟩ := hr
  obtain ⟨m1, m2, m3, m4⟩ := hm
  refine quiet_inv (by rw [hp]; decide) ((idleOn_memory tiny []).congr hp m1 m2 m3 m4)
    ⟨by rw [m1]; exact fun c hc => (nomatch hc), by rw [m2]; exact fun c hc => (nomatch hc)⟩ ?_ hb hs
  constructor
  · rw [hp, r1]; decide
  · rw [hp, r2]; decide
  · rw [hp, r3]; decide
  · rw [hp]; exact hi
  all_goals omega

/-! Encoding. -/

theorem witness_DecodeOfEncode : Params.hw.wf = true ∧ (Instr.pairW9 257 0x66).wellFormed Params.hw = true ∧
    encode Params.hw (.pairW9 257 0x66) = some (.record 9, 0b01100110100000001) := by decide

/-- A record of the table, and a wider one. -/
theorem witness_EncodeOfDecode : Params.hw.wf = true ∧
    decode Params.hw (.record 2) (bitsLE 10 0b0110000101 ++ [true]) = .ok (.pairW2 1 0x61, [true]) ∧
    wide.wf = true ∧ decode wide (.record 17) (bitsLE 17 65536 ++ bitsOfByte 0x61) = .ok (.decPair 65536 0x61, []) :=
  ⟨by decide, by decide, by decide, rfl⟩

/-- Both widths at the table's ends, and a wider one; a STOP and a PAIR record at each. -/
theorem witness_RecordFields : Params.hw.wf = true ∧
    (recordWidthOk Params.hw 2 = true ∧ 2 + 8 ≤ (List.replicate 10 false).length ∧
      natOfBits ((List.replicate 10 false).take 2) = Params.hw.stopCode ∧ 2 + 8 ≤ (List.replicate 10 true).length ∧
      natOfBits ((List.replicate 10 true).take 2) ≠ Params.hw.stopCode) ∧
    (recordWidthOk Params.hw 16 = true ∧ 16 + 8 ≤ (List.replicate 24 false).length ∧
      natOfBits ((List.replicate 24 false).take 16) = Params.hw.stopCode ∧ 16 + 8 ≤ (List.replicate 24 true).length ∧
      natOfBits ((List.replicate 24 true).take 16) ≠ Params.hw.stopCode) ∧
    (wide.wf = true ∧ recordWidthOk wide 17 = true ∧ 17 + 8 ≤ (List.replicate 25 false).length ∧
      natOfBits ((List.replicate 25 false).take 17) = wide.stopCode ∧ 17 + 8 ≤ (List.replicate 25 true).length ∧
      natOfBits ((List.replicate 25 true).take 17) ≠ wide.stopCode) := by decide

theorem witness_CtrlWriteSelects : ((1 : Word64).getLsbD 0 = true ∧ (1 : Word64).getLsbD 1 = false) ∧
    ((3 : Word64).getLsbD 0 = true ∧ (3 : Word64).getLsbD 1 = true) ∧ (2 : Word64).getLsbD 0 = false := by decide

/-! Code width. -/

theorem witness_BitlenIsLeastWidth : 1 ≤ 1 ∧ 1 < 2 ^ 1 ∧ 0 < 1 := by decide

/-- Both clauses where they meet: codes 65534 and 65535. -/
theorem witness_AdvanceCounts :
    (({ State.reset with nextCode := 65534 } : State).nextCode < State.reset.params.maxCode ∧
      ({ State.reset with nextCode := 65534 } : State).nextCode + 1 < State.reset.params.maxCode) ∧
    (({ State.reset with nextCode := 65535 } : State).nextCode < State.reset.params.maxCode ∧
      ({ State.reset with nextCode := 65535 } : State).nextCode + 1 = State.reset.params.maxCode) := by decide

/-- One operation of each clause, changing `next_code`. -/
theorem witness_NextCodeWriters :
    (∃ t, exec (.encSym 0x61) (encOn tiny []) = .next t ∧ (t.nextCode != (encOn tiny []).nextCode) = true) ∧
    (∃ t, exec (.encSymMiss 0x61) (encOn tiny []) = .next t ∧ (t.nextCode != (encOn tiny []).nextCode) = true) ∧
    (∃ t, exec (.decPair 1 0x61) (decOn tiny []) = .next t ∧ (t.nextCode != (decOn tiny []).nextCode) = true) ∧
    (∃ t, exec (.pairW2 1 0x61) (decOn tiny []) = .next t ∧ (t.nextCode != (decOn tiny []).nextCode) = true) ∧
    (∃ t, exec .advance (encOn tiny []) = .next t ∧ (t.nextCode != (encOn tiny []).nextCode) = true) ∧
    (∃ t, exec (.startEnc 0) { State.reset with nextCode := 3 } = .next t ∧ (t.nextCode != 3) = true) ∧
    (∃ t, exec .runInit { State.reset with nextCode := 3 } = .next t ∧ (t.nextCode != 3) = true) ∧
    (∃ t, exec .hwReset { State.reset with nextCode := 3 } = .next t ∧ (t.nextCode != 3) = true) :=
  ⟨next_of_nextIs (by decide), next_of_nextIs (by decide), next_of_nextIs (by decide), next_of_nextIs (by decide),
    next_of_nextIs (by decide), next_of_nextIs (by decide), next_of_nextIs (by decide), next_of_nextIs (by decide)⟩

/-- The last two clauses: whatever `next_code` is left, some run's last step changes it, since it is in its width. -/
theorem witness_NextCodeWriters_end :
    (∃ s t, exec .decStop s = .next t ∧ t.nextCode ≠ s.nextCode) ∧
    ∃ s t, exec (.badCode 3) s = .next t ∧ t.nextCode ≠ s.nextCode :=
  ⟨⟨{ decOn tiny [] with nextCode := 8 }, _, rfl,
      Nat.ne_of_lt (endRun_widths .done (s := flushSyms { decOn tiny [] with nextCode := 8 }) (by decide)).nextCode⟩,
    { decOn tiny [] with nextCode := 8 }, _, rfl, Nat.ne_of_lt (Nat.mod_lt _ (by decide))⟩

theorem witness_WidthRange : Inv (encOn Params.hw [0x61]) ∧ busy (encOn Params.hw [0x61]) = true :=
  ⟨encOn_inv (by decide) _, by decide⟩

/-- A step that counts, a step that resets, and a run's start. -/
theorem witness_WidthMonotone :
    (Inv (encOn tiny [0x61]) ∧ busy (encOn tiny [0x61]) = true ∧
      ∃ t, step (encOn tiny [0x61]) = .next t ∧ (busy t && t.nextCode == 3) = true) ∧
    (Inv (encOn single [0x61]) ∧ busy (encOn single [0x61]) = true ∧
      ∃ t, step (encOn single [0x61]) = .next t ∧ (busy t && t.nextCode == 3) = true) ∧
    (busy { idleOn tiny [] with moves := [.regWrite 0 1] } = false ∧
      ∃ t, step { idleOn tiny [] with moves := [.regWrite 0 1] } = .next t ∧ busy t = true) :=
  ⟨⟨encOn_inv (by decide) _, by decide, next_of_nextIs (by decide)⟩,
    ⟨encOn_inv (by decide) _, by decide, next_of_nextIs (by decide)⟩, by decide, next_of_nextIs (by decide)⟩

/-! Bit stream codec. -/

/-- The length at the range's end, before and after the source's end; a short read, and a full one. -/
theorem witness_RdBytesFillsFromSource : 2 ≤ (idleOn tiny [0x61]).params.block ∧ 0 ≤ (idleOn tiny []).params.block ∧
    (idleOn tiny [0x61]).srcEos = false ∧ ({ idleOn tiny [] with srcEos := true } : State).srcEos = true ∧
    HostKeepsContract (idleOn tiny [0x61]) :=
  ⟨by decide, by decide, by decide, by decide, by simp [HostKeepsContract, idleOn, State.reset]⟩

theorem witness_WrBytesPushes : 1 ≤ 1 ∧ 1 ≤ (idleOn tiny []).params.block ∧ 2 ≤ (idleOn tiny []).params.block := by
  decide

/-- A prefetched symbol; none. -/
theorem witness_RdSymHandsOut :
    (0 ≤ 2 ∧ ({ idleOn tiny [] with sLen := 2 } : State).sLen ≤ tiny.block ∧
      ({ idleOn tiny [] with sLen := 2 } : State).sIdx < ({ idleOn tiny [] with sLen := 2 } : State).sLen) ∧
    ((idleOn tiny [0x61]).sIdx ≤ (idleOn tiny [0x61]).sLen ∧ (idleOn tiny [0x61]).sLen ≤ tiny.block ∧
      (idleOn tiny [0x61]).sIdx = (idleOn tiny [0x61]).sLen ∧ 1 ≤ tiny.block ∧ HostKeepsContract (idleOn tiny [0x61])) :=
  ⟨by decide, by decide, by decide, by decide, by decide, by simp [HostKeepsContract, idleOn, State.reset]⟩

theorem witness_WrRunAppends : (idleOn tiny []).sLen < (idleOn tiny []).params.block ∧
    ({ idleOn tiny [] with sLen := 1 } : State).sLen < (idleOn tiny []).params.block := by decide

/-- A prefetched bit, the last of a full buffer; none. -/
theorem witness_GetBitReads :
    (({ idleOn tiny [] with pLen := 2, pBits := 15 } : State).pBits ≤ 8 * 2 ∧ 2 ≤ tiny.block ∧
      ({ idleOn tiny [] with pLen := 2, pBits := 15 } : State).pBits < 8 * 2) ∧
    (({ idleOn tiny [0x61] with pLen := 2, pBits := 16 } : State).pBits = 8 * 2 ∧ 1 ≤ tiny.block ∧
      HostKeepsContract { idleOn tiny [0x61] with pLen := 2, pBits := 16 }) :=
  ⟨by decide, by decide, by decide, by simp [HostKeepsContract, idleOn, State.reset]⟩

/-- The first bit, and the last of the buffer. -/
theorem witness_PutBitStores :
    ((idleOn tiny []).pBits < 8 * tiny.block ∧ (idleOn tiny []).pBits + 1 < 8 * tiny.block) ∧
    (({ idleOn tiny [] with pBits := 15 } : State).pBits < 8 * tiny.block ∧
      ({ idleOn tiny [] with pBits := 15 } : State).pBits + 1 = 8 * tiny.block) := by decide

/-- A record whole in the buffer; one the source gives; one truncated. -/
theorem witness_RdPairReadsRecord :
    ((idleOn tiny [0x85, 0x01]).pBits ≤ 8 * (idleOn tiny [0x85, 0x01]).pLen ∧
      (idleOn tiny [0x85, 0x01]).pLen ≤ tiny.block ∧ 1 ≤ tiny.block ∧
      HostKeepsContract (idleOn tiny [0x85, 0x01]) ∧ 2 + 8 ≤ (pendingBits (idleOn tiny [0x85, 0x01])).length) ∧
    ¬ 2 + 8 ≤ (pendingBits (idleOn tiny [0x85])).length ∧ 2 + 8 ≤ 8 * 2 - 6 ∧
    ({ idleOn tiny [] with srcEos := true } : State).srcEos = true ∧
    8 * min tiny.block (idleOn tiny [0x85]).source.length ≤ 8 :=
  ⟨⟨by decide, by decide, by decide, by simp [HostKeepsContract, idleOn, State.reset], by decide⟩, by decide, by decide,
    by decide, by decide⟩

theorem witness_WrPairAppends : (idleOn tiny []).pBits < 8 * tiny.block ∧
    ({ idleOn tiny [] with pBits := 15 } : State).pBits < 8 * tiny.block := by decide

theorem witness_FlushPairsPads : ((idleOn tiny []).pBits ≤ 8 * tiny.block ∧ (idleOn tiny []).pBits = 0) ∧
    (({ idleOn tiny [] with pBits := 16 } : State).pBits ≤ 8 * tiny.block ∧
      0 < ({ idleOn tiny [] with pBits := 16 } : State).pBits) := by decide

theorem witness_FlushSymsPushes : ((idleOn tiny []).sLen ≤ tiny.block ∧ (idleOn tiny []).sLen = 0) ∧
    (({ idleOn tiny [] with sLen := 2 } : State).sLen ≤ tiny.block ∧
      0 < ({ idleOn tiny [] with sLen := 2 } : State).sLen) := by decide

theorem witness_PairCodecGuarantee : 1 ≤ (idleOn tiny []).params.block ∧ (idleOn tiny []).pBits = 0 := by decide

theorem witness_SymbolCodecGuarantee : 1 ≤ (idleOn tiny []).params.block ∧ (idleOn tiny []).sLen = 0 := by decide

theorem witness_UnpackerGuarantee : 1 ≤ (idleOn tiny [0x85]).params.block ∧
    HostKeepsContract { idleOn tiny [0x85] with cuts := [1] } ∧ (idleOn tiny [0x85]).srcEos = false ∧
    (idleOn tiny [0x85]).pBits = 0 ∧ (idleOn tiny [0x85]).pLen = 0 :=
  ⟨by decide, by simp [HostKeepsContract], by decide, by decide, by decide⟩

/-! Trie encoder. -/

theorem witness_EncSymHitDescends : childAt hitState hitState.cur 0x61 = some 2 := by decide

/-- A miss that counts, and one at the capacity. -/
theorem witness_EncSymMissEmits :
    (childAt (encOn tiny []) (encOn tiny []).cur 0x61 = none ∧ (encOn tiny []).pBits < 8 * tiny.block ∧
      (encOn tiny []).cur < tiny.maxCode ∧ (encOn tiny []).nextCode < tiny.maxCode ∧
      (encOn tiny []).nextCode + 1 < tiny.maxCode) ∧
    (childAt midMatch midMatch.cur 0x61 = none ∧ midMatch.pBits < 8 * tiny.block ∧ midMatch.cur < tiny.maxCode ∧
      midMatch.nextCode < tiny.maxCode ∧ midMatch.nextCode + 1 = tiny.maxCode) := by decide

/-- The end of input at the root; mid-match, at the capacity. -/
theorem witness_EncEosFinishes :
    ((encOn tiny []).pBits < 8 * tiny.block ∧ (encOn tiny []).cur = tiny.emptyCode) ∧
    (midMatch.pBits < 8 * tiny.block ∧ midMatch.cur ≠ tiny.emptyCode ∧ midMatch.nextCode < tiny.maxCode ∧
      midMatch.nextCode + 1 = tiny.maxCode) := by decide

theorem witness_EmittedCodesFit : (Inv midMatch ∧ midMatch.phase = .encRun ∧ midMatch.cur ≠ midMatch.params.emptyCode) ∧
    Inv (encOn Params.hw []) ∧ (encOn Params.hw []).phase = .encRun :=
  ⟨⟨midMatch_inv, by decide, by decide⟩, encOn_inv (by decide) _, by decide⟩

/-! Word-table decoder. -/

/-- A record and DEC_PAIR below the capacity, and at it. -/
theorem witness_PairRecordAppendsWord :
    ((pairRecord (.pairW2 1 0x61) = some (2, 1, 0x61)) ∧ wordAt (decOn tiny []) 1 = some [] ∧
      (decOn tiny []).nextCode < tiny.maxCode ∧ (decOn tiny []).sLen < tiny.block ∧
      (decOn tiny []).nextCode + 1 < tiny.maxCode) ∧
    ((pairRecord (.pairW2 2 0x62) = some (2, 2, 0x62)) ∧ wordAt midDecode 2 = some [0x61] ∧
      midDecode.nextCode < tiny.maxCode ∧ midDecode.sLen < tiny.block ∧ midDecode.nextCode + 1 = tiny.maxCode ∧
      tiny.emptyCode ≠ midDecode.nextCode) := by decide

theorem witness_StopRecordFinishes : stopRecord (.stopW16 0xa5) = some (16, 0xa5) ∧
    ((decOn tiny []).sLen ≤ tiny.block ∧ (decOn tiny []).sLen = 0) ∧ midDecode.sLen ≤ tiny.block ∧ 0 < midDecode.sLen := by
  decide

theorem witness_TruncationReports : ((decOn tiny []).sLen ≤ tiny.block ∧ (decOn tiny []).sLen = 0) ∧
    midDecode.sLen ≤ tiny.block ∧ 0 < midDecode.sLen := by decide

theorem witness_IllegalRecordRaises :
    RaisesBadCode (decOn Params.hw []) (.pairW16 65535 0x61) 65535 ∧ 65535 < 2 ^ (Params.hw.codeBits + 1) ∧
    RaisesBadCode (decOn Params.hw []) (.raise .badCode 131071) 131071 ∧ 131071 < 2 ^ (Params.hw.codeBits + 1) :=
  ⟨.inr (.inr ⟨rfl, 0x61, .inl ⟨16, rfl⟩⟩), by rw [show Params.hw.codeBits = 16 by decide]; omega, .inr (.inl rfl),
    by rw [show Params.hw.codeBits = 16 by decide]; omega⟩

theorem witness_PreconditionsDecide : childAt (encOn tiny []) (encOn tiny []).cur 0x61 = none ∧
    childAt hitState hitState.cur 0x61 ≠ none ∧ wordAt (decOn tiny []) 2 = none := by decide

/-- A state for each clause, at the bound. -/
theorem witness_OutOfRangeStops :
    8 * tiny.block ≤ ({ encOn tiny [] with pBits := 16 } : State).pBits ∧
    8 * tiny.block < ({ encOn tiny [] with pBits := 17 } : State).pBits ∧
    8 * ({ encOn tiny [] with pBits := 1 } : State).pLen < ({ encOn tiny [] with pBits := 1 } : State).pBits ∧
    tiny.block < ({ encOn tiny [] with pLen := 3 } : State).pLen ∧
    ({ encOn tiny [] with sIdx := 1 } : State).sLen < ({ encOn tiny [] with sIdx := 1 } : State).sIdx ∧
    tiny.block ≤ ({ encOn tiny [] with sLen := 2 } : State).sLen ∧
    tiny.block < ({ encOn tiny [] with sLen := 3 } : State).sLen ∧
    tiny.maxCode ≤ ({ encOn tiny [] with nextCode := 4 } : State).nextCode ∧
    (childAt { encOn tiny [] with pBits := 16 } 1 0x61 = none ∧ childAt { encOn tiny [] with cur := 4 } 4 0x61 = none ∧
      ({ encOn tiny [] with cur := 4 } : State).pBits < 8 * tiny.block ∧
      tiny.maxCode ≤ ({ encOn tiny [] with cur := 4 } : State).cur) ∧
    (({ midMatch with nextCode := 4 } : State).pBits < 8 * tiny.block ∧
      ({ midMatch with nextCode := 4 } : State).cur ≠ tiny.emptyCode) ∧
    (wordAt { decOn tiny [] with nextCode := 4 } 1 ≠ none ∧ wordAt { decOn tiny [] with sLen := 2 } 1 ≠ none ∧
      ({ decOn tiny [] with sLen := 2 } : State).nextCode < tiny.maxCode) ∧
    tiny.block < 3 := by decide

/-! Host commands and reset. -/

theorem witness_StartBeginsRun : (idleOn tiny []).phase = .idle ∧
    ({ decOn tiny [] with phase := .done } : State).phase = .done ∧
    ({ decOn tiny [] with phase := .error } : State).phase = .error := by decide

theorem witness_StartWhileBusyIgnored : midMatch.phase = .encRun ∧ midDecode.phase = .decRun := by decide

theorem witness_CsrReadFields : 4 < 5 ∧ ({ idleOn Params.hw [] with info := 131071 } : State).info < 2 ^ 17 :=
  ⟨by decide, by show 131071 < 2 ^ 17; omega⟩

/-! The step. -/

theorem test_decode_start_written : decode tiny .command (bitsLE 64 3) = .ok (.startDec 0, []) := rfl

/-- A host's write; a record; a symbol. -/
theorem witness_StepRunsDecoded :
    (({ idleOn tiny [] with moves := [.regWrite 0 3] } : State).moves = [.regWrite 0 3] ∧
      decode tiny .command (bitsLE 64 3) = .ok (.startDec 0, [])) ∧ (3 : Word64).toNat = 3 ∧
    (EngineTurn midDecode ∧ midDecode.phase = .decRun ∧ midDecode.pBits ≤ 8 * midDecode.pLen ∧
      midDecode.pLen ≤ tiny.block ∧ 1 ≤ tiny.block ∧ HostKeepsContract midDecode ∧
      decode tiny (.record (recordWidth midDecode)) (pendingBits midDecode) =
        .ok (.pairW2 2 0x62, [false, false, false, false])) ∧
    (EngineTurn (encOn tiny [0x61]) ∧ (encOn tiny [0x61]).phase = .encRun ∧
      (encOn tiny [0x61]).sIdx ≤ (encOn tiny [0x61]).sLen ∧ (encOn tiny [0x61]).sLen ≤ tiny.block ∧
      HostKeepsContract (encOn tiny [0x61]) ∧
      decode tiny .symbol (bitsOfBytes (pendingSyms (encOn tiny [0x61]))) = .ok (.encSym 0x61, [])) :=
  ⟨⟨rfl, test_decode_start_written⟩, rfl,
    ⟨.inl rfl, by decide, by decide, by decide, by decide, (nomatch ·), by decide⟩, .inl rfl, by decide,
    by decide, by decide, (nomatch ·), by decide⟩

/-- A decoder's step: nothing there, a STOP, a pair, an illegal record. -/
theorem witness_DecoderStepSelects :
    (∀ source, Inv (decOn tiny source) ∧ (decOn tiny source).phase = .decRun ∧ EngineTurn (decOn tiny source) ∧
      HostKeepsContract (decOn tiny source)) ∧
    (pendingBits (decOn tiny [0x00])).length < recordWidth (decOn tiny [0x00]) + 8 ∧
    (recordWidth (decOn tiny [0x00, 0x00]) + 8 ≤ (pendingBits (decOn tiny [0x00, 0x00])).length ∧
      natOfBits ((pendingBits (decOn tiny [0x00, 0x00])).take 2) = tiny.stopCode) ∧
    (natOfBits ((pendingBits (decOn tiny [0x85, 0x01])).take 2) = 1 ∧ wordAt (decOn tiny [0x85, 0x01]) 1 ≠ none) ∧
    (natOfBits ((pendingBits (decOn tiny [0x0b, 0x00])).take 2) = 3 ∧ wordAt (decOn tiny [0x0b, 0x00]) 3 = none) :=
  ⟨fun source => ⟨decOn_inv (by decide) source, rfl, .inl rfl, (nomatch ·)⟩, by decide, by decide, by decide, by decide⟩

/-- An encoder's step: a symbol, and the end of input. -/
theorem witness_EncoderStepSelects :
    (∀ source, Inv (encOn tiny source) ∧ (encOn tiny source).phase = .encRun ∧ EngineTurn (encOn tiny source) ∧
      HostKeepsContract (encOn tiny source)) ∧
    pendingSyms (encOn tiny [0x61]) = 0x61 :: [] ∧ pendingSyms (encOn tiny []) = [] :=
  ⟨fun source => ⟨encOn_inv (by decide) source, rfl, .inl rfl, (nomatch ·)⟩, by decide, by decide⟩

theorem witness_HostMovesAndIdle : (EngineTurn { idleOn tiny [] with moves := [.wait] } ∧ EngineTurn (idleOn tiny []) ∧
      busy { idleOn tiny [] with moves := [.wait] } = false) ∧
    (({ idleOn tiny [] with moves := [.regWrite 1 7] } : State).moves = [.regWrite 1 7] ∧ 1 ≠ 0) ∧
    ({ idleOn tiny [] with moves := [.regRead 1] } : State).moves = [.regRead 1] ∧
    ({ idleOn tiny [] with moves := [.rst] } : State).moves = [.rst] ∧
    ({ idleOn tiny [] with moves := [.connect [0x61] [1]] } : State).moves = [.connect [0x61] [1]] :=
  ⟨⟨.inr rfl, .inl rfl, by decide⟩, by decide, by decide, by decide, by decide⟩

/-- An operation, and a step, of each kind that changes the phase. -/
theorem witness_PhaseTransitions :
    (∃ t, exec (.startEnc 0) (idleOn tiny []) = .next t ∧ (t.phase != .idle) = true) ∧
    (∃ t, exec (.startDec 0) (idleOn tiny []) = .next t ∧ (t.phase != .idle) = true) ∧
    (∃ t, exec .hwReset midMatch = .next t ∧ (t.phase != .encRun) = true) ∧
    (∃ t, exec .encEos midMatch = .next t ∧ (t.phase != .encRun) = true) ∧
    (∃ t, exec (.badCode 3) midDecode = .next t ∧ (t.phase != .decRun) = true) ∧
    (∃ t, step { idleOn tiny [] with moves := [.regWrite 0 1] } = .next t ∧ (t.phase != .idle) = true) ∧
    (∃ t, step { idleOn tiny [] with moves := [.regWrite 0 3] } = .next t ∧ (t.phase != .idle) = true) ∧
    (∃ t, step { midMatch with moves := [.rst] } = .next t ∧ (t.phase != .encRun) = true) ∧
    (∃ t, step (encOn tiny []) = .next t ∧ (t.phase != .encRun) = true) ∧
    (∃ t, step (decOn tiny [0x00, 0x00]) = .next t ∧ (t.phase != .decRun) = true) ∧
    (∃ t, step (decOn tiny []) = .next t ∧ (t.phase != .decRun) = true) ∧
    (∃ t, step (decOn tiny [0x0b, 0x00]) = .next t ∧ (t.phase != .decRun) = true) :=
  ⟨next_of_nextIs (by decide), next_of_nextIs (by decide), next_of_nextIs (by decide), next_of_nextIs (by decide),
    next_of_nextIs (by decide), next_of_nextIs (by decide), next_of_nextIs (by decide), next_of_nextIs (by decide), next_of_nextIs (by decide),
    next_of_nextIs (by decide), next_of_nextIs (by decide), next_of_nextIs (by decide)⟩

/-- The engine's turn, and a move of the host. -/
theorem witness_StreamsMoveForward :
    (Inv (decOn tiny [0x00, 0x00]) ∧ EngineTurn (decOn tiny [0x00, 0x00]) ∧
      ∃ t, step (decOn tiny [0x00, 0x00]) = .next t ∧ (t.source == []) = true) ∧
    (Inv { idleOn tiny [] with moves := [.regRead 1] } ∧ ¬ EngineTurn { idleOn tiny [] with moves := [.regRead 1] } ∧
      ∃ t, step { idleOn tiny [] with moves := [.regRead 1] } = .next t ∧ (t.result == .value 0) = true) :=
  ⟨⟨decOn_inv (by decide) _, .inl rfl, next_of_nextIs (by decide)⟩,
    tiny_inv rfl (by decide) (by decide) (by decide) rfl ⟨rfl, rfl, rfl, rfl⟩,
    by simp [EngineTurn], next_of_nextIs (by decide)⟩

/-- An operation of each clause, changing the report. -/
theorem witness_ReportWriters :
    (∃ t, exec (.startEnc 0) { idleOn tiny [] with phase := .done, trunc := true, cause := 3 } = .next t ∧
      (t.trunc != true) = true) ∧
    (∃ t, exec .runInit { idleOn tiny [] with cause := 4, info := 3 } = .next t ∧ (t.info != 3) = true) ∧
    (∃ t, exec .hwReset { idleOn tiny [] with cause := 4, info := 3 } = .next t ∧ (t.cause != 4) = true) ∧
    (∃ t, exec .decTrunc (decOn tiny []) = .next t ∧ (t.trunc != false) = true) ∧
    (∃ t, exec (.badCode 3) (decOn tiny []) = .next t ∧ (t.cause != 0) = true) ∧
    (∃ t, exec (.raise .badCode 3) (decOn tiny []) = .next t ∧ (t.cause != 0) = true) ∧
    (∃ t, exec (.pairW2 3 0) (decOn tiny []) = .next t ∧ (t.phase == .error) = true) ∧
    (∃ t, exec (.decPair 3 0) (decOn tiny []) = .next t ∧ (t.phase == .error) = true) :=
  ⟨next_of_nextIs (by decide), next_of_nextIs (by decide), next_of_nextIs (by decide), next_of_nextIs (by decide),
    next_of_nextIs (by decide), next_of_nextIs (by decide), next_of_nextIs (by decide), next_of_nextIs (by decide)⟩

/-! Invariants and runs. -/

/-- In an encode, mid-match; in a decode, before a capacity reset; outside a run, at a start. -/
theorem witness_StepKeepsInv :
    (Inv midMatch ∧ ∃ t, step midMatch = .next t ∧ (t.phase == .done) = true) ∧
    (Inv midDecode ∧ ∃ t, step midDecode = .next t ∧ (t.nextCode == 2) = true) ∧
    (Inv { idleOn tiny [] with moves := [.regWrite 0 1] } ∧
      ∃ t, step { idleOn tiny [] with moves := [.regWrite 0 1] } = .next t ∧ busy t = true) :=
  ⟨⟨midMatch_inv, next_of_nextIs (by decide)⟩, ⟨midDecode_inv, next_of_nextIs (by decide)⟩,
    tiny_inv rfl (by decide) (by decide) (by decide) rfl ⟨rfl, rfl, rfl, rfl⟩,
    next_of_nextIs (by decide)⟩

theorem witness_StepNeverStops : Inv midMatch ∧ Inv midDecode := ⟨midMatch_inv, midDecode_inv⟩

theorem witness_MemoriesStayCanonical : midMatch.params.wf = true ∧ MemoryInv midMatch ∧
    ∃ t, exec (.encSym 0x62) midMatch = .next t ∧ (t.pairBuf.length == 16) = true :=
  ⟨by decide, midMatch_inv.memory, next_of_nextIs (by decide)⟩

/-- A state of each phase, and the two other ways to be in `DONE`. -/
theorem witness_StatusValues : Inv (idleOn tiny []) ∧ Inv midMatch ∧ Inv midDecode ∧
    Inv { idleOn tiny [] with phase := .done } ∧ Inv { idleOn tiny [] with phase := .done, mode := .dec } ∧
    Inv { idleOn tiny [] with phase := .done, mode := .dec, trunc := true, cause := 3 } ∧
    Inv { idleOn tiny [] with phase := .error, mode := .dec, cause := 4, info := 3 } := by
  exact ⟨tiny_inv rfl (by decide) (by decide) (by decide) rfl ⟨rfl, rfl, rfl, rfl⟩, midMatch_inv, midDecode_inv,
    tiny_inv rfl (by decide) (by decide) (by decide) rfl ⟨rfl, .inl ⟨rfl, rfl⟩⟩,
    tiny_inv rfl (by decide) (by decide) (by decide) rfl ⟨rfl, .inl ⟨rfl, rfl⟩⟩,
    tiny_inv rfl (by decide) (by decide) (by decide) rfl ⟨rfl, .inr ⟨rfl, rfl, rfl⟩⟩,
    tiny_inv rfl (by decide) (by decide) (by decide) rfl ⟨rfl, rfl, rfl⟩⟩

theorem witness_RunsEnd : (Inv midMatch ∧ midMatch.moves = [] ∧ midMatch.phase = .encRun) ∧
    Inv midDecode ∧ midDecode.moves = [] ∧ midDecode.phase = .decRun :=
  ⟨⟨midMatch_inv, rfl, rfl⟩, midDecode_inv, rfl, rfl⟩

/-- An encode, and a decode of whatever body it gave, with another `BLOCK`. -/
theorem witness_RoundTrip :
    (tiny.wf = true ∧ busy { idleOn tiny [0x61] with moves := [.regWrite 0 1] } = false ∧
      HostKeepsContract { idleOn tiny [0x61] with moves := [.regWrite 0 1] }) ∧
    ∀ body, ({ tiny with block := 1 } : Params).wf = true ∧
      busy { idleOn { tiny with block := 1 } body with moves := [.regWrite 0 3], cuts := [1] } = false ∧
      HostKeepsContract { idleOn { tiny with block := 1 } body with moves := [.regWrite 0 3], cuts := [1] } ∧
      ({ idleOn { tiny with block := 1 } body with moves := [.regWrite 0 3], cuts := [1] } : State).source = body :=
  ⟨⟨by decide, by decide, (nomatch ·)⟩, fun body => ⟨by decide, rfl, by simp [HostKeepsContract], rfl⟩⟩

theorem witness_BlockChangesNoResult : tiny.wf = true ∧ ({ tiny with block := 3 } : Params).wf = true ∧
    busy { idleOn tiny [0x85, 0x01] with moves := [.regWrite 0 3] } = false ∧
    busy { idleOn { tiny with block := 3 } [0x85, 0x01] with moves := [.regWrite 0 3], cuts := [1] } = false ∧
    (3 : Word64).getLsbD 0 = true ∧ HostKeepsContract { idleOn tiny [0x85, 0x01] with moves := [.regWrite 0 3] } ∧
    HostKeepsContract { idleOn { tiny with block := 3 } [0x85, 0x01] with moves := [.regWrite 0 3], cuts := [1] } :=
  ⟨by decide, by decide, by decide, by decide, by decide, (nomatch ·), by simp [HostKeepsContract]⟩

/-- Two states at the root that differ in the parent, the last symbol and a consumed byte of SYMBUF. -/
theorem witness_ResidueIsInvisible :
    Inv (encOn single [0x61]) ∧ Inv { encOn single [0x61] with prev := 3, lastSym := 0x7a, symBuf := [(0, 0x7a)] } ∧
    Alike (encOn single [0x61]) { encOn single [0x61] with prev := 3, lastSym := 0x7a, symBuf := [(0, 0x7a)] } ∧
    ∃ t, step (encOn single [0x61]) = .next t ∧ (t.pBits != 0) = true := by
  have h := encOn_inv (p := single) (by decide) [0x61]
  obtain ⟨h1, ⟨m1, m2, m3, m4, m5, m6, m7, m8⟩, ⟨d1, d2⟩, ⟨w1, w2, w3, w4, w5, w6, w7, w8⟩,
    ⟨b1, b2, b3, b4, b5, b6, b7, b8, b9⟩, -, h5, h6⟩ := h
  exact ⟨encOn_inv (by decide) _, ⟨h1, ⟨m1, m2, by decide, m4, m5, m6, by decide, m8⟩, ⟨d1, d2⟩,
      ⟨w1, w2, by decide, w4, w5, w6, w7, w8⟩, ⟨b1, b2, b3, b4, b5, b6, b7, b8, b9⟩,
      fun _ => TrieInv.root rfl rfl rfl, fun hh => absurd hh (by decide), ⟨rfl, rfl, rfl, rfl⟩⟩,
    ⟨rfl, rfl, rfl, ⟨rfl, rfl, rfl⟩, ⟨rfl, rfl⟩, ⟨rfl, rfl, rfl, rfl⟩, rfl, rfl,
      fun _ => ⟨rfl, rfl, rfl, rfl, rfl, rfl⟩,
      fun _ => ⟨rfl, fun hh => absurd rfl hh, fun _ _ => rfl, fun _ _ hi => absurd hi (Nat.not_lt_zero _),
        fun _ hq => absurd hq (Nat.not_lt_zero _)⟩,
      fun hh => absurd hh (by decide)⟩, next_of_nextIs (by decide)⟩

end Sys2Proof.Tests
end

section
/-! The operation at the front of what is pending is the one the step runs (O42). -/

namespace Sys2Proof

/-- The bits of `w + 8` stream bits are a code field and a symbol field (R92, R93). -/
theorem natOfBits_take_record {w : Nat} {bits : List Bool} (h : w ≤ bits.length) :
    natOfBits (bits.take (w + 8)) = natOfBits (bits.take w) + 2 ^ w * natOfBits ((bits.drop w).take 8) := by
  rw [List.take_add, natOfBits_append, List.length_take_of_le h]

/-- Decoding succeeds where the bits are enough and their value is an operation; the rest of the bits stays. -/
theorem decode_eq_ok_iff {p : Params} {f : Format} {bits rest : List Bool} {i : Instr} :
    decode p f bits = .ok (i, rest) ↔
      f.length ≤ bits.length ∧ decodeValue p f (natOfBits (bits.take f.length)) = .ok i ∧ bits.drop f.length = rest := by
  unfold decode
  by_cases hl : bits.length < f.length
  · simp [hl]
  · rw [if_neg hl]
    cases decodeValue p f (natOfBits (bits.take f.length)) with
    | error e => simp
    | ok j => simp [Nat.le_of_not_lt hl]

/-- A record that decodes has its two fields read in order, and selects its operation by the code field (R93, R96). -/
theorem of_decode_record {p : Params} {w : Nat} {bits rest : List Bool} {i : Instr}
    (h : decode p (.record w) bits = .ok (i, rest)) :
    w + 8 ≤ bits.length ∧ rest = bits.drop (w + 8) ∧
      i = recordInstr p w (natOfBits (bits.take w)) (byteOfBits ((bits.drop w).take 8)) := by
  obtain ⟨hl, hv, hr⟩ := decode_eq_ok_iff.1 h
  simp only [Format.length] at hl hv hr
  have hw : w ≤ bits.length := by omega
  have hc : natOfBits (bits.take w) < 2 ^ w := by
    simpa only [List.length_take_of_le hw] using natOfBits_lt (bits.take w)
  refine ⟨hl, hr.symm, ?_⟩
  unfold decodeValue at hv
  simp only at hv
  split at hv
  · rw [natOfBits_take_record hw, Nat.add_mul_mod_self_left, Nat.mod_eq_of_lt hc,
      Nat.add_mul_div_left _ _ (Nat.two_pow_pos w), Nat.div_eq_of_lt hc, Nat.zero_add] at hv
    exact (Except.ok.inj hv).symm
  · cases hv

/-- A symbol decodes only from a byte that is there, and to ENC_SYM of it (R101). -/
theorem of_decode_symbol {p : Params} {bs : List Byte} {rest : List Bool} {i : Instr}
    (h : decode p .symbol (Machine.bitsOfBytes bs) = .ok (i, rest)) :
    ∃ x xs, bs = x :: xs ∧ i = symbolInstr x ∧ rest = Machine.bitsOfBytes xs := by
  obtain ⟨hl, hv, hr⟩ := decode_eq_ok_iff.1 h
  cases bs with
  | nil => simp [Format.length, Machine.bitsOfBytes] at hl
  | cons x xs =>
    have hb : Machine.bitsOfBytes (x :: xs) = bitsOfByte x ++ Machine.bitsOfBytes xs := List.flatMap_cons
    have hf : Format.symbol.length = (bitsOfByte x).length := (length_bitsOfByte x).symm
    rw [hb, hf, List.take_left] at hv
    rw [hb, hf, List.drop_left] at hr
    refine ⟨x, xs, rfl, ?_, hr.symm⟩
    have hx : BitVec.ofNat 8 (natOfBits (bitsOfByte x)) = x := byteOfBits_bitsOfByte x
    simp only [decodeValue, hx] at hv
    exact (Except.ok.inj hv).symm

/-- A value written to CTRL, as 64 bits, decodes to its command (R103). -/
theorem decode_command (p : Params) (v : Word64) :
    decode p .command (bitsLE 64 v.toNat) = .ok (commandInstr v, []) := by
  have hv : natOfBits (bitsLE 64 v.toNat) = v.toNat := by
    rw [natOfBits_bitsLE, Nat.mod_eq_of_lt v.isLt]
  simp [decode_eq_ok_iff, Format.length, List.take_of_length_le, List.drop_of_length_le, hv, decodeValue]

end Sys2Proof

namespace Sys2Proof.Machine

@[simp] theorem pendingBits_setMoves (s : State) (ms : List HostMove) :
    pendingBits (s.setMoves ms) = pendingBits s := rfl
@[simp] theorem pendingSyms_setMoves (s : State) (ms : List HostMove) :
    pendingSyms (s.setMoves ms) = pendingSyms s := rfl
@[simp] theorem recordWidth_setMoves (s : State) (ms : List HostMove) :
    recordWidth (s.setMoves ms) = recordWidth s := rfl

/-- A step whose fetch selects an operation runs it in the state the fetch leaves (R17). -/
theorem step_of_fetch {s u : State} {i : Instr} (h : fetch s = .next (some i, u)) : step s = exec i u := by
  unfold step
  rw [h]

/-- A write of CTRL runs its command (R39, R103). -/
theorem step_of_ctrlWrite {s : State} {v : Word64} {ms : List HostMove} (h : s.moves = .regWrite 0 v :: ms) :
    step s = exec (commandInstr v) (s.setMoves ms) := by
  apply step_of_fetch
  unfold fetch
  rw [h]
  rfl

theorem symReadOk_iff (s : State) : symReadOk s = true ↔ s.sIdx ≤ s.sLen ∧ s.sLen ≤ s.params.block := by
  simp [symReadOk]

theorem pairReadOk_iff (s : State) : pairReadOk s = true ↔ s.pBits ≤ 8 * s.pLen ∧ s.pLen ≤ s.params.block := by
  simp [pairReadOk]

/-- The decoder's step, where RD_PAIR gives a record: the operation the record selects (R170). -/
theorem step_of_rdPair {s : State} {code : Nat} {x : Symbol} {more : Bool} (ht : EngineTurn s)
    (hp : s.phase = .decRun) (hb : s.pBits ≤ 8 * s.pLen) (hl : s.pLen ≤ s.params.block)
    (h : (rdPair (recordWidth s) (s.setMoves s.moves.tail)).1 = some (code, x, more)) :
    step s = exec (recordInstr s.params (recordWidth s) code x)
      (rdPair (recordWidth s) (s.setMoves s.moves.tail)).2 := by
  apply step_of_fetch
  have hok : pairReadOk (s.setMoves s.moves.tail) = true := (pairReadOk_iff _).2 ⟨hb, hl⟩
  have hr : rdPair (recordWidth s) (s.setMoves s.moves.tail) =
      (some (code, x, more), (rdPair (recordWidth s) (s.setMoves s.moves.tail)).2) := Prod.ext h rfl
  rw [fetch_engineTurn ht]
  simp only [fetchEngine, State.setMoves_phase, hp, fetchRecord, hok, if_true, recordWidth_setMoves]
  rw [hr]
  rfl

/-- The encoder's step, where RD_SYM hands out a symbol: ENC_SYM of it (R150). -/
theorem step_of_rdSym {s : State} {x : Symbol} (ht : EngineTurn s) (hp : s.phase = .encRun) (hi : s.sIdx ≤ s.sLen)
    (hl : s.sLen ≤ s.params.block) (h : (rdSym (s.setMoves s.moves.tail)).1 = some x) :
    step s = exec (symbolInstr x) (rdSym (s.setMoves s.moves.tail)).2 := by
  apply step_of_fetch
  have hok : symReadOk (s.setMoves s.moves.tail) = true := (symReadOk_iff _).2 ⟨hi, hl⟩
  have hr : rdSym (s.setMoves s.moves.tail) = (some x, (rdSym (s.setMoves s.moves.tail)).2) := Prod.ext h rfl
  rw [fetch_engineTurn ht]
  simp only [fetchEngine, State.setMoves_phase, hp, fetchSymbol, hok, if_true]
  rw [hr]

/-- The decoder runs the record that decodes from the front of the pending bits, and the rest stays pending. -/
theorem step_runs_decoded_record {s : State} {i : Instr} {rest : List Bool} (ht : EngineTurn s)
    (hp : s.phase = .decRun) (hb : s.pBits ≤ 8 * s.pLen) (hl : s.pLen ≤ s.params.block) (hB : 1 ≤ s.params.block)
    (hc : HostKeepsContract s)
    (hd : decode s.params (.record (recordWidth s)) (pendingBits s) = .ok (i, rest)) :
    step s = exec i (rdPair (recordWidth s) (s.setMoves s.moves.tail)).2 ∧
      pendingBits (rdPair (recordWidth s) (s.setMoves s.moves.tail)).2 = rest := by
  obtain ⟨hlen, rfl, rfl⟩ := of_decode_record hd
  obtain ⟨hread, hrest, -⟩ := rdPair_spec (recordWidth s) (s.setMoves s.moves.tail) hb hl hB hc
  rw [pendingBits_setMoves] at hread hrest
  rw [if_pos hlen] at hread
  exact ⟨step_of_rdPair ht hp hb hl hread, hrest hlen⟩

/-- The encoder runs the symbol that decodes from the front of the pending ones, and the rest stays pending. -/
theorem step_runs_decoded_symbol {s : State} {i : Instr} {rest : List Bool} (ht : EngineTurn s)
    (hp : s.phase = .encRun) (hi : s.sIdx ≤ s.sLen) (hl : s.sLen ≤ s.params.block) (hB : 1 ≤ s.params.block)
    (hc : HostKeepsContract s) (hd : decode s.params .symbol (bitsOfBytes (pendingSyms s)) = .ok (i, rest)) :
    step s = exec i (rdSym (s.setMoves s.moves.tail)).2 ∧
      bitsOfBytes (pendingSyms (rdSym (s.setMoves s.moves.tail)).2) = rest := by
  obtain ⟨x, xs, hpend, rfl, rfl⟩ := of_decode_symbol hd
  obtain ⟨hread, hrest, -⟩ := rdSym_spec (s.setMoves s.moves.tail) hi hl hB hc
  rw [pendingSyms_setMoves, hpend] at hread hrest
  exact ⟨step_of_rdSym ht hp hi hl hread, by rw [hrest, List.tail_cons]⟩

/-- Settles O42: the host's write, the decoder's record and the encoder's symbol, each by the lemma on its decoding. -/
theorem stepRunsDecoded : Obligations.StepRunsDecoded := by
  refine ⟨fun s v ms i hm hd => ?_, fun s i rest ht hp hb hl hB hc hd => ?_,
    fun s i rest ht hp hi hl hB hc hd => ?_⟩
  · rw [decode_command] at hd
    obtain ⟨rfl, -⟩ := Prod.mk.inj (Except.ok.inj hd)
    exact step_of_ctrlWrite hm
  · obtain ⟨hstep, hrest⟩ := step_runs_decoded_record ht hp hb hl hB hc hd
    exact ⟨_, rfl, hstep, hrest, rdPair_frame _ _⟩
  · obtain ⟨hstep, hrest⟩ := step_runs_decoded_symbol ht hp hi hl hB hc hd
    exact ⟨_, rfl, hstep, hrest, rdSym_frame _⟩

end Sys2Proof.Machine
end

section
/-! The frames of the codec leave the phase, and the parameters. -/

namespace Sys2Proof.Machine

theorem SymInFrame.phase {s t : State} (h : SymInFrame s t) : t.phase = s.phase := h.fields.2.1
theorem PairInFrame.params {s t : State} (h : PairInFrame s t) : t.params = s.params := h.fields.1
theorem PairInFrame.phase {s t : State} (h : PairInFrame s t) : t.phase = s.phase := h.fields.2.1
theorem SymOutFrame.phase {s t : State} (h : SymOutFrame s t) : t.phase = s.phase := h.fields.2.1
theorem PairOutFrame.params {s t : State} (h : PairOutFrame s t) : t.params = s.params := h.fields.1
theorem PairOutFrame.phase {s t : State} (h : PairOutFrame s t) : t.phase = s.phase := h.fields.2.1

end Sys2Proof.Machine
end

section
/-! The step as a function: each move of the host and each turn of the engine by its own equation (O45), and, from a
state that meets the invariant, the one next state there is (O51). -/

namespace Sys2Proof.Machine

/-! The step by move (log 9). -/

/-- In the engine's turn outside a run nothing is fetched (R244, R260). -/
theorem step_of_not_busy {s : State} (ht : EngineTurn s) (hb : busy s = false) :
    step s = .next (s.setMoves s.moves.tail) := by
  have hf : fetchEngine (s.setMoves s.moves.tail) = .next (none, s.setMoves s.moves.tail) := by
    unfold fetchEngine
    rw [State.setMoves_phase]
    cases hp : s.phase <;> simp_all [busy]
  unfold step
  rw [fetch_engineTurn ht, hf]

/-- A write of a register other than CTRL has no effect (R39). -/
theorem step_of_otherWrite {s : State} {n : Nat} {v : Word64} {ms : List HostMove} (h : s.moves = .regWrite n v :: ms)
    (hn : n ≠ 0) : step s = .next (s.setMoves ms) := by
  simp only [step, fetch, h, if_neg hn]

/-- A read of a register is CSR_READ (R215). -/
theorem step_of_regRead {s : State} {n : Nat} {ms : List HostMove} (h : s.moves = .regRead n :: ms) :
    step s = exec (.csrRead n) (s.setMoves ms) := by
  simp only [step, fetch, h]

/-- The pin `rst` is HW_RESET (R216). -/
theorem step_of_rst {s : State} {ms : List HostMove} (h : s.moves = .rst :: ms) :
    step s = exec .hwReset (s.setMoves ms) := by
  simp only [step, fetch, h]

/-- Another source is connected (log 25). -/
theorem step_of_connect {s : State} {src : List Byte} {cs : List Nat} {ms : List HostMove}
    (h : s.moves = .connect src cs :: ms) : step s = .next ((s.setMoves ms).setSource src cs s.pulls) := by
  simp only [step, fetch, h]

/-- Settles O45: the step's equation for each move. -/
theorem hostMovesAndIdle : Obligations.HostMovesAndIdle :=
  ⟨fun _ ht hb => step_of_not_busy ht hb, fun _ _ _ _ hm hn => step_of_otherWrite hm hn,
    fun _ _ _ hm => step_of_regRead hm, fun _ _ hm => step_of_rst hm, fun _ _ _ _ hm => step_of_connect hm⟩

/-- The encoder's step where RD_SYM finds the end of input: ENC_EOS (R150). -/
theorem step_of_rdSym_none {s : State} (ht : EngineTurn s) (hp : s.phase = .encRun) (hi : s.sIdx ≤ s.sLen)
    (hl : s.sLen ≤ s.params.block) (h : (rdSym (s.setMoves s.moves.tail)).1 = none) :
    step s = exec .encEos (rdSym (s.setMoves s.moves.tail)).2 := by
  apply step_of_fetch
  have hok : symReadOk (s.setMoves s.moves.tail) = true := (symReadOk_iff _).2 ⟨hi, hl⟩
  have hr : rdSym (s.setMoves s.moves.tail) = (none, (rdSym (s.setMoves s.moves.tail)).2) := Prod.ext h rfl
  rw [fetch_engineTurn ht]
  simp only [fetchEngine, State.setMoves_phase, hp, fetchSymbol, hok, if_true]
  rw [hr]

/-- The decoder's step where the source ends inside the record: DEC_TRUNC (R170). -/
theorem step_of_rdPair_none {s : State} (ht : EngineTurn s) (hp : s.phase = .decRun) (hb : s.pBits ≤ 8 * s.pLen)
    (hl : s.pLen ≤ s.params.block) (h : (rdPair (recordWidth s) (s.setMoves s.moves.tail)).1 = none) :
    step s = exec .decTrunc (rdPair (recordWidth s) (s.setMoves s.moves.tail)).2 := by
  apply step_of_fetch
  have hok : pairReadOk (s.setMoves s.moves.tail) = true := (pairReadOk_iff _).2 ⟨hb, hl⟩
  have hr : rdPair (recordWidth s) (s.setMoves s.moves.tail) =
      (none, (rdPair (recordWidth s) (s.setMoves s.moves.tail)).2) := Prod.ext h rfl
  rw [fetch_engineTurn ht]
  simp only [fetchEngine, State.setMoves_phase, hp, fetchRecord, hok, if_true, recordWidth_setMoves]
  rw [hr]

/-! The invariant, taken apart for a state of each kind and put together again. -/

/-- The code counter of a run stands at an entry (R47). -/
theorem Inv.code_range {s : State} (h : Inv s) (hb : busy s = true) :
    s.params.startCode ≤ s.nextCode ∧ s.nextCode < s.params.maxCode :=
  ⟨h.bounds.code_low hb, h.bounds.code_high hb⟩

theorem busy_of_encRun {s : State} (hp : s.phase = .encRun) : busy s = true := (busy_iff s).2 (.inl hp)

theorem busy_of_decRun {s : State} (hp : s.phase = .decRun) : busy s = true := (busy_iff s).2 (.inr hp)

/-- The current node of an encode is a code (R22, R31). -/
theorem Inv.cur_lt {s : State} (h : Inv s) (hp : s.phase = .encRun) : s.cur < s.params.maxCode := by
  obtain ⟨hempty, -, hmax, -⟩ := Params.codes h.params
  have hcode := h.code_range (busy_of_encRun hp)
  rcases (h.trie hp).cur_live with hc | hc <;> omega

/-- A node of an encode is an index of the dictionaries (R73). -/
theorem Inv.isIndex_cur {s : State} (h : Inv s) (hp : s.phase = .encRun) : s.params.isIndex s.cur = true := by
  refine (Params.isIndex_iff _ _).2 ((h.trie hp).cur_live.imp_right fun hc => ⟨hc.1, h.cur_lt hp⟩)

/-- The report of a run is clear, and the mode is the phase's (R24, R25, R36). -/
theorem Inv.report_encRun {s : State} (h : Inv s) (hp : s.phase = .encRun) :
    s.mode = .enc ∧ s.trunc = false ∧ s.cause = causeNone ∧ s.info = 0 := by
  simpa only [StatusInv, hp] using h.status

theorem Inv.report_decRun {s : State} (h : Inv s) (hp : s.phase = .decRun) :
    s.mode = .dec ∧ s.trunc = false ∧ s.cause = causeNone ∧ s.info = 0 := by
  simpa only [StatusInv, hp] using h.status

/-- What the invariant asks of a state of an encode: the widths of the registers it bounds otherwise follow. -/
theorem Inv.of_encRun {s : State} (hp : s.phase = .encRun) (params : s.params.wf = true) (memory : MemoryInv s)
    (dict : DictInv s) (prev : s.prev < 2 ^ s.params.codeBits) (pLen : s.pLen ≤ s.params.block)
    (code : s.params.startCode ≤ s.nextCode ∧ s.nextCode < s.params.maxCode)
    (sym : s.sIdx ≤ s.sLen ∧ s.sLen ≤ s.params.block) (bits : s.pBits < 8 * s.params.block) (trie : TrieInv s)
    (report : s.mode = .enc ∧ s.trunc = false ∧ s.cause = causeNone ∧ s.info = 0) : Inv s where
  params := params
  memory := memory
  dict := dict
  widths := by
    obtain ⟨hempty, -, hmax, -, -, hpow, hpow'⟩ := Params.codes params
    obtain ⟨-, -, -, hinfo⟩ := report
    refine ⟨by omega, ?_, prev, by rw [hinfo]; exact Nat.two_pow_pos _, bits.le, pLen, sym.1.trans sym.2, sym.2⟩
    rcases trie.cur_live with hc | hc <;> omega
  bounds := ⟨fun _ => code.1, fun _ => code.2, fun _ => sym.1, fun _ => sym.2, fun _ => bits, by simp [hp],
    by simp [hp], by simp [hp], by simp [hp]⟩
  trie _ := trie
  words := by simp [hp]
  status := by simpa only [StatusInv, hp] using report

/-- What the invariant asks of a state of a decode. -/
theorem Inv.of_decRun {s : State} (hp : s.phase = .decRun) (params : s.params.wf = true) (memory : MemoryInv s)
    (dict : DictInv s) (cur : s.cur < 2 ^ s.params.codeBits) (prev : s.prev < 2 ^ s.params.codeBits)
    (code : s.params.startCode ≤ s.nextCode ∧ s.nextCode < s.params.maxCode)
    (sym : s.sIdx = 0 ∧ s.sLen < s.params.block) (bits : s.pBits ≤ 8 * s.pLen ∧ s.pLen ≤ s.params.block)
    (words : WordInv s) (report : s.mode = .dec ∧ s.trunc = false ∧ s.cause = causeNone ∧ s.info = 0) : Inv s where
  params := params
  memory := memory
  dict := dict
  widths := by
    obtain ⟨-, -, -, -, -, hpow, hpow'⟩ := Params.codes params
    obtain ⟨-, -, -, hinfo⟩ := report
    exact ⟨by omega, cur, prev, by rw [hinfo]; exact Nat.two_pow_pos _, by omega, bits.2, by omega, sym.2.le⟩
  bounds := ⟨fun _ => code.1, fun _ => code.2, fun _ => by omega, fun _ => sym.2.le, by simp [hp], fun _ => bits.1,
    fun _ => bits.2, fun _ => sym.2, fun _ => sym.1⟩
  trie := by simp [hp]
  words _ := words
  status := by simpa only [StatusInv, hp] using report

/-- Outside a run the invariant is about the memories, the widths and the status alone. -/
theorem Inv.of_not_busy {s : State} (hb : busy s = false) (params : s.params.wf = true) (memory : MemoryInv s)
    (dict : DictInv s) (widths : RegWidths s) (status : StatusInv s) : Inv s := by
  have he : s.phase ≠ .encRun := fun hp => by simp [busy, hp] at hb
  have hd : s.phase ≠ .decRun := fun hp => by simp [busy, hp] at hb
  exact ⟨params, memory, dict, widths, by constructor <;> simp [hb, he, hd], by simp [he], by simp [hd], status⟩

/-- The invariant says nothing of the host's side of the ports, nor of the last result. -/
theorem Inv.of_hostSide {s t : State} (h : Inv s) (e : t = { s with
    source := t.source, cuts := t.cuts, pulls := t.pulls, moves := t.moves, result := t.result }) : Inv t := by
  obtain ⟨params, memory, dict, ⟨w1, w2, w3, w4, w5, w6, w7, w8⟩, ⟨b1, b2, b3, b4, b5, b6, b7, b8, b9⟩, trie, words,
    status⟩ := h
  rw [e]
  exact ⟨params, memory.congr rfl rfl rfl rfl rfl, dict.congr rfl rfl rfl, ⟨w1, w2, w3, w4, w5, w6, w7, w8⟩,
    ⟨b1, b2, b3, b4, b5, b6, b7, b8, b9⟩, fun hp => (trie hp).congr rfl rfl rfl rfl rfl rfl,
    fun hp => (words hp).congr rfl rfl rfl, status⟩

theorem Inv.setMoves {s : State} (h : Inv s) (ms : List HostMove) : Inv (s.setMoves ms) := h.of_hostSide rfl

/-! What the engine fetches leaves the invariant as it is. -/

/-- RD_SYM keeps the invariant of an encode (R122). -/
theorem Inv.rdSym {s : State} (h : Inv s) (hp : s.phase = .encRun) : Inv (rdSym s).2 := by
  have hb := busy_of_encRun hp
  have hf := rdSym_frame s
  have hm := rdSym_memory h.memory
  have hr := rdSym_bounds s (h.bounds.sym_low hb) (h.bounds.sym_high hb)
  generalize (Machine.rdSym s).2 = t at hf hm hr
  rw [hf] at hm hr ⊢
  exact .of_encRun hp h.params hm (h.dict.congr rfl rfl rfl) h.widths.prev h.widths.pLen (h.code_range hb) hr
    (h.bounds.enc_bits hp) ((h.trie hp).congr rfl rfl rfl rfl rfl rfl) (h.report_encRun hp)

/-- RD_PAIR keeps the invariant of a decode (R126). -/
theorem Inv.rdPair {s : State} (h : Inv s) (hp : s.phase = .decRun) (w : Nat) : Inv (rdPair w s).2 := by
  have hf := rdPair_frame w s
  have hm := rdPair_memory w h.memory
  have hr := rdPair_bounds w s (h.bounds.dec_bits hp) (h.bounds.dec_fill hp)
  generalize (Machine.rdPair w s).2 = t at hf hm hr
  rw [hf] at hm hr ⊢
  exact .of_decRun hp h.params hm (h.dict.congr rfl rfl rfl) h.widths.cur h.widths.prev
    (h.code_range (busy_of_decRun hp)) ⟨h.bounds.dec_idx hp, h.bounds.dec_syms hp⟩ hr
    ((h.words hp).congr rfl rfl rfl) (h.report_decRun hp)

/-! The engine's effect on a state that meets the invariant: none of its operations stops there. -/

/-- The effect of ENC_SYM (R151): a hit where the link is there, else a miss. -/
def symbolEffect (x : Symbol) (s : State) : State := (childAt s s.cur x).elim (miss x s) (hit x · s)

/-- The effect of a record (R96, R238): STOP first, then the fault where the code names no word, else the pair. -/
def recordEffect (code : Nat) (x : Symbol) (s : State) : State :=
  if code = s.params.stopCode then stop s
  else (wordAt s code).elim (raise .badCode code s) (appendWord · x s)

/-- The encoder's turn (R150): the next symbol, or the end of input. -/
def encoderEffect (s : State) : State := (rdSym s).1.elim endOfInput symbolEffect (rdSym s).2

/-- The decoder's turn (R170): the next record, or the lack of one. -/
def decoderEffect (s : State) : State :=
  (rdPair (recordWidth s) s).1.elim truncate (fun q => recordEffect q.1 q.2.1) (rdPair (recordWidth s) s).2

theorem exec_encSym_of_inv {s : State} (h : Inv s) (hp : s.phase = .encRun) (x : Symbol) :
    exec (.encSym x) s = .next (symbolEffect x s) := by
  show execEncSym x s = _
  unfold execEncSym symbolEffect
  cases hc : childAt s s.cur x with
  | some c => rfl
  | none =>
    have hbit : pairStoreOk s = true := decide_eq_true (h.bounds.enc_bits hp)
    have hcode : codeOk s = true := decide_eq_true (h.code_range (busy_of_encRun hp)).2
    simp [runMiss, hbit, hcode, h.cur_lt hp]

theorem exec_encEos_of_inv {s : State} (h : Inv s) (hp : s.phase = .encRun) :
    exec .encEos s = .next (endOfInput s) := by
  have hbit : pairStoreOk s = true := decide_eq_true (h.bounds.enc_bits hp)
  have hcode : codeOk s = true := decide_eq_true (h.code_range (busy_of_encRun hp)).2
  show execEncEos s = _
  simp [execEncEos, hbit, hcode]

theorem exec_decTrunc_of_inv {s : State} (h : Inv s) : exec .decTrunc s = .next (truncate s) :=
  if_pos h.widths.sLen

theorem exec_recordInstr_of_inv {s : State} (h : Inv s) (hp : s.phase = .decRun) {w code : Nat} (x : Symbol)
    (hc : code < 2 ^ w) : exec (recordInstr s.params w code x) s = .next (recordEffect code x s) := by
  rw [exec_recordInstr _ x hc, recordEffect]
  split
  · exact if_pos h.widths.sLen
  · have hcode : codeOk s = true := decide_eq_true (h.code_range (busy_of_decRun hp)).2
    have hsym : symStoreOk s = true := decide_eq_true (h.bounds.dec_syms hp)
    unfold runPair
    cases wordAt s code with
    | none => rfl
    | some word => simp [hcode, hsym]

/-- The encoder's turn, in a state that meets the invariant. -/
theorem step_encoder {s : State} (h : Inv s) (ht : EngineTurn s) (hp : s.phase = .encRun) :
    step s = .next (encoderEffect (s.setMoves s.moves.tail)) := by
  have hb := busy_of_encRun hp
  have hi := h.bounds.sym_low hb
  have hl := h.bounds.sym_high hb
  have hu := (h.setMoves s.moves.tail).rdSym hp
  have hq : (rdSym (s.setMoves s.moves.tail)).2.phase = .encRun := (rdSym_frame _).phase.trans hp
  unfold encoderEffect
  cases hr : (rdSym (s.setMoves s.moves.tail)).1 with
  | none => rw [step_of_rdSym_none ht hp hi hl hr]; exact exec_encEos_of_inv hu hq
  | some x => rw [step_of_rdSym ht hp hi hl hr]; exact exec_encSym_of_inv hu hq x

/-- The decoder's turn, in a state that meets the invariant. -/
theorem step_decoder {s : State} (h : Inv s) (ht : EngineTurn s) (hp : s.phase = .decRun) :
    step s = .next (decoderEffect (s.setMoves s.moves.tail)) := by
  have hb := h.bounds.dec_bits hp
  have hl := h.bounds.dec_fill hp
  have hu := (h.setMoves s.moves.tail).rdPair hp (recordWidth s)
  have hf := rdPair_frame (recordWidth s) (s.setMoves s.moves.tail)
  unfold decoderEffect
  rw [recordWidth_setMoves]
  cases hr : (rdPair (recordWidth s) (s.setMoves s.moves.tail)).1 with
  | none => rw [step_of_rdPair_none ht hp hb hl hr]; exact exec_decTrunc_of_inv hu
  | some q =>
    obtain ⟨code, x, more⟩ := q
    rw [step_of_rdPair ht hp hb hl hr, ← show _ = s.params from hf.params]
    exact exec_recordInstr_of_inv hu (hf.phase.trans hp) x (rdPair_code_lt _ _ hr)

/-- The engine's turn (R150, R170, R244). -/
def engineEffect (s : State) : State :=
  match s.phase with
  | .encRun => encoderEffect s
  | .decRun => decoderEffect s
  | .idle => s
  | .done => s
  | .error => s

/-- A write of CTRL (R103). -/
def commandEffect (v : Word64) (s : State) : State :=
  if v.getLsbD 0 then startRun (if v.getLsbD 1 then .dec else .enc) s else s

/-- The effect of a move of the host, in the state without it (log 9). -/
def moveEffect : HostMove → State → State
  | .wait, s => engineEffect s
  | .regWrite n v, s => if n = 0 then commandEffect v s else s
  | .regRead n, s => s.setResult (.value (csrValue n s))
  | .rst, s => hwReset s
  | .connect src cs, s => s.setSource src cs s.pulls

/-- The effect of a step on a state that meets the invariant. -/
def stepEffect (s : State) : State := moveEffect (s.moves.headD .wait) (s.setMoves s.moves.tail)

theorem step_of_engineTurn {s : State} (h : Inv s) (ht : EngineTurn s) :
    step s = .next (engineEffect (s.setMoves s.moves.tail)) := by
  unfold engineEffect
  rw [State.setMoves_phase]
  cases hp : s.phase with
  | encRun => exact step_encoder h ht hp
  | decRun => exact step_decoder h ht hp
  | idle => exact step_of_not_busy ht (by simp [busy, hp])
  | done => exact step_of_not_busy ht (by simp [busy, hp])
  | error => exact step_of_not_busy ht (by simp [busy, hp])

/-- From a state that meets the invariant a step is a function. -/
theorem step_of_inv {s : State} (h : Inv s) : step s = .next (stepEffect s) := by
  have turn := step_of_engineTurn h
  unfold stepEffect
  cases hm : s.moves with
  | nil => rw [hm] at turn; exact turn (.inl hm)
  | cons m ms =>
    cases m with
    | wait => rw [hm] at turn; exact turn (.inr (by rw [hm]; rfl))
    | regWrite n v =>
      show step s = .next (if n = 0 then commandEffect v (s.setMoves ms) else s.setMoves ms)
      split
      · rename_i hn
        subst hn
        rw [step_of_ctrlWrite hm, exec_commandInstr]
        rfl
      · exact step_of_otherWrite hm ‹_›
    | regRead n => exact step_of_regRead hm
    | rst => exact step_of_rst hm
    | connect src cs => exact step_of_connect hm

/-- Settles O51: the step is a function there. -/
theorem stepNeverStops : Obligations.StepNeverStops := fun _ h => ⟨_, step_of_inv h⟩

end Sys2Proof.Machine
end

section
/-! Every step keeps the invariant (O50), and it holds after reset (O49): one lemma per effect of a step. -/

namespace Sys2Proof.Machine

/-! The encoder. -/

/-- ENC_SYM.HIT keeps the invariant (R152). -/
theorem Inv.hit {s : State} (h : Inv s) (hp : s.phase = .encRun) {x : Symbol} {c : Nat}
    (hc : childAt s s.cur x = some c) : Inv (hit x c s) := by
  have hb := busy_of_encRun hp
  have hcur : s.cur < 2 ^ s.params.codeBits := h.widths.cur
  exact .of_encRun hp h.params (h.memory.congr rfl rfl rfl rfl rfl) (h.dict.congr rfl rfl rfl) hcur h.widths.pLen
    (h.code_range hb) ⟨h.bounds.sym_low hb, h.bounds.sym_high hb⟩ (h.bounds.enc_bits hp) ((h.trie hp).hit hc)
    (h.report_encRun hp)

/-- ENC_SYM.MISS keeps the invariant: the new node hangs at the current one, or the root alone is left (R153). -/
theorem Inv.miss {s : State} (h : Inv s) (hp : s.phase = .encRun) {x : Symbol} (hx : childAt s s.cur x = none) :
    Inv (miss x s) := by
  have hb := busy_of_encRun hp
  have hcode := h.code_range hb
  have hbits := h.bounds.enc_bits hp
  have hmem := miss_memory x h.memory hbits (h.cur_lt hp) hcode.2
  have hpair := (wrPair_spec s.cur x (recordWidth s) s hbits).2
  have hf := wrPair_frame s.cur x (recordWidth s) s
  have hlink := h.dict.setLink (x := x) (h.isIndex_cur hp) ((Params.isEntry_iff _ _).2 hcode)
  obtain ⟨-, -, hmax, -⟩ := Params.codes h.params
  rw [miss_eq] at hmem ⊢
  generalize wrPair s.cur x (recordWidth s) s = u at hpair hf hmem
  rw [hf] at hmem ⊢
  split at hmem
  · rename_i hfull
    rw [if_pos hfull]
    exact .of_encRun hp h.params hmem ⟨nofun, h.dict.wt_index⟩ h.widths.prev h.widths.pLen ⟨le_rfl, hmax⟩
      ⟨h.bounds.sym_low hb, h.bounds.sym_high hb⟩ hpair (.root rfl rfl rfl) (h.report_encRun hp)
  · rename_i hfull
    rw [if_neg hfull]
    refine .of_encRun hp h.params hmem (hlink.congr rfl rfl rfl) h.widths.prev h.widths.pLen
      ⟨Nat.le_succ_of_le hcode.1, lt_of_le_of_ne hcode.2 hfull⟩ ⟨h.bounds.sym_low hb, h.bounds.sym_high hb⟩ hpair ?_
      (h.report_encRun hp)
    exact (h.trie hp).grow rfl hcode.1 hx rfl rfl fun n y => childAt_set s s.cur n s.nextCode x y

/-- ENC_SYM keeps the invariant (R151). -/
theorem Inv.symbolEffect {s : State} (h : Inv s) (hp : s.phase = .encRun) (x : Symbol) : Inv (symbolEffect x s) := by
  unfold Machine.symbolEffect
  cases hc : childAt s s.cur x with
  | none => rw [Option.elim_none]; exact h.miss hp hc
  | some c => rw [Option.elim_some]; exact h.hit hp hc

/-! The ends of a run. -/

/-- The end of a run keeps the invariant, whatever the run's private state was (R46). -/
theorem endRun_inv {p : Phase} {s : State} (hp : p = .done ∨ p = .error) (params : s.params.wf = true)
    (info : s.info < 2 ^ (s.params.codeBits + 1)) (status : StatusInv (s.setPhase p)) : Inv (endRun p s) := by
  refine .of_not_busy ?_ params (endRun_memory p params) (endRun_dict p s) (endRun_widths p info) status
  rcases hp with rfl | rfl <;> rfl

/-- ENC_EOS keeps the invariant (R155). -/
theorem Inv.endOfInput {s : State} (h : Inv s) (hp : s.phase = .encRun) : Inv (endOfInput s) := by
  obtain ⟨-, htrunc, hcause, hinfo⟩ := h.report_encRun hp
  obtain ⟨u, e, eparams, -, etrunc, ecause, einfo⟩ := endOfInput_eq s
  rw [e]
  exact endRun_inv (.inl rfl) (by rw [eparams]; exact h.params) (by rw [einfo, hinfo]; exact Nat.two_pow_pos _)
    ⟨einfo.trans hinfo, .inl ⟨etrunc.trans htrunc, ecause.trans hcause⟩⟩

/-- DEC_STOP keeps the invariant (R172). -/
theorem Inv.stop {s : State} (h : Inv s) (hp : s.phase = .decRun) : Inv (stop s) := by
  obtain ⟨-, htrunc, hcause, hinfo⟩ := h.report_decRun hp
  have hf := flushSyms_frame s
  unfold Machine.stop
  generalize flushSyms s = u at hf
  rw [hf]
  exact endRun_inv (.inl rfl) h.params h.widths.info ⟨hinfo, .inl ⟨htrunc, hcause⟩⟩

/-- DEC_TRUNC keeps the invariant (R175). -/
theorem Inv.truncate {s : State} (h : Inv s) (hp : s.phase = .decRun) : Inv (truncate s) := by
  obtain ⟨hmode, -, -, -⟩ := h.report_decRun hp
  have hf := flushSyms_frame (s.setReport true causeTruncated 0)
  unfold Machine.truncate
  generalize flushSyms (s.setReport true causeTruncated 0) = u at hf
  rw [hf]
  exact endRun_inv (.inl rfl) h.params (Nat.two_pow_pos _) ⟨rfl, .inr ⟨hmode, rfl, rfl⟩⟩

/-- The fault keeps the invariant (R236). -/
theorem Inv.raise {s : State} (h : Inv s) (hp : s.phase = .decRun) (f : FatalFault) (v : Nat) : Inv (raise f v s) := by
  obtain ⟨hmode, htrunc, -, -⟩ := h.report_decRun hp
  exact endRun_inv (.inr rfl) h.params (Nat.mod_lt _ (Nat.two_pow_pos _)) ⟨hmode, htrunc, by cases f; rfl⟩

/-! The decoder. -/

/-- DEC_PAIR keeps the invariant: the new word extends a live one, or the empty word alone is left (R171). -/
theorem Inv.appendWord {s : State} (h : Inv s) (hp : s.phase = .decRun) {code : Nat} {word : List Symbol} (x : Symbol)
    (hw : wordAt s code = some word) : Inv (appendWord word x s) := by
  have hcode := h.code_range (busy_of_decRun hp)
  have hsyms := h.bounds.dec_syms hp
  have hbits := And.intro (h.bounds.dec_bits hp) (h.bounds.dec_fill hp)
  have hmem := appendWord_memory word x h.memory hsyms hcode.2
  have hdict := h.dict.setWord (word ++ [x]) ((Params.isIndex_iff _ _).2 (.inr hcode))
  have hfill := (wrRun_spec (word ++ [x]) (s.setWt (s.wt.set s.nextCode (word ++ [x]))) hsyms).2
  have hf := wrRun_frame (word ++ [x]) (s.setWt (s.wt.set s.nextCode (word ++ [x])))
  obtain ⟨hempty, -, hmax, -⟩ := Params.codes h.params
  rw [appendWord_eq] at hmem ⊢
  generalize wrRun (word ++ [x]) (s.setWt (s.wt.set s.nextCode (word ++ [x]))) = u at hfill hf hmem
  rw [hf] at hmem ⊢
  split at hmem
  · rename_i hfull
    rw [if_pos hfull]
    refine .of_decRun hp h.params hmem (DictInv.congr hdict.wtReset rfl rfl rfl) h.widths.cur h.widths.prev
      ⟨le_rfl, hmax⟩ ⟨h.bounds.dec_idx hp, hfill⟩ hbits ?_ (h.report_decRun hp)
    refine .empty_table (fun c => ?_) hempty rfl
    have hne : s.nextCode ≠ s.params.emptyCode := by omega
    have hroot := (h.words hp).empty
    rw [wordAt_wtReset]
    split
    · rename_i hc
      subst hc
      exact ((wordAt_set s s.nextCode s.params.emptyCode (word ++ [x])).trans (if_neg hne)).trans
        (hroot.trans (if_pos rfl).symm)
    · rename_i hc
      exact (if_neg hc).symm
  · rename_i hfull
    rw [if_neg hfull]
    refine .of_decRun hp h.params hmem (hdict.congr rfl rfl rfl) h.widths.cur h.widths.prev
      ⟨Nat.le_succ_of_le hcode.1, lt_of_le_of_ne hcode.2 hfull⟩ ⟨h.bounds.dec_idx hp, hfill⟩ hbits ?_
      (h.report_decRun hp)
    exact (h.words hp).grow rfl hempty hcode.1 hw rfl fun c => wordAt_set s s.nextCode c (word ++ [x])

/-- A record keeps the invariant (R96). -/
theorem Inv.recordEffect {s : State} (h : Inv s) (hp : s.phase = .decRun) (code : Nat) (x : Symbol) :
    Inv (recordEffect code x s) := by
  unfold Machine.recordEffect
  split
  · exact h.stop hp
  · cases hw : wordAt s code with
    | none => exact h.raise hp .badCode code
    | some word => exact h.appendWord hp x hw

/-! The engine's turn and the host's moves. -/

theorem Inv.encoderEffect {s : State} (h : Inv s) (hp : s.phase = .encRun) : Inv (encoderEffect s) := by
  have hu := h.rdSym hp
  have hq : (Machine.rdSym s).2.phase = .encRun := (rdSym_frame s).phase.trans hp
  unfold Machine.encoderEffect
  cases (Machine.rdSym s).1 with
  | none => exact hu.endOfInput hq
  | some x => exact hu.symbolEffect hq x

theorem Inv.decoderEffect {s : State} (h : Inv s) (hp : s.phase = .decRun) : Inv (decoderEffect s) := by
  have hu := h.rdPair hp (recordWidth s)
  have hq : (Machine.rdPair (recordWidth s) s).2.phase = .decRun := (rdPair_frame _ s).phase.trans hp
  unfold Machine.decoderEffect
  cases (Machine.rdPair (recordWidth s) s).1 with
  | none => exact hu.truncate hq
  | some q => exact hu.recordEffect hq q.1 q.2.1

theorem Inv.engineEffect {s : State} (h : Inv s) : Inv (engineEffect s) := by
  unfold Machine.engineEffect
  split
  · exact h.encoderEffect ‹_›
  · exact h.decoderEffect ‹_›
  all_goals exact h

theorem Inv.startRun {s : State} (h : Inv s) (m : Mode) : Inv (startRun m s) := by
  cases hb : busy s with
  | false => exact startRun_inv m hb h.params h.memory h.widths.prev
  | true => rw [startRun_eq, if_pos hb]; exact h

/-- HW_RESET gives a state that meets the invariant, whatever the state before (R216). -/
theorem hwReset_inv {s : State} (hp : s.params.wf = true) : Inv (hwReset s) :=
  .of_not_busy rfl hp (hwReset_memory hp) (hwReset_dict s) (hwReset_widths hp) ⟨rfl, rfl, rfl, rfl⟩

theorem Inv.commandEffect {s : State} (h : Inv s) (v : Word64) : Inv (commandEffect v s) := by
  unfold Machine.commandEffect
  split
  · exact h.startRun _
  · exact h

theorem Inv.moveEffect {s : State} (h : Inv s) (m : HostMove) : Inv (moveEffect m s) := by
  cases m with
  | wait => exact h.engineEffect
  | regWrite n v =>
    show Inv (if n = 0 then Machine.commandEffect v s else s)
    split
    · exact h.commandEffect v
    · exact h
  | regRead n => exact h.of_hostSide rfl
  | rst => exact hwReset_inv h.params
  | connect src cs => exact h.of_hostSide rfl

theorem Inv.stepEffect {s : State} (h : Inv s) : Inv (stepEffect s) := (h.setMoves _).moveEffect _

/-- Settles O50: the step is a function there, and every effect of a step keeps the invariant. -/
theorem stepKeepsInv : Obligations.StepKeepsInv := by
  intro s t h hst
  rw [step_of_inv h] at hst
  cases hst
  exact h.stepEffect

/-- Settles O49: the memories list nothing, and the registers hold the values of R45. -/
theorem invAtReset : Obligations.InvAtReset := by
  have hp : State.reset.params.wf = true := by decide
  refine .of_not_busy rfl hp ?_ ⟨nofun, nofun⟩ ?_ ⟨rfl, rfl, rfl, rfl⟩
  · exact ⟨rfl, rfl, rfl, rfl, nofun, nofun, nofun, nofun⟩
  · constructor <;> decide

end Sys2Proof.Machine
end

section
/-! What the host cannot see stays unseen (O57): `Alike` is kept by every operation a step is made of. -/

namespace Sys2Proof.Machine

/-- What `Alike` asks in every phase: all that a host can read or has been given. -/
structure Shown (s s' : State) : Prop where
  params : s.params = s'.params
  phase : s.phase = s'.phase
  mode : s.mode = s'.mode
  report : s.trunc = s'.trunc ∧ s.cause = s'.cause ∧ s.info = s'.info
  counters : s.bytesIn = s'.bytesIn ∧ s.bytesOut = s'.bytesOut
  streams : s.source = s'.source ∧ s.cuts = s'.cuts ∧ s.pulls = s'.pulls ∧ s.sink = s'.sink
  moves : s.moves = s'.moves
  result : s.result = s'.result

theorem Alike.shown {s s' : State} (h : Alike s s') : Shown s s' :=
  ⟨h.params, h.phase, h.mode, h.report, h.counters, h.streams, h.moves, h.result⟩

/-- Nothing shown is of the state that dies with a run (R46). -/
theorem Shown.deadFrame {s s' t t' : State} (h : Shown s s') (f : DeadFrame s t) (f' : DeadFrame s' t') :
    Shown t t' := by
  rw [f, f']
  exact ⟨h.params, h.phase, h.mode, h.report, h.counters, h.streams, h.moves, h.result⟩

/-- Outside a run nothing else is asked (R46). -/
theorem Shown.alike {s s' : State} (h : Shown s s') (hb : busy s = false) : Alike s s' :=
  ⟨h.params, h.phase, h.mode, h.report, h.counters, h.streams, h.moves, h.result, by simp [hb],
    fun hp => by simp [busy, hp] at hb, fun hp => by simp [busy, hp] at hb⟩

/-- In an encode the trie, the position, the prefetched symbols and the packed bits are asked too. -/
theorem Shown.alike_encRun {s s' : State} (h : Shown s s') (hp : s.phase = .encRun)
    (cursors : s.nextCode = s'.nextCode ∧ s.sIdx = s'.sIdx ∧ s.sLen = s'.sLen ∧ s.pBits = s'.pBits ∧
      s.pLen = s'.pLen ∧ s.srcEos = s'.srcEos)
    (cur : s.cur = s'.cur) (parent : s.cur ≠ s.params.emptyCode → s.prev = s'.prev ∧ s.lastSym = s'.lastSym)
    (links : ∀ n x, childAt s n x = childAt s' n x)
    (syms : ∀ i, s.sIdx ≤ i → i < s.sLen → symByte s i = symByte s' i)
    (bits : ∀ q, q < s.pBits → pairBit s q = pairBit s' q) : Alike s s' :=
  ⟨h.params, h.phase, h.mode, h.report, h.counters, h.streams, h.moves, h.result, fun _ => cursors,
    fun _ => ⟨cur, parent, links, syms, bits⟩, by simp [hp]⟩

/-- In a decode the word table, the written symbols and the prefetched bits are asked too. -/
theorem Shown.alike_decRun {s s' : State} (h : Shown s s') (hp : s.phase = .decRun)
    (cursors : s.nextCode = s'.nextCode ∧ s.sIdx = s'.sIdx ∧ s.sLen = s'.sLen ∧ s.pBits = s'.pBits ∧
      s.pLen = s'.pLen ∧ s.srcEos = s'.srcEos)
    (words : ∀ c, wordAt s c = wordAt s' c) (syms : ∀ i, i < s.sLen → symByte s i = symByte s' i)
    (bits : ∀ q, s.pBits ≤ q → q < 8 * s.pLen → pairBit s q = pairBit s' q) : Alike s s' :=
  ⟨h.params, h.phase, h.mode, h.report, h.counters, h.streams, h.moves, h.result, fun _ => cursors, by simp [hp],
    fun _ => ⟨words, syms, bits⟩⟩

/-! What is asked in a run, by name. -/

theorem Alike.nextCode_eq {s s' : State} (h : Alike s s') (hb : busy s = true) : s.nextCode = s'.nextCode :=
  (h.cursors hb).1

theorem Alike.recordWidth_eq {s s' : State} (h : Alike s s') (hb : busy s = true) : recordWidth s = recordWidth s' := by
  rw [recordWidth, recordWidth, h.nextCode_eq hb]

theorem Alike.link {s s' : State} (h : Alike s s') (hp : s.phase = .encRun) (n : Nat) (x : Symbol) :
    childAt s n x = childAt s' n x := (h.encoder hp).2.2.1 n x

theorem Alike.prefetchedSym {s s' : State} (h : Alike s s') (hp : s.phase = .encRun) {i : Nat} (hl : s.sIdx ≤ i)
    (hi : i < s.sLen) : symByte s i = symByte s' i := (h.encoder hp).2.2.2.1 i hl hi

theorem Alike.packedBit {s s' : State} (h : Alike s s') (hp : s.phase = .encRun) {q : Nat} (hq : q < s.pBits) :
    pairBit s q = pairBit s' q := (h.encoder hp).2.2.2.2 q hq

theorem Alike.word {s s' : State} (h : Alike s s') (hp : s.phase = .decRun) (c : Nat) : wordAt s c = wordAt s' c :=
  (h.decoder hp).1 c

theorem Alike.writtenSym {s s' : State} (h : Alike s s') (hp : s.phase = .decRun) {i : Nat} (hi : i < s.sLen) :
    symByte s i = symByte s' i := (h.decoder hp).2.1 i hi

/-! What the host reads. -/

theorem Shown.busy_eq {s s' : State} (h : Shown s s') : busy s = busy s' := by simp only [busy, h.phase]

theorem Shown.statusReg_eq {s s' : State} (h : Shown s s') : statusReg s = statusReg s' := by
  simp only [statusReg, h.busy_eq, doneFlag, errFlag, modeBit, h.phase, h.mode, h.report]

theorem Shown.infoReg_eq {s s' : State} (h : Shown s s') : infoReg s = infoReg s' := by
  simp only [infoReg, h.report]

theorem Shown.csrValue_eq {s s' : State} (h : Shown s s') (n : Nat) : csrValue n s = csrValue n s' := by
  unfold csrValue
  rw [h.statusReg_eq, h.infoReg_eq, h.counters.1, h.counters.2]

/-! Updates that concern no phase in particular. -/

theorem Alike.setMoves {s s' : State} (h : Alike s s') (ms : List HostMove) : Alike (s.setMoves ms) (s'.setMoves ms) :=
  ⟨h.params, h.phase, h.mode, h.report, h.counters, h.streams, rfl, h.result, h.cursors, h.encoder, h.decoder⟩

theorem Alike.setResult {s s' : State} (h : Alike s s') (r : OpResult) : Alike (s.setResult r) (s'.setResult r) :=
  ⟨h.params, h.phase, h.mode, h.report, h.counters, h.streams, h.moves, rfl, h.cursors, h.encoder, h.decoder⟩

theorem Alike.setReport {s s' : State} (h : Alike s s') (t : Bool) (c : BitVec 3) (i : Nat) :
    Alike (s.setReport t c i) (s'.setReport t c i) :=
  ⟨h.params, h.phase, h.mode, ⟨rfl, rfl, rfl⟩, h.counters, h.streams, h.moves, h.result, h.cursors, h.encoder,
    h.decoder⟩

theorem Alike.setSource {s s' : State} (h : Alike s s') (src : List Byte) (cs : List Nat) (ps : List (Nat × Nat)) :
    Alike (s.setSource src cs ps) (s'.setSource src cs ps) := by
  obtain ⟨-, -, -, hsink⟩ := h.streams
  exact ⟨h.params, h.phase, h.mode, h.report, h.counters, ⟨rfl, rfl, rfl, hsink⟩, h.moves, h.result, h.cursors,
    h.encoder, h.decoder⟩

theorem Alike.setNextCode {s s' : State} (h : Alike s s') (n : Nat) : Alike (s.setNextCode n) (s'.setNextCode n) :=
  ⟨h.params, h.phase, h.mode, h.report, h.counters, h.streams, h.moves, h.result,
    fun hb => ⟨rfl, (h.cursors hb).2⟩, h.encoder, h.decoder⟩

/-- A push of the same bytes (R121). -/
theorem Alike.wrBytes {s s' : State} (h : Alike s s') {buf : Buf} {n : Nat}
    (e : bufFront s buf n = bufFront s' buf n) : Alike (wrBytes buf n s) (wrBytes buf n s') := by
  obtain ⟨hsource, hcuts, hpulls, hsink⟩ := h.streams
  refine ⟨h.params, h.phase, h.mode, h.report, ⟨h.counters.1, ?_⟩, ⟨hsource, hcuts, hpulls, ?_⟩, h.moves, h.result,
    h.cursors, h.encoder, h.decoder⟩
  · show s.bytesOut + _ = s'.bytesOut + _
    rw [h.counters.2]
  · show s.sink ++ _ = s'.sink ++ _
    rw [hsink, e]

/-- The bytes made of equal bits. -/
theorem bufFront_pair_congr {s s' : State} {n : Nat} (h : ∀ q, q < 8 * n → pairBit s q = pairBit s' q) :
    bufFront s .pair n = bufFront s' .pair n := by
  apply List.map_congr_left
  intro j hj
  have hj := List.mem_range.1 hj
  show byteOfBits _ = byteOfBits _
  congr 1
  apply List.map_congr_left
  intro k hk
  have hk := List.mem_range.1 hk
  exact h _ (by omega)

theorem bufFront_sym_congr {s s' : State} {n : Nat} (h : ∀ i, i < n → symByte s i = symByte s' i) :
    bufFront s .sym n = bufFront s' .sym n :=
  List.map_congr_left fun i hi => h i (List.mem_range.1 hi)

/-! RD_BYTES: two states with one source are answered alike (R66, R120). -/

/-- What the source's answers depend on. -/
structure SameSource (s s' : State) : Prop where
  source : s.source = s'.source
  cuts : s.cuts = s'.cuts
  pulls : s.pulls = s'.pulls
  srcEos : s.srcEos = s'.srcEos

theorem SameSource.pullAnswer_eq {s s' : State} (h : SameSource s s') (n : Nat) : pullAnswer n s = pullAnswer n s' := by
  simp only [pullAnswer, h.source, h.cuts]

theorem afterRead_nil (buf : Buf) (got : Nat) (s : State) :
    afterRead buf got [] s.srcEos s.cuts s.pulls s = s := by
  cases buf <;> simp [afterRead, storeBytes, Memory.setFrom, State.setSource, State.setBytesIn, State.setSrcEos,
    State.setSymBuf, State.setPairBuf]

/-- An empty answer ends the source. -/
theorem afterPull_empty {buf : Buf} {got n : Nat} {s : State} (h : pullAnswer n s = []) :
    (afterPull n s).setSrcEos true = afterRead buf got [] true s.cuts.tail (s.pulls ++ [(n, 0)]) s := by
  cases buf <;> simp [afterPull, h, afterRead, storeBytes, Memory.setFrom, State.setSource, State.setBytesIn,
    State.setSrcEos, State.setSymBuf, State.setPairBuf]

/-- Any other answer is stored. -/
theorem afterPull_stored (buf : Buf) (got n : Nat) (s : State) :
    (storeBytes buf got (pullAnswer n s) (afterPull n s)).setBytesIn
        ((afterPull n s).bytesIn + BitVec.ofNat 64 (pullAnswer n s).length) =
      afterRead buf got (pullAnswer n s) s.srcEos s.cuts.tail (s.pulls ++ [(n, (pullAnswer n s).length)]) s := by
  cases buf <;> simp [afterPull, afterRead, storeBytes, State.setSource, State.setBytesIn, State.setSrcEos,
    State.setSymBuf, State.setPairBuf]

theorem SameSource.afterRead {s s' : State} (h : SameSource s s') (buf : Buf) (got : Nat) (taken : List Byte)
    (eos : Bool) (cs : List Nat) (ps : List (Nat × Nat)) :
    SameSource (afterRead buf got taken eos cs ps s) (afterRead buf got taken eos cs ps s') := by
  refine ⟨?_, rfl, rfl, rfl⟩
  show s.source.drop _ = s'.source.drop _
  rw [h.source]

/-- RD_BYTES takes the same bytes in two states with one source. -/
theorem SameSource.rdBytesLoop {s s' : State} (h : SameSource s s') (fuel : Nat) (buf : Buf) (n got : Nat) :
    ∃ taken eos cs ps,
      Machine.rdBytesLoop fuel buf n got s = (got + taken.length, Machine.afterRead buf got taken eos cs ps s) ∧
      Machine.rdBytesLoop fuel buf n got s' = (got + taken.length, Machine.afterRead buf got taken eos cs ps s') := by
  induction fuel generalizing got s s' with
  | zero =>
    refine ⟨[], s.srcEos, s.cuts, s.pulls, by rw [afterRead_nil]; rfl, ?_⟩
    rw [h.cuts, h.pulls, h.srcEos, afterRead_nil]
    rfl
  | succ fuel ih =>
    unfold Machine.rdBytesLoop
    rw [← h.srcEos]
    split
    · simp only [← h.pullAnswer_eq]
      by_cases he : pullAnswer (n - got) s = []
      · have he' := (h.pullAnswer_eq (n - got)).symm.trans he
        refine ⟨[], true, s.cuts.tail, s.pulls ++ [(n - got, 0)], ?_, ?_⟩
        · rw [if_pos (by simp [he]), afterPull_empty he]; rfl
        · rw [if_pos (by simp [he]), afterPull_empty he', h.cuts, h.pulls]; rfl
      · have step := afterPull_stored buf got (n - got) s
        have step' := afterPull_stored buf got (n - got) s'
        rw [← h.pullAnswer_eq, ← h.cuts, ← h.pulls, ← h.srcEos] at step'
        rw [if_neg (by simpa using he), if_neg (by simpa using he), step, step']
        obtain ⟨taken, eos, cs, ps, e, e'⟩ := ih (h.afterRead buf got (pullAnswer (n - got) s) s.srcEos s.cuts.tail
          (s.pulls ++ [(n - got, (pullAnswer (n - got) s).length)])) (got + (pullAnswer (n - got) s).length)
        refine ⟨pullAnswer (n - got) s ++ taken, eos, cs, ps, ?_, ?_⟩
        · rw [e, afterRead_afterRead, List.length_append, Nat.add_assoc]
        · rw [e', afterRead_afterRead, List.length_append, Nat.add_assoc]
    · refine ⟨[], s.srcEos, s.cuts, s.pulls, by rw [afterRead_nil]; rfl, ?_⟩
      rw [h.cuts, h.pulls, h.srcEos, afterRead_nil]
      rfl

theorem SameSource.rdBytes {s s' : State} (h : SameSource s s') (buf : Buf) (n : Nat) :
    ∃ taken eos cs ps, Machine.rdBytes buf n s = (taken.length, Machine.afterRead buf 0 taken eos cs ps s) ∧
      Machine.rdBytes buf n s' = (taken.length, Machine.afterRead buf 0 taken eos cs ps s') := by
  simpa only [Machine.rdBytes, Nat.zero_add] using h.rdBytesLoop (n + 1) buf n 0

theorem Alike.sameSource {s s' : State} (h : Alike s s') (hb : busy s = true) : SameSource s s' := by
  obtain ⟨hsource, hcuts, hpulls, -⟩ := h.streams
  obtain ⟨-, -, -, -, -, heos⟩ := h.cursors hb
  exact ⟨hsource, hcuts, hpulls, heos⟩

/-- What is shown after a read of the same bytes. -/
theorem Shown.afterRead {s s' : State} (h : Shown s s') (buf : Buf) (taken : List Byte) (eos : Bool) (cs : List Nat)
    (ps : List (Nat × Nat)) :
    Shown (Machine.afterRead buf 0 taken eos cs ps s) (Machine.afterRead buf 0 taken eos cs ps s') := by
  cases buf <;> constructor <;> simp [Machine.afterRead, storeBytes, h.params, h.phase, h.mode, h.report, h.counters,
    h.streams, h.moves, h.result]

end Sys2Proof.Machine
end

section
/-! What the host cannot see stays unseen (O57): the engine's operations, and the step. -/

namespace Sys2Proof.Machine

/-! The encoder's codec. -/

/-- PAIRBUF may change above the cursor, and alike below it. -/
theorem Alike.setPairBuf {s s' : State} (h : Alike s s') (hp : s.phase = .encRun) {m m' : Memory Bool}
    (hm : ∀ q, q < s.pBits → pairBit (s.setPairBuf m) q = pairBit (s'.setPairBuf m') q) :
    Alike (s.setPairBuf m) (s'.setPairBuf m') := by
  obtain ⟨hcur, hparent, hlinks, hsyms, -⟩ := h.encoder hp
  exact Shown.alike_encRun (h.shown.deadFrame rfl rfl) hp
    (h.cursors (busy_of_encRun hp)) hcur hparent hlinks hsyms hm

/-- The bit cursor may go to where the bits below it are alike. -/
theorem Alike.setPBits {s s' : State} (h : Alike s s') (hp : s.phase = .encRun) {n : Nat}
    (hn : ∀ q, q < n → pairBit s q = pairBit s' q) : Alike (s.setPBits n) (s'.setPBits n) := by
  obtain ⟨hcur, hparent, hlinks, hsyms, -⟩ := h.encoder hp
  obtain ⟨hnext, hsIdx, hsLen, -, hrest⟩ := h.cursors (busy_of_encRun hp)
  exact Shown.alike_encRun (h.shown.deadFrame rfl rfl) hp
    ⟨hnext, hsIdx, hsLen, rfl, hrest⟩ hcur hparent hlinks hsyms hn

/-- PUT_BIT, and the push of a full buffer (R125). -/
theorem Alike.putBit {s s' : State} (h : Alike s s') (hp : s.phase = .encRun) (b : Bool) :
    Alike (putBit b s) (putBit b s') := by
  obtain ⟨-, -, -, hbits, -⟩ := h.cursors (busy_of_encRun hp)
  have hstored : ∀ q, q < s.pBits + 1 → pairBit (s.setPairBuf (s.pairBuf.set s.pBits b)) q =
      pairBit (s'.setPairBuf (s'.pairBuf.set s.pBits b)) q := by
    intro q hq
    have e := pairBit_set s s.pBits q b s.pBits
    have e' := pairBit_set s' s.pBits q b s.pBits
    refine e.trans (.trans ?_ e'.symm)
    split
    · rfl
    · exact h.packedBit hp (by omega)
  have h1 := h.setPairBuf hp fun q hq => hstored q (by omega)
  have h2 := h1.setPBits hp hstored
  unfold Machine.putBit
  simp only [← hbits, ← h.params]
  split
  · rename_i hfull
    exact (h2.wrBytes (bufFront_pair_congr fun q hq => hstored q (by omega))).setPBits hp nofun
  · exact h2

theorem Alike.putBits {s s' : State} (h : Alike s s') (hp : s.phase = .encRun) (bs : List Bool) :
    Alike (putBits bs s) (putBits bs s') := by
  induction bs generalizing s s' with
  | nil => exact h
  | cons b bs ih => exact ih (h.putBit hp b) ((putBit_frame b s).phase.trans hp)

/-- WR_PAIR of one pair (R127). -/
theorem Alike.wrPair {s s' : State} (h : Alike s s') (hp : s.phase = .encRun) (code : Nat) (x : Symbol) (w : Nat) :
    Alike (wrPair code x w s) (wrPair code x w s') :=
  (h.putBits hp _).putBits ((putBits_frame _ s).phase.trans hp) _

/-- FLUSH_PAIRS: the bits that complete the last byte are written first (R128). -/
theorem Alike.flushPairs {s s' : State} (h : Alike s s') (hp : s.phase = .encRun) :
    Alike (flushPairs s) (flushPairs s') := by
  obtain ⟨-, -, -, hbits, -⟩ := h.cursors (busy_of_encRun hp)
  have hpadded : ∀ q, q < 8 * ((s.pBits + 7) / 8) →
      pairBit (s.setPairBuf (s.pairBuf.setFrom s.pBits (List.replicate (8 * ((s.pBits + 7) / 8) - s.pBits) false))) q =
      pairBit (s'.setPairBuf
        (s'.pairBuf.setFrom s.pBits (List.replicate (8 * ((s.pBits + 7) / 8) - s.pBits) false))) q := by
    intro q hq
    simp only [pairBit, State.setPairBuf_pairBuf, State.setPairBuf_draws, Memory.get_setFrom, List.length_replicate]
    by_cases hlow : q < s.pBits
    · rw [if_neg (by omega), if_neg (by omega)]
      exact h.packedBit hp hlow
    · rw [if_pos (by omega), if_pos (by omega), List.getElem?_replicate, if_pos (by omega)]
      rfl
  unfold Machine.flushPairs
  simp only [← hbits]
  split
  · exact ((h.setPairBuf hp fun q hq => hpadded q (by omega)).wrBytes (bufFront_pair_congr hpadded)).setPBits hp nofun
  · exact h.setPBits hp nofun

/-- SYMBUF filled alike from the source (R122). -/
theorem Alike.fillSyms {s s' u u' : State} (h : Alike s s') (hp : s.phase = .encRun) (hf : SymInFrame s u)
    (hf' : SymInFrame s' u') (hshown : Shown u u') (heos : u.srcEos = u'.srcEos) {n : Nat}
    (hsyms : ∀ i, i < n → symByte u i = symByte u' i) :
    Alike ((u.setSLen n).setSIdx 0) ((u'.setSLen n).setSIdx 0) := by
  obtain ⟨hcur, hparent, hlinks, -, hbits⟩ := h.encoder hp
  obtain ⟨hnext, -, -, hpBits, hpLen, -⟩ := h.cursors (busy_of_encRun hp)
  rw [hf, hf'] at hshown hsyms ⊢
  exact Shown.alike_encRun (hshown.deadFrame rfl rfl) hp ⟨hnext, rfl, rfl, hpBits, hpLen, heos⟩ hcur hparent hlinks
    (fun i _ hi => hsyms i hi) hbits

/-- The refill of RD_SYM (R122). -/
theorem Alike.refillSyms {s s' : State} (h : Alike s s') (hp : s.phase = .encRun) :
    Alike (refillSyms s) (refillSyms s') := by
  obtain ⟨taken, eos, cs, ps, e, e'⟩ := (h.sameSource (busy_of_encRun hp)).rdBytes .sym s.params.block
  unfold Machine.refillSyms
  rw [← h.params, e, e']
  exact h.fillSyms hp (afterRead_sym_frame 0 taken eos cs ps s) (afterRead_sym_frame 0 taken eos cs ps s')
    (h.shown.afterRead .sym taken eos cs ps) rfl fun i hi =>
    (symByte_afterRead taken eos cs ps s i hi).trans (symByte_afterRead taken eos cs ps s' i hi).symm

/-- SYMBUF's index moves on over a symbol (R122). -/
theorem Alike.setSIdx_succ {s s' : State} (h : Alike s s') (hp : s.phase = .encRun) :
    Alike (s.setSIdx (s.sIdx + 1)) (s'.setSIdx (s.sIdx + 1)) := by
  obtain ⟨hcur, hparent, hlinks, hsyms, hbits⟩ := h.encoder hp
  obtain ⟨hnext, -, hrest⟩ := h.cursors (busy_of_encRun hp)
  exact Shown.alike_encRun (h.shown.deadFrame rfl rfl) hp
    ⟨hnext, rfl, hrest⟩ hcur hparent hlinks (fun i hi => hsyms i (Nat.le_of_succ_le hi)) hbits

theorem Alike.takeSym {s s' : State} (h : Alike s s') (hp : s.phase = .encRun) (hi : s.sIdx < s.sLen) :
    (takeSym s).1 = (takeSym s').1 ∧ Alike (takeSym s).2 (takeSym s').2 := by
  obtain ⟨-, hsIdx, -⟩ := h.cursors (busy_of_encRun hp)
  have hsym := h.prefetchedSym hp le_rfl hi
  simp only [Machine.takeSym, ← hsIdx, hsym, true_and]
  exact h.setSIdx_succ hp

/-- RD_SYM hands out the same (R122). -/
theorem Alike.rdSym {s s' : State} (h : Alike s s') (hp : s.phase = .encRun) (hi : s.sIdx ≤ s.sLen) :
    (rdSym s).1 = (rdSym s').1 ∧ Alike (rdSym s).2 (rdSym s').2 := by
  obtain ⟨-, hsIdx, hsLen, -⟩ := h.cursors (busy_of_encRun hp)
  unfold Machine.rdSym
  rw [← hsIdx, ← hsLen]
  split
  · have hr := h.refillSyms hp
    have hq : (Machine.refillSyms s).phase = .encRun := (refillSyms_frame s).phase.trans hp
    obtain ⟨-, -, hfill, -⟩ := hr.cursors (busy_of_encRun hq)
    simp only [← hfill]
    split
    · exact ⟨rfl, hr⟩
    · rename_i hne
      exact hr.takeSym hq (Nat.pos_of_ne_zero hne)
  · exact h.takeSym hp (by omega)

/-! The encoder's operations. -/

/-- ENC_SYM.HIT enters the same node (R152). -/
theorem Alike.hit {s s' : State} (h : Alike s s') (hp : s.phase = .encRun) (x : Symbol) (c : Nat) :
    Alike (hit x c s) (hit x c s') := by
  obtain ⟨hcur, -, hlinks, hsyms, hbits⟩ := h.encoder hp
  exact Shown.alike_encRun (h.shown.deadFrame rfl rfl) hp
    (h.cursors (busy_of_encRun hp)) rfl (fun _ => ⟨hcur, rfl⟩) hlinks hsyms hbits

/-- Back at the root, where the parent and the last symbol are never read. -/
theorem Alike.toRoot {s s' : State} (h : Alike s s') (hp : s.phase = .encRun) {m m' : Memory Nat}
    (hm : ∀ n x, childAt (s.setChild m) n x = childAt (s'.setChild m') n x) {root : Nat}
    (hr : root = s.params.emptyCode) (y y' : Symbol) (n : Nat) :
    Alike ((((s.setChild m).setLastSym y).setCur root).setNextCode n)
      ((((s'.setChild m').setLastSym y').setCur root).setNextCode n) := by
  obtain ⟨-, -, -, hsyms, hbits⟩ := h.encoder hp
  exact Shown.alike_encRun (h.shown.deadFrame rfl rfl) hp
    ⟨rfl, (h.cursors (busy_of_encRun hp)).2⟩ rfl (fun hne => absurd hr hne) hm hsyms hbits

/-- ENC_SYM.MISS (R153). -/
theorem Alike.miss {s s' : State} (h : Alike s s') (hp : s.phase = .encRun) (x : Symbol) :
    Alike (miss x s) (miss x s') := by
  obtain ⟨hcur, -⟩ := h.encoder hp
  have hu := h.wrPair hp s.cur x (recordWidth s)
  have hf := wrPair_frame s.cur x (recordWidth s) s
  rw [miss_eq, miss_eq, ← h.recordWidth_eq (busy_of_encRun hp), ← h.nextCode_eq (busy_of_encRun hp), ← h.params, ← hcur]
  generalize Machine.wrPair s.cur x (recordWidth s) s = u at hu hf
  generalize Machine.wrPair s.cur x (recordWidth s) s' = u' at hu
  have hr : s.params.emptyCode = u.params.emptyCode := by rw [hf.params]
  split
  · exact hu.toRoot (hf.phase.trans hp) (m := []) (m' := []) (fun _ _ => rfl) hr x x _
  · refine hu.toRoot (hf.phase.trans hp) (fun n y => ?_) hr x x _
    refine (childAt_set s s.cur n s.nextCode x y).trans (.trans ?_ (childAt_set s' s.cur n s.nextCode x y).symm)
    rw [h.link hp]

theorem Alike.symbolEffect {s s' : State} (h : Alike s s') (hp : s.phase = .encRun) (x : Symbol) :
    Alike (symbolEffect x s) (symbolEffect x s') := by
  obtain ⟨hcur, -⟩ := h.encoder hp
  unfold Machine.symbolEffect
  rw [← hcur, ← h.link hp]
  cases childAt s s.cur x with
  | none => rw [Option.elim_none, Option.elim_none]; exact h.miss hp x
  | some c => rw [Option.elim_some, Option.elim_some]; exact h.hit hp x c

/-- The final-flush pair, which the parent and the last symbol are read for away from the root alone (R155). -/
theorem Alike.finalFlush {s s' : State} (h : Alike s s') (hp : s.phase = .encRun) :
    Alike (finalFlush s) (finalFlush s') ∧ (finalFlush s).phase = .encRun := by
  obtain ⟨hcur, hparent, -⟩ := h.encoder hp
  rw [finalFlush_eq, finalFlush_eq, ← h.recordWidth_eq (busy_of_encRun hp), ← h.nextCode_eq (busy_of_encRun hp),
    ← h.params, ← hcur]
  split
  · exact ⟨h, hp⟩
  · rename_i hroot
    obtain ⟨hprev, hlast⟩ := hparent hroot
    have hu := h.wrPair hp s.prev s.lastSym (recordWidth s)
    have hf := wrPair_frame s.prev s.lastSym (recordWidth s) s
    rw [← hprev, ← hlast]
    generalize Machine.wrPair s.prev s.lastSym (recordWidth s) s = u at hu hf
    generalize Machine.wrPair s.prev s.lastSym (recordWidth s) s' = u' at hu
    have hq : u.phase = .encRun := hf.phase.trans hp
    have hr : s.params.emptyCode = u.params.emptyCode := by rw [hf.params]
    split
    · exact ⟨hu.toRoot hq (m := []) (m' := []) (fun _ _ => rfl) hr _ _ _, hq⟩
    · exact ⟨hu.toRoot hq (hu.link hq) hr u.lastSym u'.lastSym _, hq⟩

/-- The end of a run leaves what is shown, and nothing else is asked from then on (R46). -/
theorem Shown.endRun {s s' : State} (h : Shown s s') {p : Phase} (hp : p = .done ∨ p = .error) :
    Alike (endRun p s) (endRun p s') := by
  refine Shown.alike ⟨h.params, rfl, h.mode, h.report, h.counters, h.streams, h.moves, h.result⟩ ?_
  rcases hp with rfl | rfl <;> rfl

/-- ENC_EOS (R155). -/
theorem Alike.endOfInput {s s' : State} (h : Alike s s') (hp : s.phase = .encRun) :
    Alike (endOfInput s) (endOfInput s') := by
  obtain ⟨hu, hq⟩ := h.finalFlush hp
  unfold Machine.endOfInput
  simp only [← hu.recordWidth_eq (busy_of_encRun hq), ← hu.params]
  exact ((hu.wrPair hq _ _ _).flushPairs ((wrPair_frame _ _ _ _).phase.trans hq)).shown.endRun (.inl rfl)

/-! The decoder's codec. -/

/-- PAIRBUF filled alike from the source (R124). -/
theorem Alike.fillPairs {s s' u u' : State} (h : Alike s s') (hp : s.phase = .decRun) (hf : PairInFrame s u)
    (hf' : PairInFrame s' u') (hshown : Shown u u') (heos : u.srcEos = u'.srcEos) {n : Nat}
    (hbits : ∀ q, q < 8 * n → pairBit u q = pairBit u' q) :
    Alike ((u.setPLen n).setPBits 0) ((u'.setPLen n).setPBits 0) := by
  obtain ⟨hwords, hsyms, -⟩ := h.decoder hp
  obtain ⟨hnext, hsIdx, hsLen, -⟩ := h.cursors (busy_of_decRun hp)
  rw [hf, hf'] at hshown hbits ⊢
  exact Shown.alike_decRun (hshown.deadFrame rfl rfl) hp ⟨hnext, hsIdx, hsLen, rfl, rfl, heos⟩ hwords hsyms
    fun q _ hq => hbits q hq

/-- The refill of GET_BIT (R124). -/
theorem Alike.refillPairs {s s' : State} (h : Alike s s') (hp : s.phase = .decRun) :
    Alike (refillPairs s) (refillPairs s') := by
  obtain ⟨taken, eos, cs, ps, e, e'⟩ := (h.sameSource (busy_of_decRun hp)).rdBytes .pair s.params.block
  unfold Machine.refillPairs
  rw [← h.params, e, e']
  refine h.fillPairs hp (afterRead_pair_frame 0 taken eos cs ps s) (afterRead_pair_frame 0 taken eos cs ps s')
    (h.shown.afterRead .pair taken eos cs ps) rfl fun q hq => ?_
  rw [← length_flatMap_bitsOfByte] at hq
  exact (pairBit_afterRead taken eos cs ps s q hq).trans (pairBit_afterRead taken eos cs ps s' q hq).symm

theorem Alike.takeBit {s s' : State} (h : Alike s s') (hp : s.phase = .decRun) (hi : s.pBits < 8 * s.pLen) :
    (takeBit s).1 = (takeBit s').1 ∧ Alike (takeBit s).2 (takeBit s').2 := by
  obtain ⟨hwords, hsyms, hbits⟩ := h.decoder hp
  obtain ⟨hnext, hsIdx, hsLen, hpBits, hrest⟩ := h.cursors (busy_of_decRun hp)
  simp only [Machine.takeBit, ← hpBits, hbits s.pBits le_rfl hi, true_and]
  exact Shown.alike_decRun (h.shown.deadFrame rfl rfl) hp
    ⟨hnext, hsIdx, hsLen, rfl, hrest⟩ hwords hsyms fun q hq => hbits q (Nat.le_of_succ_le hq)

/-- GET_BIT reads the same (R124). -/
theorem Alike.getBit {s s' : State} (h : Alike s s') (hp : s.phase = .decRun) (hi : s.pBits ≤ 8 * s.pLen) :
    (getBit s).1 = (getBit s').1 ∧ Alike (getBit s).2 (getBit s').2 := by
  obtain ⟨-, -, -, hpBits, hpLen, -⟩ := h.cursors (busy_of_decRun hp)
  unfold Machine.getBit
  rw [← hpBits, ← hpLen]
  split
  · have hr := h.refillPairs hp
    have hq : (Machine.refillPairs s).phase = .decRun := (refillPairs_frame s).phase.trans hp
    obtain ⟨-, -, -, -, hfill, -⟩ := hr.cursors (busy_of_decRun hq)
    simp only [← hfill]
    split
    · exact ⟨rfl, hr⟩
    · rename_i hne
      refine hr.takeBit hq ?_
      show 0 < 8 * (Machine.refillPairs s).pLen
      omega
  · exact h.takeBit hp (by omega)

/-- A field's first bit, then the rest, as far as the source has bits (R93, R126). -/
theorem readBits_succ (n : Nat) (s : State) : readBits (n + 1) s = (getBit s).1.elim (none, (getBit s).2) fun b =>
    ((readBits n (getBit s).2).1.map (b.toNat + 2 * ·), (readBits n (getBit s).2).2) := by
  rw [readBits]
  obtain ⟨_ | b, s1⟩ := getBit s
  · rfl
  · simp only [Option.elim_some]
    obtain ⟨_ | v, s2⟩ := readBits n s1 <;> rfl

/-- The code, then the symbol (R126). -/
theorem rdPair_eq (w : Nat) (s : State) : rdPair w s = (readBits w s).1.elim (none, (readBits w s).2) fun code =>
    ((readBits 8 (readBits w s).2).1.map
      fun x => (code, BitVec.ofNat 8 x, code != (readBits 8 (readBits w s).2).2.params.stopCode),
      (readBits 8 (readBits w s).2).2) := by
  rw [rdPair]
  obtain ⟨_ | code, s1⟩ := readBits w s
  · rfl
  · simp only [Option.elim_some]
    obtain ⟨_ | x, s2⟩ := readBits 8 s1 <;> rfl

theorem Alike.readBits {s s' : State} (h : Alike s s') (hp : s.phase = .decRun) (hi : s.pBits ≤ 8 * s.pLen)
    (hl : s.pLen ≤ s.params.block) (n : Nat) :
    (readBits n s).1 = (readBits n s').1 ∧ Alike (readBits n s).2 (readBits n s').2 := by
  induction n generalizing s s' with
  | zero => exact ⟨rfl, h⟩
  | succ n ih =>
    obtain ⟨e, hu⟩ := h.getBit hp hi
    obtain ⟨hi', hl'⟩ := getBit_bounds s hi hl
    have hf := getBit_frame s
    obtain ⟨e2, hv⟩ := ih hu (hf.phase.trans hp) hi' (by rw [hf.params]; exact hl')
    rw [readBits_succ, readBits_succ, ← e]
    cases (Machine.getBit s).1 with
    | none => exact ⟨rfl, hu⟩
    | some b => simp only [Option.elim_some, e2, true_and]; exact hv

/-- RD_PAIR reads the same record (R126). -/
theorem Alike.rdPair {s s' : State} (h : Alike s s') (hp : s.phase = .decRun) (hi : s.pBits ≤ 8 * s.pLen)
    (hl : s.pLen ≤ s.params.block) (w : Nat) :
    (rdPair w s).1 = (rdPair w s').1 ∧ Alike (rdPair w s).2 (rdPair w s').2 := by
  obtain ⟨e, hu⟩ := h.readBits hp hi hl w
  obtain ⟨hi', hl'⟩ := readBits_bounds w s hi hl
  have hf := readBits_frame w s
  obtain ⟨e2, hv⟩ := hu.readBits (hf.phase.trans hp) hi' (by rw [hf.params]; exact hl') 8
  rw [rdPair_eq, rdPair_eq, ← e]
  cases (Machine.readBits w s).1 with
  | none => exact ⟨rfl, hu⟩
  | some code => simp only [Option.elim_some, e2, hv.params, true_and]; exact hv

/-- SYMBUF may change above `s_len`, and alike below it. -/
theorem Alike.setSyms {s s' : State} (h : Alike s s') (hp : s.phase = .decRun) {m m' : Memory Byte} {n : Nat}
    (hm : ∀ i, i < n → symByte (s.setSymBuf m) i = symByte (s'.setSymBuf m') i) :
    Alike ((s.setSymBuf m).setSLen n) ((s'.setSymBuf m').setSLen n) := by
  obtain ⟨hwords, -, hbits⟩ := h.decoder hp
  obtain ⟨hnext, hsIdx, -, hrest⟩ := h.cursors (busy_of_decRun hp)
  exact Shown.alike_decRun (h.shown.deadFrame rfl rfl) hp
    ⟨hnext, hsIdx, rfl, hrest⟩ hwords hm hbits

/-- With no symbol left in SYMBUF its contents are never read. -/
theorem Alike.clearSyms {s s' : State} (h : Alike s s') (hp : s.phase = .decRun) :
    Alike (s.setSLen 0) (s'.setSLen 0) := h.setSyms hp (m := s.symBuf) (m' := s'.symBuf) nofun

theorem symByte_set (s : State) (a i : Nat) (x : Symbol) :
    symByte (s.setSymBuf (s.symBuf.set a x)) i = if a = i then x else symByte s i := by
  simp only [symByte, State.setSymBuf_symBuf, State.setSymBuf_draws, Memory.get_set]
  split <;> rfl

/-- One symbol of WR_RUN, and the push of a full buffer (R123). -/
theorem Alike.wrSym {s s' : State} (h : Alike s s') (hp : s.phase = .decRun) (x : Symbol) :
    Alike (wrSym x s) (wrSym x s') := by
  obtain ⟨-, -, hsLen, -⟩ := h.cursors (busy_of_decRun hp)
  have hstored : ∀ i, i < s.sLen + 1 → symByte (s.setSymBuf (s.symBuf.set s.sLen x)) i =
      symByte (s'.setSymBuf (s'.symBuf.set s.sLen x)) i := by
    intro i hi
    rw [symByte_set, symByte_set]
    split
    · rfl
    · exact h.writtenSym hp (by omega)
  have h1 := h.setSyms hp hstored
  unfold Machine.wrSym
  simp only [← hsLen, ← h.params]
  split
  · rename_i hfull
    exact (h1.wrBytes (bufFront_sym_congr fun i hi => hstored i (by omega))).clearSyms hp
  · exact h1

/-- WR_RUN of one word (R123). -/
theorem Alike.wrRun {s s' : State} (h : Alike s s') (hp : s.phase = .decRun) (word : List Symbol) :
    Alike (wrRun word s) (wrRun word s') := by
  induction word generalizing s s' with
  | nil => exact h
  | cons x xs ih => exact ih (h.wrSym hp x) ((wrSym_frame x s).phase.trans hp)

/-- FLUSH_SYMS (R129). -/
theorem Alike.flushSyms {s s' : State} (h : Alike s s') (hp : s.phase = .decRun) :
    Alike (flushSyms s) (flushSyms s') := by
  obtain ⟨-, -, hsLen, -⟩ := h.cursors (busy_of_decRun hp)
  unfold Machine.flushSyms
  rw [← hsLen]
  split
  · exact (h.wrBytes (bufFront_sym_congr fun _ hi => h.writtenSym hp hi)).clearSyms hp
  · exact h.clearSyms hp

/-! The decoder's operations. -/

theorem Alike.setWt {s s' : State} (h : Alike s s') (hp : s.phase = .decRun) {m m' : Memory (List Symbol)}
    (hm : ∀ c, wordAt (s.setWt m) c = wordAt (s'.setWt m') c) : Alike (s.setWt m) (s'.setWt m') := by
  obtain ⟨-, hsyms, hbits⟩ := h.decoder hp
  exact Shown.alike_decRun (h.shown.deadFrame rfl rfl) hp
    (h.cursors (busy_of_decRun hp)) hm hsyms hbits

/-- WT_RESET (R173). -/
theorem Alike.wtReset {s s' : State} (h : Alike s s') (hp : s.phase = .decRun) : Alike (wtReset s) (wtReset s') := by
  refine h.setWt hp fun c => ?_
  refine (wordAt_wtReset s c).trans (.trans ?_ (wordAt_wtReset s' c).symm)
  rw [h.params, h.word hp]

/-- DEC_PAIR of the same word and symbol (R171). -/
theorem Alike.appendWord {s s' : State} (h : Alike s s') (hp : s.phase = .decRun) (word : List Symbol) (x : Symbol) :
    Alike (appendWord word x s) (appendWord word x s') := by
  have hstored : Alike (s.setWt (s.wt.set s.nextCode (word ++ [x])))
      (s'.setWt (s'.wt.set s.nextCode (word ++ [x]))) := by
    refine h.setWt hp fun c => ?_
    rw [wordAt_set, wordAt_set, h.word hp]
  have hu := hstored.wrRun hp (word ++ [x])
  have hq := (wrRun_frame (word ++ [x]) (s.setWt (s.wt.set s.nextCode (word ++ [x])))).phase.trans hp
  rw [appendWord_eq, appendWord_eq, ← h.nextCode_eq (busy_of_decRun hp), ← h.params]
  split
  · exact (hu.setNextCode _).wtReset hq
  · exact hu.setNextCode _

/-- DEC_STOP (R172). -/
theorem Alike.stop {s s' : State} (h : Alike s s') (hp : s.phase = .decRun) : Alike (stop s) (stop s') :=
  (h.flushSyms hp).shown.endRun (.inl rfl)

/-- DEC_TRUNC (R175). -/
theorem Alike.truncate {s s' : State} (h : Alike s s') (hp : s.phase = .decRun) : Alike (truncate s) (truncate s') :=
  ((h.setReport true causeTruncated 0).flushSyms hp).shown.endRun (.inl rfl)

/-- The fault reports the same, in any phase (R236). -/
theorem Alike.raise {s s' : State} (h : Alike s s') (f : FatalFault) (v : Nat) :
    Alike (raise f v s) (raise f v s') := by
  have hinfo : v % 2 ^ (s.params.codeBits + 1) = v % 2 ^ (s'.params.codeBits + 1) := by rw [h.params]
  refine Shown.endRun ?_ (.inr rfl)
  exact ⟨h.params, h.phase, h.mode, ⟨h.report.1, rfl, hinfo⟩, h.counters, h.streams, h.moves, h.result⟩

theorem Alike.recordEffect {s s' : State} (h : Alike s s') (hp : s.phase = .decRun) (code : Nat) (x : Symbol) :
    Alike (recordEffect code x s) (recordEffect code x s') := by
  unfold Machine.recordEffect
  rw [← h.params, ← h.word hp]
  split
  · exact h.stop hp
  · cases wordAt s code with
    | none => rw [Option.elim_none, Option.elim_none]; exact h.raise .badCode code
    | some word => rw [Option.elim_some, Option.elim_some]; exact h.appendWord hp word x

/-! The engine's turn, the host's moves, the step. -/

theorem Alike.encoderEffect {s s' : State} (h : Alike s s') (hi : Inv s) (hp : s.phase = .encRun) :
    Alike (encoderEffect s) (encoderEffect s') := by
  obtain ⟨e, hu⟩ := h.rdSym hp (hi.bounds.sym_low (busy_of_encRun hp))
  have hq : (Machine.rdSym s).2.phase = .encRun := (rdSym_frame s).phase.trans hp
  unfold Machine.encoderEffect
  rw [← e]
  cases (Machine.rdSym s).1 with
  | none => exact hu.endOfInput hq
  | some x => exact hu.symbolEffect hq x

theorem Alike.decoderEffect {s s' : State} (h : Alike s s') (hi : Inv s) (hp : s.phase = .decRun) :
    Alike (decoderEffect s) (decoderEffect s') := by
  obtain ⟨e, hu⟩ := h.rdPair hp (hi.bounds.dec_bits hp) (hi.bounds.dec_fill hp) (recordWidth s)
  have hq : (Machine.rdPair (recordWidth s) s).2.phase = .decRun := (rdPair_frame _ s).phase.trans hp
  unfold Machine.decoderEffect
  rw [← h.recordWidth_eq (busy_of_decRun hp), ← e]
  cases (Machine.rdPair (recordWidth s) s).1 with
  | none => exact hu.truncate hq
  | some q => exact hu.recordEffect hq q.1 q.2.1

theorem Alike.engineEffect {s s' : State} (h : Alike s s') (hi : Inv s) : Alike (engineEffect s) (engineEffect s') := by
  unfold Machine.engineEffect
  rw [← h.phase]
  split
  · exact h.encoderEffect hi ‹_›
  · exact h.decoderEffect hi ‹_›
  all_goals exact h

/-- RUN_INIT writes all that a run reads (R211, R212, R213). -/
theorem Alike.startRun {s s' : State} (h : Alike s s') (m : Mode) : Alike (startRun m s) (startRun m s') := by
  rw [startRun_eq, startRun_eq, ← h.shown.busy_eq]
  split
  · exact h
  · have hnext : s.params.startCode = s'.params.startCode := by rw [h.params]
    have hroot : s.params.emptyCode = s'.params.emptyCode := by rw [h.params]
    have hshown (p : Phase) : Shown ((runInit (s.setMode m)).setPhase p) ((runInit (s'.setMode m)).setPhase p) :=
      ⟨h.params, rfl, rfl, ⟨rfl, rfl, rfl⟩, ⟨rfl, rfl⟩, h.streams, h.moves, h.result⟩
    cases m with
    | enc =>
      exact (hshown .encRun).alike_encRun rfl ⟨hnext, rfl, rfl, rfl, rfl, rfl⟩ hroot (fun hne => absurd rfl hne)
        (fun _ _ => rfl) (fun i _ hi => absurd hi (Nat.not_lt_zero i)) fun q hq => absurd hq (Nat.not_lt_zero q)
    | dec =>
      refine (hshown .decRun).alike_decRun rfl ⟨hnext, rfl, rfl, rfl, rfl, rfl⟩ (fun c => ?_)
        (fun i hi => absurd hi (Nat.not_lt_zero i)) fun q _ hq => absurd hq (Nat.not_lt_zero q)
      simp only [wordAt, runInit, State.setPhase_wt, State.setMode_params, h.params]

theorem Alike.commandEffect {s s' : State} (h : Alike s s') (v : Word64) :
    Alike (commandEffect v s) (commandEffect v s') := by
  unfold Machine.commandEffect
  split
  · exact h.startRun _
  · exact h

/-- HW_RESET clears all that is shown but the streams (R216). -/
theorem Alike.hwReset {s s' : State} (h : Alike s s') : Alike (hwReset s) (hwReset s') :=
  Shown.alike ⟨h.params, rfl, rfl, ⟨rfl, rfl, rfl⟩, ⟨rfl, rfl⟩, h.streams, h.moves, h.result⟩ rfl

theorem Alike.moveEffect {s s' : State} (h : Alike s s') (hi : Inv s) (m : HostMove) :
    Alike (moveEffect m s) (moveEffect m s') := by
  cases m with
  | wait => exact h.engineEffect hi
  | regWrite n v =>
    show Alike (if n = 0 then Machine.commandEffect v s else s) (if n = 0 then Machine.commandEffect v s' else s')
    split
    · exact h.commandEffect v
    · exact h
  | regRead n =>
    show Alike (s.setResult (.value (csrValue n s))) (s'.setResult (.value (csrValue n s')))
    rw [← h.shown.csrValue_eq]
    exact h.setResult _
  | rst => exact h.hwReset
  | connect src cs =>
    show Alike (s.setSource src cs s.pulls) (s'.setSource src cs s'.pulls)
    obtain ⟨-, -, hpulls, -⟩ := h.streams
    rw [← hpulls]
    exact h.setSource src cs s.pulls

/-- A step from two alike states makes the same move and takes the same turn. -/
theorem Alike.stepEffect {s s' : State} (h : Alike s s') (hi : Inv s) : Alike (stepEffect s) (stepEffect s') := by
  unfold Machine.stepEffect
  rw [← h.moves]
  exact (h.setMoves _).moveEffect (hi.setMoves _) _

/-- Settles O57: the step is a function from both states, and keeps them alike. -/
theorem residueIsInvisible : Obligations.ResidueIsInvisible := by
  intro s s' t hi hi' h hst
  rw [step_of_inv hi] at hst
  cases hst
  have ht := h.stepEffect hi
  exact ⟨_, step_of_inv hi', ht, ht.shown.statusReg_eq, ht.shown.infoReg_eq⟩

end Sys2Proof.Machine
end

section
/-! What an operation can do to the control registers (phase, next_code, TRUNC, cause, info), said once for every
operation. -/

namespace Sys2Proof.Machine

/-- TRUNC, cause and info stay. -/
def SameReport (s t : State) : Prop := t.trunc = s.trunc ∧ t.cause = s.cause ∧ t.info = s.info

/-- TRUNC, cause and info are a fresh run's (R213). -/
def ClearReport (t : State) : Prop := t.trunc = false ∧ t.cause = causeNone ∧ t.info = 0

/-- The operation counts up: a pair that is not STOP, or ADVANCE itself (R21, R192). -/
def CountsUp (s : State) (i : Instr) : Prop :=
  (∃ x, (i = .encSym x ∨ i = .encSymMiss x) ∧ childAt s s.cur x = none) ∨
  (∃ code x, ((∃ w, pairRecord i = some (w, code, x)) ∨ i = .decPair code x) ∧ wordAt s code ≠ none) ∨
  i = .advance

/-- What an operation that completes can do to the control registers. -/
inductive ControlEffect (i : Instr) (s t : State) : Prop where
  | keeps (phase : t.phase = s.phase) (code : t.nextCode = s.nextCode) (report : SameReport s t)
  | counts (who : CountsUp s i) (phase : t.phase = s.phase) (code : t.nextCode = countUp s) (report : SameReport s t)
  | starts (idle : busy s = false) (who : ((∃ r, i = .startEnc r) ∧ t.phase = .encRun) ∨
      ((∃ r, i = .startDec r) ∧ t.phase = .decRun)) (code : t.nextCode = s.params.startCode) (report : ClearReport t)
  | inits (who : i = .runInit) (phase : t.phase = s.phase) (code : t.nextCode = s.params.startCode)
      (report : ClearReport t)
  | resets (who : i = .hwReset) (phase : t.phase = .idle) (code : t.nextCode = s.params.startCode)
      (report : ClearReport t)
  | finishes (who : FinishesRun i) (phase : t.phase = .done) (report : SameReport s t)
  | truncates (who : i = .decTrunc) (phase : t.phase = .done)
      (report : t.trunc = true ∧ t.cause = causeTruncated ∧ t.info = 0)
  | raises (code : Nat) (who : RaisesBadCode s i code) (phase : t.phase = .error)
      (report : t.trunc = s.trunc ∧ t.cause = causeBadCode ∧ t.info = code % 2 ^ (s.params.codeBits + 1))

variable {i : Instr} {s t : State}

/-! The frames of the codec, as control effects. -/

theorem SymInFrame.keeps (h : SymInFrame s t) (r : OpResult) : ControlEffect i s (t.setResult r) := by
  rw [h]; exact .keeps rfl rfl ⟨rfl, rfl, rfl⟩

theorem PairInFrame.keeps (h : PairInFrame s t) (r : OpResult) : ControlEffect i s (t.setResult r) := by
  rw [h]; exact .keeps rfl rfl ⟨rfl, rfl, rfl⟩

theorem SymOutFrame.keeps (h : SymOutFrame s t) : ControlEffect i s t := by
  rw [h]; exact .keeps rfl rfl ⟨rfl, rfl, rfl⟩

theorem PairOutFrame.keeps (h : PairOutFrame s t) : ControlEffect i s t := by
  rw [h]; exact .keeps rfl rfl ⟨rfl, rfl, rfl⟩

/-! The engine's operations. -/

theorem miss_control (x : Symbol) (s : State) :
    (miss x s).phase = s.phase ∧ (miss x s).nextCode = countUp s ∧ SameReport s (miss x s) := by
  have hf := wrPair_frame s.cur x (recordWidth s) s
  rw [miss_eq, countUp]
  generalize wrPair s.cur x (recordWidth s) s = u at hf
  rw [hf]
  split <;> exact ⟨rfl, rfl, rfl, rfl, rfl⟩

theorem appendWord_control (word : List Symbol) (x : Symbol) (s : State) :
    (appendWord word x s).phase = s.phase ∧ (appendWord word x s).nextCode = countUp s ∧
      SameReport s (appendWord word x s) := by
  have hf := wrRun_frame (word ++ [x]) (s.setWt (s.wt.set s.nextCode (word ++ [x])))
  rw [appendWord_eq, countUp]
  generalize wrRun (word ++ [x]) (s.setWt (s.wt.set s.nextCode (word ++ [x]))) = u at hf
  rw [hf]
  split <;> exact ⟨rfl, rfl, rfl, rfl, rfl⟩

theorem stop_report (s : State) : SameReport s (stop s) := by
  have hf := flushSyms_frame s
  unfold stop
  generalize flushSyms s = u at hf
  rw [hf]
  exact ⟨rfl, rfl, rfl⟩

theorem truncate_report (s : State) :
    (truncate s).trunc = true ∧ (truncate s).cause = causeTruncated ∧ (truncate s).info = 0 := by
  have hf := flushSyms_frame (s.setReport true causeTruncated 0)
  unfold truncate
  generalize flushSyms (s.setReport true causeTruncated 0) = u at hf
  rw [hf]
  exact ⟨rfl, rfl, rfl⟩

/-- What an operation behind a test leaves, once it completes. -/
theorem eq_of_ite_next {c : Prop} [Decidable c] {u : State} {f : Fault}
    (h : (if c then .next u else .fault f : Host.Outcome State Fault Refusal) = .next t) : u = t := by
  split at h
  · exact Host.Outcome.next.inj h
  · cases h

theorem effect_of_ite {c : Prop} [Decidable c] {u : State} {f : Fault}
    (h : (if c then .next u else .fault f : Host.Outcome State Fault Refusal) = .next t)
    (hu : ControlEffect i s u) : ControlEffect i s t := eq_of_ite_next h ▸ hu

/-- A miss that completes counts up. -/
theorem runMiss_effect {x : Symbol} (who : CountsUp s i) (h : runMiss x s = .next t) : ControlEffect i s t := by
  obtain ⟨hphase, hcode, hreport⟩ := miss_control x s
  unfold runMiss at h
  split at h
  · cases h
  · exact effect_of_ite h (.counts who hphase hcode hreport)

theorem encSym_effect {x : Symbol} (h : execEncSym x s = .next t) : ControlEffect (.encSym x) s t := by
  unfold execEncSym at h
  cases hc : childAt s s.cur x with
  | none => rw [hc] at h; exact runMiss_effect (.inl ⟨x, .inl rfl, hc⟩) h
  | some c => rw [hc] at h; cases h; exact .keeps rfl rfl ⟨rfl, rfl, rfl⟩

theorem encSymHit_effect {x : Symbol} (h : execEncSymHit x s = .next t) : ControlEffect (.encSymHit x) s t := by
  unfold execEncSymHit at h
  cases hc : childAt s s.cur x with
  | none => rw [hc] at h; cases h
  | some c => rw [hc] at h; cases h; exact .keeps rfl rfl ⟨rfl, rfl, rfl⟩

theorem encSymMiss_effect {x : Symbol} (h : execEncSymMiss x s = .next t) : ControlEffect (.encSymMiss x) s t := by
  unfold execEncSymMiss at h
  cases hc : childAt s s.cur x with
  | none => rw [hc] at h; exact runMiss_effect (.inl ⟨x, .inr rfl, hc⟩) h
  | some c => rw [hc] at h; cases h

/-- ENC_EOS that completes leaves what the end of the input leaves. -/
theorem eq_of_execEncEos (h : execEncEos s = .next t) : endOfInput s = t := by
  unfold execEncEos at h
  split at h
  · cases h
  · exact eq_of_ite_next h

theorem encEos_effect (h : execEncEos s = .next t) : ControlEffect .encEos s t := by
  obtain ⟨u, e, -, -, htrunc, hcause, hinfo⟩ := endOfInput_eq s
  rw [← eq_of_execEncEos h, e]
  exact .finishes (.inl rfl) rfl ⟨htrunc, hcause, hinfo⟩

/-- A pair that completes counts up where its code names a word, and raises BAD_CODE where it does not. -/
theorem runPair_effect {code : Nat} {x : Symbol}
    (hi : (∃ w, pairRecord i = some (w, code, x)) ∨ i = .decPair code x) (h : runPair code x s = .next t) :
    ControlEffect i s t := by
  unfold runPair at h
  cases hw : wordAt s code with
  | none =>
    rw [hw] at h
    cases h
    exact .raises code (.inr (.inr ⟨hw, x, hi⟩)) rfl ⟨rfl, rfl, rfl⟩
  | some word =>
    obtain ⟨hphase, hcode, hreport⟩ := appendWord_control word x s
    rw [hw] at h
    simp only at h
    split at h
    · cases h
    · exact effect_of_ite h (.counts (.inr (.inl ⟨code, x, hi, by simp [hw]⟩)) hphase hcode hreport)

theorem runStop_effect (who : FinishesRun i) (h : runStop s = .next t) : ControlEffect i s t :=
  effect_of_ite h (.finishes who rfl (stop_report s))

theorem startRun_effect {m : Mode} (who : ((∃ r, i = .startEnc r) ∧ m = .enc) ∨ ((∃ r, i = .startDec r) ∧ m = .dec)) :
    ControlEffect i s (startRun m s) := by
  rw [startRun_eq]
  split
  · exact .keeps rfl rfl ⟨rfl, rfl, rfl⟩
  · rename_i hb
    refine .starts (by simpa using hb) ?_ rfl ⟨rfl, rfl, rfl⟩
    rcases who with ⟨who, rfl⟩ | ⟨who, rfl⟩
    · exact .inl ⟨who, rfl⟩
    · exact .inr ⟨who, rfl⟩

/-- Every operation that completes has one of these effects on the control registers. -/
theorem exec_effect (h : exec i s = .next t) : ControlEffect i s t := by
  cases hp : pairRecord i with
  | some q =>
    obtain ⟨w, code, x⟩ := q
    rw [exec_of_pairRecord hp] at h
    exact runPair_effect (.inl ⟨w, hp⟩) h
  | none =>
    cases hs : stopRecord i with
    | some q =>
      obtain ⟨w, x⟩ := q
      rw [exec_of_stopRecord hs] at h
      exact runStop_effect (.inr (.inr (.inl ⟨w, x, hs⟩))) h
    | none =>
      cases i <;> simp only [pairRecord, stopRecord, reduceCtorEq] at hp hs
      case encSym x => exact encSym_effect h
      case encSymHit x => exact encSymHit_effect h
      case encSymMiss x => exact encSymMiss_effect h
      case encEos => exact encEos_effect h
      case decPair code x => exact runPair_effect (.inr rfl) h
      case decStop => exact runStop_effect (.inr (.inl rfl)) h
      case decTrunc => exact effect_of_ite h (.truncates rfl rfl (truncate_report s))
      case badCode code => cases h; exact .raises code (.inl rfl) rfl ⟨rfl, rfl, rfl⟩
      case raise f v => cases f; cases h; exact .raises v (.inr (.inl rfl)) rfl ⟨rfl, rfl, rfl⟩
      case startEnc r => cases h; exact startRun_effect (.inl ⟨⟨r, rfl⟩, rfl⟩)
      case startDec r => cases h; exact startRun_effect (.inr ⟨⟨r, rfl⟩, rfl⟩)
      case runInit => cases h; exact .inits rfl rfl rfl ⟨rfl, rfl, rfl⟩
      case hwReset => cases h; exact .resets rfl rfl rfl ⟨rfl, rfl, rfl⟩
      case rdBytes buf n =>
        refine effect_of_ite h ?_
        obtain ⟨taken, eos, cs, ps, e, -⟩ := rdBytes_spec buf n s
        rw [e]
        cases buf with
        | sym => exact (afterRead_sym_frame 0 taken eos cs ps s).keeps _
        | pair => exact (afterRead_pair_frame 0 taken eos cs ps s).keeps _
      case wrBytes buf n => exact effect_of_ite h (.keeps rfl rfl ⟨rfl, rfl, rfl⟩)
      case rdSym => exact effect_of_ite h ((rdSym_frame s).keeps _)
      case wrRun word => exact effect_of_ite h (wrRun_frame word s).keeps
      case getBit => exact effect_of_ite h ((getBit_frame s).keeps _)
      case putBit b => exact effect_of_ite h (putBit_frame b s).keeps
      case rdPair w => exact effect_of_ite h ((rdPair_frame w s).keeps _)
      case wrPair code x w => exact effect_of_ite h (wrPair_frame code x w s).keeps
      case flushPairs => exact effect_of_ite h (flushPairs_frame s).keeps
      case flushSyms => exact effect_of_ite h (flushSyms_frame s).keeps
      case advance =>
        refine effect_of_ite h ?_
        rw [advance_eq]
        split
        · rename_i hfull
          exact .counts (.inr (.inr rfl)) rfl (if_pos hfull).symm ⟨rfl, rfl, rfl⟩
        · rename_i hfull
          exact .counts (.inr (.inr rfl)) rfl (if_neg hfull).symm ⟨rfl, rfl, rfl⟩
      -- what is left writes a dictionary, the result, or nothing
      all_goals cases h; exact .keeps rfl rfl ⟨rfl, rfl, rfl⟩

/-- The phase changes an operation can make (R24). -/
theorem exec_phase (h : exec i s = .next t) (hne : t.phase ≠ s.phase) :
    (busy s = false ∧ (((∃ r, i = .startEnc r) ∧ t.phase = .encRun) ∨ ((∃ r, i = .startDec r) ∧ t.phase = .decRun))) ∨
    (i = .hwReset ∧ t.phase = .idle) ∨ (FinishesRun i ∧ t.phase = .done) ∨
    ((∃ code, RaisesBadCode s i code) ∧ t.phase = .error) := by
  cases exec_effect h with
  | keeps phase => exact absurd phase hne
  | counts _ phase => exact absurd phase hne
  | starts idle who => exact .inl ⟨idle, who⟩
  | inits _ phase => exact absurd phase hne
  | resets who phase => exact .inr (.inl ⟨who, phase⟩)
  | finishes who phase => exact .inr (.inr (.inl ⟨who, phase⟩))
  | truncates who phase => exact .inr (.inr (.inl ⟨.inr (.inr (.inr who)), phase⟩))
  | raises code who phase => exact .inr (.inr (.inr ⟨⟨code, who⟩, phase⟩))

/-- ENC_SYM keeps the phase. -/
theorem encSym_phase {x : Symbol} (h : exec (.encSym x) s = .next t) : t.phase = s.phase := by
  by_contra hne
  rcases exec_phase h hne with ⟨-, ⟨⟨r, hr⟩, -⟩ | ⟨⟨r, hr⟩, -⟩⟩ | ⟨hr, -⟩ | ⟨hr, -⟩ | ⟨⟨code, hr⟩, -⟩
  · cases hr
  · cases hr
  · cases hr
  · rcases hr with hr | hr | ⟨w, x, hr⟩ | hr <;> cases hr
  · rcases hr with hr | hr | ⟨-, x, ⟨w, hr⟩ | hr⟩ <;> cases hr

/-- A CTRL write changes the phase only where it starts a run (R211, R212, R214). -/
theorem commandEffect_phase {v : Word64} (hne : (commandEffect v s).phase ≠ s.phase) :
    busy s = false ∧ v.getLsbD 0 = true ∧
      (commandEffect v s).phase = if v.getLsbD 1 = true then .decRun else .encRun := by
  unfold commandEffect at hne ⊢
  split at hne
  · rename_i hv
    rw [startRun_eq] at hne
    split at hne
    · exact absurd rfl hne
    · rename_i hb
      rw [if_pos hv, startRun_eq, if_neg hb]
      refine ⟨by simpa using hb, hv, ?_⟩
      cases v.getLsbD 1 <;> rfl
  · exact absurd rfl hne

/-- The record's operation changes the phase at STOP_CODE and at a code that names no word (R96, R172, R174). -/
theorem recordInstr_phase {w code : Nat} {x : Symbol} (hc : code < 2 ^ w)
    (h : exec (recordInstr s.params w code x) s = .next t) (hne : t.phase ≠ s.phase) :
    (code = s.params.stopCode ∧ t.phase = .done ∧ exec .decStop s = .next t) ∨
    (code ≠ s.params.stopCode ∧ wordAt s code = none ∧ t.phase = .error ∧ exec (.badCode code) s = .next t) := by
  rw [exec_recordInstr _ x hc] at h
  split at h
  · rename_i hstop
    exact .inl ⟨hstop, eq_of_ite_next h ▸ rfl, h⟩
  · rename_i hstop
    refine .inr ⟨hstop, ?_⟩
    cases hw : wordAt s code with
    | none =>
      rw [runPair, hw] at h
      cases h
      exact ⟨rfl, rfl, rfl⟩
    | some word =>
      obtain ⟨hphase, -⟩ := appendWord_control word x s
      rw [runPair, hw] at h
      simp only at h
      split at h
      · cases h
      · exact absurd (eq_of_ite_next h ▸ hphase) hne

/-- ENC_EOS ends the run in DONE. -/
theorem encEos_phase (h : exec .encEos s = .next t) : t.phase = .done := by
  rw [← eq_of_execEncEos h]; rfl

/-- DEC_TRUNC ends the run in DONE. -/
theorem decTrunc_phase (h : exec .decTrunc s = .next t) : t.phase = .done := by
  rw [← eq_of_ite_next h]; rfl

end Sys2Proof.Machine
end

section
/-! Who writes the control registers (O8, O46, O48), each read off the operations' effects, and the values STATUS can
show (O53). -/

namespace Sys2Proof.Machine

/-- Settles O8: the effects that change next_code. -/
theorem nextCodeWriters : Obligations.NextCodeWriters := by
  intro i s t h hne
  cases exec_effect h with
  | keeps _ code => exact absurd code hne
  | counts who _ code => exact .inl ⟨code, who⟩
  | starts idle who code =>
    refine .inr (.inl ⟨code, .inl ⟨idle, ?_⟩⟩)
    rcases who with ⟨⟨r, hr⟩, -⟩ | ⟨⟨r, hr⟩, -⟩
    · exact ⟨r, .inl hr⟩
    · exact ⟨r, .inr hr⟩
  | inits who _ code => exact .inr (.inl ⟨code, .inr (.inl who)⟩)
  | resets who _ code => exact .inr (.inl ⟨code, .inr (.inr who)⟩)
  | finishes who phase => exact .inr (.inr (.inl ⟨phase, who⟩))
  | truncates who phase => exact .inr (.inr (.inl ⟨phase, .inr (.inr (.inr who))⟩))
  | raises code who phase => exact .inr (.inr (.inr ⟨phase, code, who⟩))

/-- Settles O48: the effects that change the report. -/
theorem reportWriters : Obligations.ReportWriters := by
  intro i s t h hne
  have hsame : t.phase ≠ .error ∨ t.phase = s.phase → ¬ SameReport s t := by
    rintro hphase ⟨htrunc, hcause, hinfo⟩
    rcases hne with hne | hne | hne | ⟨he, hne⟩
    · exact hne htrunc
    · exact hne hcause
    · exact hne hinfo
    · rcases hphase with hphase | hphase
      · exact hphase he
      · exact hne (hphase ▸ he)
  cases exec_effect h with
  | keeps phase _ report => exact absurd report (hsame (.inr phase))
  | counts _ phase _ report => exact absurd report (hsame (.inr phase))
  | starts idle who _ report =>
    obtain ⟨htrunc, hcause, hinfo⟩ := report
    refine .inl ⟨htrunc, hcause, hinfo, .inl ⟨idle, ?_⟩⟩
    rcases who with ⟨⟨r, hr⟩, -⟩ | ⟨⟨r, hr⟩, -⟩
    · exact ⟨r, .inl hr⟩
    · exact ⟨r, .inr hr⟩
  | inits who _ _ report =>
    obtain ⟨htrunc, hcause, hinfo⟩ := report
    exact .inl ⟨htrunc, hcause, hinfo, .inr (.inl who)⟩
  | resets who _ _ report =>
    obtain ⟨htrunc, hcause, hinfo⟩ := report
    exact .inl ⟨htrunc, hcause, hinfo, .inr (.inr who)⟩
  | finishes _ phase report => exact absurd report (hsame (.inl (by rw [phase]; nofun)))
  | truncates who _ report =>
    obtain ⟨htrunc, hcause, hinfo⟩ := report
    exact .inr (.inl ⟨htrunc, hcause, hinfo, who⟩)
  | raises code who phase report =>
    obtain ⟨htrunc, hcause, hinfo⟩ := report
    exact .inr (.inr ⟨htrunc, hcause, phase, code, hinfo, who⟩)

/-- Settles O46: over the operations by their effects, over the steps by what a step can do. -/
theorem phaseTransitions : Obligations.PhaseTransitions := by
  refine ⟨fun i s t h hne => exec_phase h hne, ?_⟩
  rintro s t _ rfl h hne
  rcases step_cases h with ⟨ht, hp, -, hturn⟩ | ⟨ht, hp, -, hturn⟩ | ⟨-, -, rfl⟩ | ⟨v, ms, hm, hx⟩ |
    ⟨n, v, ms, -, -, rfl⟩ | ⟨n, ms, -, hx⟩ | ⟨ms, hm, hx⟩ | ⟨src, cs, ms, -, rfl⟩
  · rcases hturn with ⟨x, -, hx⟩ | ⟨hr, hx⟩
    · exact absurd ((encSym_phase hx).trans (rdSym_frame _).phase) hne
    · exact .inr (.inr (.inl ⟨ht, hp, encEos_phase hx, hr, h.trans hx.symm⟩))
  · have hf := rdPair_frame (recordWidth s) (s.setMoves s.moves.tail)
    have hword := fun code => congrFun (wordAt_congr (congrArg State.wt hf)) code
    have hparams : (rdPair (recordWidth s) (s.setMoves s.moves.tail)).2.params = s.params := hf.params
    have hphase : (rdPair (recordWidth s) (s.setMoves s.moves.tail)).2.phase = s.phase := hf.phase
    rcases hturn with ⟨hr, hx⟩ | ⟨code, x, more, hr, hx⟩
    · exact .inr (.inr (.inr (.inl ⟨ht, hp, decTrunc_phase hx, .inl ⟨hr, h.trans hx.symm⟩⟩)))
    · rw [← hparams] at hx
      rcases recordInstr_phase (rdPair_code_lt _ _ hr) hx (by rw [hphase]; exact hne) with
        ⟨hstop, hdone, hx'⟩ | ⟨hstop, hdead, herror, hx'⟩
      · rw [hparams] at hstop
        subst hstop
        exact .inr (.inr (.inr (.inl ⟨ht, hp, hdone, .inr ⟨x, more, hr, h.trans hx'.symm⟩⟩)))
      · rw [hparams] at hstop
        exact .inr (.inr (.inr (.inr ⟨ht, hp, herror, code, x, more, hr, hstop, (hword code).symm.trans hdead,
          h.trans hx'.symm⟩)))
  · exact absurd rfl hne
  · rw [exec_commandInstr] at hx
    have e : commandEffect v (s.setMoves ms) = t := Host.Outcome.next.inj hx
    subst e
    obtain ⟨hb, hv, hphase⟩ := commandEffect_phase (s := s.setMoves ms) hne
    exact .inl ⟨hb, v, ms, hm, hv, hphase⟩
  · exact absurd rfl hne
  · cases hx; exact absurd rfl hne
  · cases hx; exact .inr (.inl ⟨by rw [hm]; rfl, rfl⟩)
  · exact absurd rfl hne

/-! STATUS (R39). -/

/-- STATUS shows four registers and nothing else. -/
theorem statusReg_of {s : State} {p : Phase} {m : Mode} {b : Bool} {c : BitVec 3} (hp : s.phase = p) (hm : s.mode = m)
    (hb : s.trunc = b) (hc : s.cause = c) :
    statusReg s = statusReg { State.reset with phase := p, mode := m, trunc := b, cause := c } := by
  simp only [statusReg, busy, doneFlag, errFlag, modeBit, hp, hm, hb, hc]

/-- Settles O53: the status invariant of each phase, as STATUS shows it. -/
theorem statusValues : Obligations.StatusValues := by
  intro s h
  have hs := h.status
  unfold StatusInv at hs
  cases hp : s.phase with
  | idle =>
    simp only [hp] at hs
    obtain ⟨hm, hb, hc, -⟩ := hs
    simp [hb, (statusReg_of hp hm hb hc).trans (show _ = 0x00 by decide)]
  | encRun =>
    simp only [hp] at hs
    obtain ⟨hm, hb, hc, -⟩ := hs
    simp [hb, (statusReg_of hp hm hb hc).trans (show _ = 0x01 by decide)]
  | decRun =>
    simp only [hp] at hs
    obtain ⟨hm, hb, hc, -⟩ := hs
    simp [hb, (statusReg_of hp hm hb hc).trans (show _ = 0x11 by decide)]
  | done =>
    simp only [hp] at hs
    obtain ⟨-, ⟨hb, hc⟩ | ⟨hm, hb, hc⟩⟩ := hs
    · cases hm : s.mode with
      | enc => simp [hb, (statusReg_of hp hm hb hc).trans (show _ = 0x02 by decide)]
      | dec => simp [hb, (statusReg_of hp hm hb hc).trans (show _ = 0x12 by decide)]
    · simp [hm, (statusReg_of hp hm hb hc).trans (show _ = 0x7a by decide)]
  | error =>
    simp only [hp] at hs
    obtain ⟨hm, hb, hc⟩ := hs
    simp [hb, hm, (statusReg_of hp hm hb hc).trans (show _ = 0x94 by decide)]

end Sys2Proof.Machine
end

section
/-! Every operation keeps the memories canonical and in range (O52), and the accesses that do not exist stop by name
(O35): an operation behind a test keeps what its effect keeps where the test holds, and stops where it does not. -/

namespace Sys2Proof.Machine

/-! Which accesses exist, as bounds (R47, R60, R73). -/

theorem pairStoreOk_iff (s : State) : pairStoreOk s = true ↔ s.pBits < 8 * s.params.block := decide_eq_true_iff

theorem symStoreOk_iff (s : State) : symStoreOk s = true ↔ s.sLen < s.params.block := decide_eq_true_iff

theorem codeOk_iff (s : State) : codeOk s = true ↔ s.nextCode < s.params.maxCode := decide_eq_true_iff

/-! The memories (O52). -/

section
variable {i : Instr} {s t : State}

/-- The memory invariant does not see the last result. -/
theorem MemoryInv.setResult (h : MemoryInv s) (r : OpResult) : MemoryInv (s.setResult r) :=
  h.congr rfl rfl rfl rfl rfl

/-- An operation behind a test keeps the memories, once it completes, if its effect does where the test holds. -/
theorem memory_of_ite {c : Prop} [Decidable c] {u : State} {f : Fault}
    (h : (if c then .next u else .fault f : Host.Outcome State Fault Refusal) = .next t) (hu : c → MemoryInv u) :
    MemoryInv t := by
  split at h
  · cases h; exact hu ‹c›
  · cases h

/-- A miss that completes found the bit, the node and the code it stores at (R153). -/
theorem runMiss_memory {x : Symbol} (hm : MemoryInv s) (h : runMiss x s = .next t) : MemoryInv t := by
  unfold runMiss at h
  split at h
  · cases h
  · rename_i hbit
    refine memory_of_ite h fun hc => ?_
    obtain ⟨hcur, hcode⟩ := Bool.and_eq_true_iff.1 hc
    exact miss_memory x hm ((pairStoreOk_iff s).1 (by simpa using hbit)) (of_decide_eq_true hcur)
      ((codeOk_iff s).1 hcode)

/-- ENC_SYM keeps the memories by either case (R151). -/
theorem execEncSym_memory {x : Symbol} (hm : MemoryInv s) (h : execEncSym x s = .next t) : MemoryInv t := by
  unfold execEncSym at h
  split at h
  · cases h; exact hm.congr rfl rfl rfl rfl rfl
  · exact runMiss_memory hm h

theorem execEncSymHit_memory {x : Symbol} (hm : MemoryInv s) (h : execEncSymHit x s = .next t) : MemoryInv t := by
  unfold execEncSymHit at h
  split at h
  · cases h; exact hm.congr rfl rfl rfl rfl rfl
  · cases h

theorem execEncSymMiss_memory {x : Symbol} (hm : MemoryInv s) (h : execEncSymMiss x s = .next t) : MemoryInv t := by
  unfold execEncSymMiss at h
  split at h
  · cases h
  · exact runMiss_memory hm h

/-- A pair that completes raised the fault, or found the slot and the byte it stores at (R96, R171). -/
theorem runPair_memory {code : Nat} {x : Symbol} (hp : s.params.wf = true) (hm : MemoryInv s)
    (h : runPair code x s = .next t) : MemoryInv t := by
  unfold runPair at h
  split at h
  · cases h; exact raise_memory .badCode code hp
  · split at h
    · cases h
    · rename_i hcode
      exact memory_of_ite h fun hsym =>
        appendWord_memory _ x hm ((symStoreOk_iff s).1 hsym) ((codeOk_iff s).1 (by simpa using hcode))

theorem runStop_memory (hp : s.params.wf = true) (h : runStop s = .next t) : MemoryInv t :=
  memory_of_ite h fun _ => stop_memory hp

/-- WR_RUN keeps the memories: an empty word stores nothing, any other found its first byte (R123). -/
theorem execWrRun_memory {word : List Symbol} (hm : MemoryInv s) (h : execWrRun word s = .next t) : MemoryInv t := by
  refine memory_of_ite h fun hc => ?_
  rcases Bool.or_eq_true_iff.1 hc with he | hok
  · rw [List.isEmpty_iff.1 he]; exact hm
  · exact wrRun_memory word hm ((symStoreOk_iff s).1 hok)

/-- ADVANCE writes no memory (R192). -/
theorem advance_memory (hm : MemoryInv s) : MemoryInv (advance s).2 := by
  rw [advance_eq]
  split <;> exact hm.congr rfl rfl rfl rfl rfl

/-- Every operation keeps the memories canonical and in range. -/
theorem exec_memory (hp : s.params.wf = true) (hm : MemoryInv s) (h : exec i s = .next t) : MemoryInv t := by
  cases hpair : pairRecord i with
  | some q =>
    obtain ⟨w, code, x⟩ := q
    rw [exec_of_pairRecord hpair] at h
    exact runPair_memory hp hm h
  | none =>
    cases hstop : stopRecord i with
    | some q =>
      obtain ⟨w, x⟩ := q
      rw [exec_of_stopRecord hstop] at h
      exact runStop_memory hp h
    | none =>
      cases i <;> simp only [pairRecord, stopRecord, reduceCtorEq] at hpair hstop
      case encSym x => exact execEncSym_memory hm h
      case encSymHit x => exact execEncSymHit_memory hm h
      case encSymMiss x => exact execEncSymMiss_memory hm h
      case encEos => rw [← eq_of_execEncEos h]; exact endOfInput_memory hp
      case decPair code x => exact runPair_memory hp hm h
      case decStop => exact runStop_memory hp h
      case decTrunc => exact memory_of_ite h fun _ => truncate_memory hp
      case badCode code => cases h; exact raise_memory .badCode code hp
      case raise f v => cases h; exact raise_memory f v hp
      case startEnc r => cases h; exact startRun_memory .enc hp hm
      case startDec r => cases h; exact startRun_memory .dec hp hm
      case runInit => cases h; exact runInit_memory hp hm
      case hwReset => cases h; exact hwReset_memory hp
      case rdBytes buf n => exact memory_of_ite h fun hn => (rdBytes_memory buf n hm hn).setResult _
      case wrBytes buf n => exact memory_of_ite h fun _ => hm.congr rfl rfl rfl rfl rfl
      case rdSym => exact memory_of_ite h fun _ => (rdSym_memory hm).setResult _
      case wrRun word => exact execWrRun_memory hm h
      case getBit => exact memory_of_ite h fun _ => (getBit_memory hm).setResult _
      case putBit b => exact memory_of_ite h fun hok => putBit_memory b hm ((pairStoreOk_iff s).1 hok)
      case rdPair w => exact memory_of_ite h fun _ => (rdPair_memory w hm).setResult _
      case wrPair code x w => exact memory_of_ite h fun hok => wrPair_memory code x w hm ((pairStoreOk_iff s).1 hok)
      case flushPairs => exact memory_of_ite h fun hle => flushPairs_memory hm hle
      case flushSyms => exact memory_of_ite h fun _ => flushSyms_memory hm
      case trieReset => cases h; exact hm.setChild rfl nofun
      case wtReset => cases h; exact wtReset_memory hm
      case advance => exact memory_of_ite h fun _ => (advance_memory hm).setResult _
      case bitlen n => cases h; exact hm.setResult _
      case csrRead n => cases h; exact hm.setResult _
      case ctrlNop m r => cases h; exact hm

end

/-- Settles O52: the effect of each operation keeps the memories where the operation's test holds. -/
theorem memoriesStayCanonical : Obligations.MemoriesStayCanonical := fun _ _ _ hp hm h => exec_memory hp hm h

/-! The accesses that do not exist (O35). -/

section
variable {s : State} {x : Symbol}

/-- ENC_SYM without a link is its miss (R151). -/
theorem exec_encSym_of_none (hc : childAt s s.cur x = none) : exec (.encSym x) s = runMiss x s := by
  show execEncSym x s = _
  rw [execEncSym, hc]

/-- ENC_SYM.MISS meets its precondition (R153). -/
theorem exec_encSymMiss_of_none (hc : childAt s s.cur x = none) : exec (.encSymMiss x) s = runMiss x s := by
  show execEncSymMiss x s = _
  rw [execEncSymMiss, hc]

theorem runMiss_noBit (hb : 8 * s.params.block ≤ s.pBits) : runMiss x s = .fault .pairIndexOutOfRange :=
  if_pos (by simp [pairStoreOk, hb])

theorem runMiss_noCode (hb : s.pBits < 8 * s.params.block)
    (hc : s.params.maxCode ≤ s.cur ∨ s.params.maxCode ≤ s.nextCode) : runMiss x s = .fault .codeOutOfRange := by
  rw [runMiss, if_neg (by simp [pairStoreOk, hb]), if_neg]
  simp only [codeOk, Bool.and_eq_true, decide_eq_true_eq]
  omega

theorem execEncEos_noBit (hb : 8 * s.params.block ≤ s.pBits) : execEncEos s = .fault .pairIndexOutOfRange :=
  if_pos (by simp [pairStoreOk, hb])

theorem execEncEos_noCode (hb : s.pBits < 8 * s.params.block) (hu : s.cur ≠ s.params.emptyCode)
    (hc : s.params.maxCode ≤ s.nextCode) : execEncEos s = .fault .codeOutOfRange := by
  rw [execEncEos, if_neg (by simp [pairStoreOk, hb]), if_neg]
  simp [codeOk, hu, hc]

theorem runPair_noCode {code : Nat} (hw : wordAt s code ≠ none) (hc : s.params.maxCode ≤ s.nextCode) :
    runPair code x s = .fault .codeOutOfRange := by
  obtain ⟨word, hw⟩ := Option.ne_none_iff_exists'.1 hw
  rw [runPair, hw]
  exact if_pos (by simp [codeOk, hc])

theorem runPair_noByte {code : Nat} (hw : wordAt s code ≠ none) (hc : s.nextCode < s.params.maxCode)
    (hl : s.params.block ≤ s.sLen) : runPair code x s = .fault .symIndexOutOfRange := by
  obtain ⟨word, hw⟩ := Option.ne_none_iff_exists'.1 hw
  rw [runPair, hw]
  exact (if_neg (by simp [codeOk, hc])).trans (if_neg (by simp [symStoreOk, hl]))

end

/-- Settles O35: the test in front of each operation fails. -/
theorem outOfRangeStops : Obligations.OutOfRangeStops := by
  intro s x b code w n buf
  refine ⟨fun h => ?_, fun h => if_neg (by omega), fun h => ?_, fun h => if_neg ?_, fun h => if_neg ?_, fun h => ?_,
    fun h => if_neg ?_, fun hc h => ?_, fun hc hb h => ?_, execEncEos_noCode, runPair_noCode, runPair_noByte,
    fun h => if_neg (by omega), fun h => if_neg (by omega)⟩
  · have hok : ¬ pairStoreOk s = true := by rw [pairStoreOk_iff]; omega
    exact ⟨if_neg hok, if_neg hok, execEncEos_noBit h⟩
  · have hok : ¬ pairReadOk s = true := by rw [pairReadOk_iff]; omega
    exact ⟨if_neg hok, if_neg hok⟩
  · rw [symReadOk_iff]; omega
  · simp [symStoreOk, h]
  · exact ⟨if_neg (by omega), if_neg (by omega), if_neg (by omega)⟩
  · rw [codeOk_iff]; omega
  · rw [exec_encSym_of_none hc, exec_encSymMiss_of_none hc]
    exact ⟨runMiss_noBit h, runMiss_noBit h⟩
  · rw [exec_encSym_of_none hc, exec_encSymMiss_of_none hc]
    exact ⟨runMiss_noCode hb h, runMiss_noCode hb h⟩

end Sys2Proof.Machine
end

section
/-! A step only consumes the source's front and only appends to the sink (O47): what an operation moves over the two
ports, said once, kept by sequencing and by whatever leaves the ports alone. -/

namespace Sys2Proof.Machine

/-- From `s` to `t` the pushes `pushed` and the pulls `asked` are made, in order, and nothing else moves over the two
ports; the counters count the bytes (R62, R66, R68, R130). -/
structure Transfer (pushed : List (List Byte)) (asked : List (Nat × Nat)) (s t : State) : Prop where
  params : t.params = s.params
  sink : t.sink = s.sink ++ pushed
  push_size : ∀ b ∈ pushed, 1 ≤ b.length ∧ b.length ≤ s.params.block
  bytesOut : t.bytesOut = s.bytesOut + BitVec.ofNat 64 pushed.flatten.length
  pulls : t.pulls = s.pulls ++ asked
  pull_size : ∀ q ∈ asked, 1 ≤ q.1 ∧ q.1 ≤ s.params.block ∧ q.2 ≤ q.1
  held : (asked.map Prod.snd).sum ≤ s.source.length
  source : t.source = s.source.drop (asked.map Prod.snd).sum
  bytesIn : t.bytesIn = s.bytesIn + BitVec.ofNat 64 (asked.map Prod.snd).sum

/-- From `s` to `t` the streams only move forward. -/
def Forward (s t : State) : Prop := ∃ pushed asked, Transfer pushed asked s t

/-- What a transfer is about. -/
def ports (s : State) : Params × List (List Byte) × Word64 × List (Nat × Nat) × List Byte × Word64 :=
  (s.params, s.sink, s.bytesOut, s.pulls, s.source, s.bytesIn)

/-- What leaves the ports alone moves nothing. -/
theorem Forward.of_ports {s t : State} (h : ports t = ports s) : Forward s t := by
  simp only [ports, Prod.mk.injEq] at h
  obtain ⟨hparams, hsink, hout, hpulls, hsource, hin⟩ := h
  exact ⟨[], [], hparams, by simp [hsink], nofun, by simp [hout], by simp [hpulls], nofun, by simp, by simp [hsource],
    by simp [hin]⟩

theorem Transfer.trans {p p' : List (List Byte)} {a a' : List (Nat × Nat)} {s t u : State} (h : Transfer p a s t)
    (h' : Transfer p' a' t u) : Transfer (p ++ p') (a ++ a') s u where
  params := h'.params.trans h.params
  sink := by rw [h'.sink, h.sink, List.append_assoc]
  push_size b hb := (List.mem_append.1 hb).elim (h.push_size b) (h.params ▸ h'.push_size b)
  bytesOut := by rw [h'.bytesOut, h.bytesOut, BitVec.add_assoc, ← BitVec.ofNat_add, List.flatten_append,
    List.length_append]
  pulls := by rw [h'.pulls, h.pulls, List.append_assoc]
  pull_size q hq := (List.mem_append.1 hq).elim (h.pull_size q) (h.params ▸ h'.pull_size q)
  held := by
    have hlen := h'.held
    rw [h.source, List.length_drop] at hlen
    have := h.held
    rw [List.map_append, List.sum_append]
    omega
  source := by rw [h'.source, h.source, List.drop_drop, List.map_append, List.sum_append]
  bytesIn := by rw [h'.bytesIn, h.bytesIn, BitVec.add_assoc, ← BitVec.ofNat_add, List.map_append, List.sum_append]

theorem Forward.trans {s t u : State} (h : Forward s t) (h' : Forward t u) : Forward s u := by
  obtain ⟨p, a, h⟩ := h
  obtain ⟨p', a', h'⟩ := h'
  exact ⟨_, _, h.trans h'⟩

/-- Writes beside the ports, after a transfer. -/
theorem Forward.beside {s t u : State} (h : Forward s t) (e : ports u = ports t) : Forward s u :=
  h.trans (.of_ports e)

theorem Forward.params {s t : State} (h : Forward s t) : t.params = s.params := by
  obtain ⟨p, a, h⟩ := h
  exact h.params

/-! The output side. -/

/-- WR_BYTES of 1 to BLOCK bytes is one push (R121). -/
theorem wrBytes_forward (buf : Buf) {n : Nat} {s : State} (h1 : 1 ≤ n) (hn : n ≤ s.params.block) :
    Forward s (wrBytes buf n s) := by
  refine ⟨[bufFront s buf n], [], rfl, rfl, ?_, by simp [wrBytes], by simp [wrBytes], nofun, by simp,
    by simp [wrBytes], by simp [wrBytes]⟩
  simp [h1, hn]

section
variable {s : State}

/-- PUT_BIT pushes nothing or one full buffer (R125). -/
theorem putBit_forward (b : Bool) (hb : 1 ≤ s.params.block) : Forward s (putBit b s) := by
  have hstore : Forward s ((s.setPairBuf (s.pairBuf.set s.pBits b)).setPBits (s.pBits + 1)) := .of_ports rfl
  unfold putBit
  simp only
  split
  · exact (hstore.trans (wrBytes_forward .pair hb le_rfl)).beside rfl
  · exact hstore

theorem putBits_forward (bs : List Bool) (hb : 1 ≤ s.params.block) : Forward s (putBits bs s) := by
  induction bs generalizing s with
  | nil => exact .of_ports rfl
  | cons b bs ih =>
    have hbit := putBit_forward b hb
    exact hbit.trans (ih (hbit.params ▸ hb))

theorem wrPair_forward (code : Nat) (x : Symbol) (w : Nat) (hb : 1 ≤ s.params.block) :
    Forward s (wrPair code x w s) := by
  have hcode := putBits_forward (bitsLE w code) hb
  exact hcode.trans (putBits_forward (bitsOfByte x) (hcode.params ▸ hb))

/-- FLUSH_PAIRS pushes nothing or the bytes begun (R128). -/
theorem flushPairs_forward (hp : s.pBits ≤ 8 * s.params.block) : Forward s (flushPairs s) := by
  have hpad : Forward s (s.setPairBuf (s.pairBuf.setFrom s.pBits
      (List.replicate (8 * ((s.pBits + 7) / 8) - s.pBits) false))) := .of_ports rfl
  unfold flushPairs
  simp only
  split
  · exact (hpad.trans (wrBytes_forward .pair ‹_› (by rw [State.setPairBuf_params]; omega))).beside rfl
  · exact .of_ports rfl

/-- A symbol of WR_RUN pushes nothing or one full buffer (R123). -/
theorem wrSym_forward (x : Symbol) (hb : 1 ≤ s.params.block) : Forward s (wrSym x s) := by
  have hstore : Forward s ((s.setSymBuf (s.symBuf.set s.sLen x)).setSLen (s.sLen + 1)) := .of_ports rfl
  unfold wrSym
  simp only
  split
  · exact (hstore.trans (wrBytes_forward .sym hb le_rfl)).beside rfl
  · exact hstore

theorem wrRun_forward (word : List Symbol) (hb : 1 ≤ s.params.block) : Forward s (wrRun word s) := by
  induction word generalizing s with
  | nil => exact .of_ports rfl
  | cons x xs ih =>
    have hsym := wrSym_forward x hb
    exact hsym.trans (ih (hsym.params ▸ hb))

/-- FLUSH_SYMS pushes nothing or the bytes written (R129). -/
theorem flushSyms_forward (hl : s.sLen ≤ s.params.block) : Forward s (flushSyms s) := by
  unfold flushSyms
  split
  · exact (wrBytes_forward .sym ‹_› hl).beside rfl
  · exact .of_ports rfl

/-! The input side. -/

/-- One pull of 1 to BLOCK bytes, whose answer is stored (R66, R120). -/
theorem afterRead_forward (buf : Buf) (got : Nat) (eos : Bool) (cs : List Nat) {n : Nat} (h1 : 1 ≤ n)
    (hn : n ≤ s.params.block) : Forward s (afterRead buf got (pullAnswer n s) eos cs
      (s.pulls ++ [(n, (pullAnswer n s).length)]) s) := by
  obtain ⟨htake, hle⟩ := pullAnswer_spec n s
  have hheld : (pullAnswer n s).length ≤ s.source.length := by
    rw [htake, List.length_take]; exact Nat.min_le_right _ _
  refine ⟨[], [(n, (pullAnswer n s).length)], ?_, ?_, nofun, ?_, by simp [afterRead], by simp [h1, hn, hle],
    by simpa using hheld, by simp [afterRead], by simp [afterRead]⟩
  all_goals cases buf <;> simp [afterRead, storeBytes]

/-- The pulls of RD_BYTES take the front of the source, one after another (R120). -/
theorem rdBytesLoop_forward (fuel : Nat) (buf : Buf) {n : Nat} (got : Nat) (hn : n ≤ s.params.block) :
    Forward s (rdBytesLoop fuel buf n got s).2 := by
  induction fuel generalizing got s with
  | zero => exact .of_ports rfl
  | succ fuel ih =>
    unfold rdBytesLoop
    split
    · have hpull := fun eos => afterRead_forward (s := s) (n := n - got) buf got eos s.cuts.tail (by omega) (by omega)
      simp only
      split
      · rename_i he
        have he := List.isEmpty_iff.1 he
        have hend := hpull true
        rw [he] at hend
        rw [afterPull_empty (buf := buf) (got := got) he]
        exact hend
      · rw [afterPull_stored]
        exact (hpull s.srcEos).trans (ih _ ((hpull s.srcEos).params ▸ hn))
    · exact .of_ports rfl

theorem rdBytes_forward (buf : Buf) {n : Nat} (hn : n ≤ s.params.block) : Forward s (rdBytes buf n s).2 :=
  rdBytesLoop_forward (n + 1) buf 0 hn

theorem refillSyms_forward (s : State) : Forward s (refillSyms s) := by
  have hread : Forward s (rdBytes .sym s.params.block s).2 := rdBytes_forward .sym le_rfl
  unfold refillSyms
  generalize rdBytes .sym s.params.block s = r at hread
  exact hread.beside rfl

theorem rdSym_forward (s : State) : Forward s (rdSym s).2 := by
  have hfill := refillSyms_forward s
  unfold rdSym
  split
  · simp only
    split
    · exact hfill
    · exact hfill.beside rfl
  · exact .of_ports rfl

theorem refillPairs_forward (s : State) : Forward s (refillPairs s) := by
  have hread : Forward s (rdBytes .pair s.params.block s).2 := rdBytes_forward .pair le_rfl
  unfold refillPairs
  generalize rdBytes .pair s.params.block s = r at hread
  exact hread.beside rfl

theorem getBit_forward (s : State) : Forward s (getBit s).2 := by
  have hfill := refillPairs_forward s
  unfold getBit
  split
  · simp only
    split
    · exact hfill
    · exact hfill.beside rfl
  · exact .of_ports rfl

theorem readBits_forward (n : Nat) (s : State) : Forward s (readBits n s).2 := by
  induction n generalizing s with
  | zero => exact .of_ports rfl
  | succ n ih =>
    rw [readBits_succ]
    cases (getBit s).1 with
    | none => exact getBit_forward s
    | some b => exact (getBit_forward s).trans (ih _)

theorem rdPair_forward (w : Nat) (s : State) : Forward s (rdPair w s).2 := by
  rw [rdPair_eq]
  cases (readBits w s).1 with
  | none => exact readBits_forward w s
  | some code => exact (readBits_forward w s).trans (readBits_forward 8 _)

/-! The engine's operations. -/

/-- The end of a run moves nothing of its own (R46). -/
theorem Forward.endRun {u : State} (h : Forward s u) (p : Phase) : Forward s (endRun p u) := h.beside rfl

/-- ENC_SYM moves nothing, or packs one pair (R152, R153). -/
theorem symbolEffect_forward (x : Symbol) (hb : 1 ≤ s.params.block) : Forward s (symbolEffect x s) := by
  have hpair := wrPair_forward s.cur x (recordWidth s) hb
  unfold symbolEffect
  cases childAt s s.cur x with
  | some c => exact .of_ports rfl
  | none =>
    rw [Option.elim_none, miss_eq]
    generalize wrPair s.cur x (recordWidth s) s = u at hpair
    split <;> exact hpair.beside rfl

theorem finalFlush_forward (hb : 1 ≤ s.params.block) : Forward s (finalFlush s) := by
  have hpair := wrPair_forward s.prev s.lastSym (recordWidth s) hb
  rw [finalFlush_eq]
  generalize wrPair s.prev s.lastSym (recordWidth s) s = u at hpair
  split
  · exact .of_ports rfl
  · split <;> exact hpair.beside rfl

/-- The STOP pair and the flush after it (R155, R157). -/
theorem stopPair_forward (hp : s.pBits < 8 * s.params.block) (w : Nat) :
    Forward s (flushPairs (wrPair s.params.stopCode 0 w s)) := by
  have hpair := wrPair_forward s.params.stopCode 0 w (s := s) (by omega)
  have hroom := (wrPair_spec s.params.stopCode 0 w s hp).2
  exact hpair.trans (flushPairs_forward (by rw [hpair.params]; exact hroom.le))

/-- ENC_EOS: the final-flush pair, the STOP pair and the flush (R155). -/
theorem endOfInput_forward (hp : s.pBits < 8 * s.params.block) : Forward s (endOfInput s) := by
  have hflush : Forward s (finalFlush s) := finalFlush_forward (by omega)
  obtain ⟨hparams, hbits⟩ := finalFlush_bounds hp
  rw [← hparams] at hbits
  exact (hflush.trans (stopPair_forward hbits _)).endRun .done

/-- DEC_PAIR writes its word (R171). -/
theorem appendWord_forward (word : List Symbol) (x : Symbol) (hb : 1 ≤ s.params.block) :
    Forward s (appendWord word x s) := by
  have hslot : Forward s (s.setWt (s.wt.set s.nextCode (word ++ [x]))) := .of_ports rfl
  have hrun := hslot.trans (wrRun_forward (word ++ [x]) hb)
  rw [appendWord_eq]
  generalize wrRun (word ++ [x]) (s.setWt (s.wt.set s.nextCode (word ++ [x]))) = u at hrun
  split <;> exact hrun.beside rfl

/-- DEC_STOP writes the bytes pending (R172). -/
theorem stop_forward (hl : s.sLen ≤ s.params.block) : Forward s (stop s) := (flushSyms_forward hl).endRun .done

/-- The fault discards what is buffered and moves nothing (R236). -/
theorem raise_forward (f : FatalFault) (v : Nat) (s : State) : Forward s (raise f v s) := .of_ports rfl

/-- A record is one of the three (R96). -/
theorem recordEffect_forward (code : Nat) (x : Symbol) (hb : 1 ≤ s.params.block) (hl : s.sLen ≤ s.params.block) :
    Forward s (recordEffect code x s) := by
  unfold recordEffect
  split
  · exact stop_forward hl
  · cases wordAt s code with
    | none => exact raise_forward .badCode code s
    | some word => exact appendWord_forward word x hb

theorem truncate_forward (hl : s.sLen ≤ s.params.block) : Forward s (truncate s) := by
  have hreport : Forward s (s.setReport true causeTruncated 0) := .of_ports rfl
  exact (hreport.trans (flushSyms_forward hl)).endRun .done

/-- The engine's turn moves the streams forward. -/
theorem engineEffect_forward (h : Inv s) : Forward s (engineEffect s) := by
  unfold engineEffect
  split
  · rename_i hp
    have hu := h.rdSym hp
    obtain ⟨-, -, -, hb, -⟩ := Params.codes hu.params
    refine (rdSym_forward s).trans ?_
    unfold encoderEffect
    cases (rdSym s).1 with
    | none => exact endOfInput_forward (hu.bounds.enc_bits ((rdSym_frame s).phase.trans hp))
    | some x => exact symbolEffect_forward x hb
  · rename_i hp
    have hu := h.rdPair hp (recordWidth s)
    obtain ⟨-, -, -, hb, -⟩ := Params.codes hu.params
    refine (rdPair_forward (recordWidth s) s).trans ?_
    unfold decoderEffect
    cases (rdPair (recordWidth s) s).1 with
    | none => exact truncate_forward hu.widths.sLen
    | some q => exact recordEffect_forward q.1 q.2.1 hb hu.widths.sLen
  all_goals exact .of_ports rfl

end

/-! The host's moves. -/

/-- A write of CTRL leaves the parameters and both streams where they are (R211, R263). -/
theorem commandEffect_streams (v : Word64) (s : State) :
    (commandEffect v s).params = s.params ∧ (commandEffect v s).sink = s.sink ∧
      (commandEffect v s).pulls = s.pulls ∧ (commandEffect v s).source = s.source := by
  unfold commandEffect
  split
  · rw [startRun_eq]
    split <;> exact ⟨rfl, rfl, rfl, rfl⟩
  · exact ⟨rfl, rfl, rfl, rfl⟩

/-- A move of the host pushes and pulls nothing, and only a connection gives another source (R216, R263). -/
theorem moveEffect_streams {m : HostMove} (hm : m ≠ .wait) (s : State) :
    (moveEffect m s).params = s.params ∧ (moveEffect m s).sink = s.sink ∧ (moveEffect m s).pulls = s.pulls ∧
      ((∀ src cs, m ≠ .connect src cs) → (moveEffect m s).source = s.source) := by
  cases m with
  | wait => exact absurd rfl hm
  | regWrite n v =>
    obtain ⟨hparams, hsink, hpulls, hsource⟩ := commandEffect_streams v s
    rw [moveEffect]
    split
    · exact ⟨hparams, hsink, hpulls, fun _ => hsource⟩
    · exact ⟨rfl, rfl, rfl, fun _ => rfl⟩
  | regRead n => exact ⟨rfl, rfl, rfl, fun _ => rfl⟩
  | rst => exact ⟨rfl, rfl, rfl, fun _ => rfl⟩
  | connect src cs => exact ⟨rfl, rfl, rfl, fun hc => absurd rfl (hc src cs)⟩

/-- Outside the engine's turn the step is the host's move. -/
theorem exists_move_of_not_engineTurn {s : State} (ht : ¬ EngineTurn s) :
    ∃ m ms, s.moves = m :: ms ∧ m ≠ .wait ∧ stepEffect s = moveEffect m (s.setMoves ms) := by
  unfold stepEffect
  cases hm : s.moves with
  | nil => exact absurd (.inl hm) ht
  | cons m ms =>
    refine ⟨m, ms, rfl, ?_, rfl⟩
    rintro rfl
    exact ht (.inr (by rw [hm]; rfl))

/-- Settles O47: the engine's turn moves the streams forward, a move of the host moves nothing. -/
theorem streamsMoveForward : Obligations.StreamsMoveForward := by
  intro s t h hst
  by_cases ht : EngineTurn s
  · rw [step_of_engineTurn h ht] at hst
    cases hst
    obtain ⟨pushed, asked, f⟩ := engineEffect_forward (h.setMoves s.moves.tail)
    exact ⟨pushed, asked, f.sink, f.push_size, f.pulls, f.pull_size, f.params, fun _ => ⟨f.held, f.source⟩,
      fun _ => ⟨f.bytesIn, f.bytesOut⟩, fun hn => absurd ht hn⟩
  · rw [step_of_inv h] at hst
    cases hst
    obtain ⟨m, ms, hm, hw, e⟩ := exists_move_of_not_engineTurn ht
    obtain ⟨hparams, hsink, hpulls, hsource⟩ := moveEffect_streams hw (s.setMoves ms)
    rw [e]
    refine ⟨[], [], by simp [hsink], nofun, by simp [hpulls], nofun, hparams, fun hc => ⟨by simp, ?_⟩,
      fun he => absurd he ht, fun _ => ⟨rfl, rfl⟩⟩
    exact hsource fun src cs hc' => hc src cs (by rw [hm, hc']; rfl)

end Sys2Proof.Machine
end

section
/-! Encoding and decoding (30_encoding.md): what the encoder gives is what the decoder reads, both ways (O1, O2), the
fields of a record (O4), the selection of a write of CTRL (O5), and words written out (O3). Bits are turned into the
integer form of R92 once; each format is then an arithmetic fact about that integer. -/

namespace Sys2Proof.Machine

/-! Bits and the integer form (R92). -/

/-- Bits are the field of their value, then the rest. -/
theorem bitsLE_natOfBits_take_append_drop {n : Nat} {bits : List Bool} (h : n ≤ bits.length) :
    bitsLE n (natOfBits (bits.take n)) ++ bits.drop n = bits := by
  have e := bitsLE_natOfBits (bits.take n)
  rw [List.length_take_of_le h] at e
  rw [e, List.take_append_drop]

/-- The bits of a record's integer form are its code field, then its symbol field (R92, R93). -/
theorem bitsLE_record (w r : Nat) :
    bitsLE (w + 8) r = bitsLE w (r % 2 ^ w) ++ bitsOfByte (BitVec.ofNat 8 (r / 2 ^ w)) := by
  rw [bitsLE_append, bitsLE_mod, bitsOfByte, BitVec.toNat_ofNat, bitsLE_mod]

/-- A record's integer form is its code, and its symbol above it (R92). -/
theorem code_add_sym {w r : Nat} (h : r < 2 ^ (w + 8)) :
    r % 2 ^ w + (BitVec.ofNat 8 (r / 2 ^ w)).toNat * 2 ^ w = r := by
  have hx : r / 2 ^ w < 2 ^ 8 := Nat.div_lt_of_lt_mul (by rwa [← pow_add])
  rw [BitVec.toNat_ofNat, Nat.mod_eq_of_lt hx, Nat.mul_comm]
  exact Nat.mod_add_div r (2 ^ w)

/-- A code that fits its field and a symbol fit the record. -/
theorem code_add_sym_lt {w code : Nat} (x : Symbol) (hc : code < 2 ^ w) : code + x.toNat * 2 ^ w < 2 ^ (w + 8) := by
  have hx : x.toNat + 1 ≤ 2 ^ 8 := x.isLt
  calc code + x.toNat * 2 ^ w < 2 ^ w + x.toNat * 2 ^ w := by omega
    _ = (x.toNat + 1) * 2 ^ w := by ring
    _ ≤ 2 ^ 8 * 2 ^ w := Nat.mul_le_mul_right _ hx
    _ = 2 ^ (w + 8) := by rw [pow_add, Nat.mul_comm]

/-- Decoding the bits of an integer form, whatever follows them, decodes the integer. -/
theorem decode_bitsLE_append {p : Params} {f : Format} {r : Nat} {i : Instr} (hr : r < 2 ^ f.length)
    (h : decodeValue p f r = .ok i) (rest : List Bool) : decode p f (bitsLE f.length r ++ rest) = .ok (i, rest) := by
  have hl : (bitsLE f.length r).length = f.length := length_bitsLE _ _
  refine decode_eq_ok_iff.2 ⟨by simp, ?_, List.drop_left' hl⟩
  rw [List.take_left' hl, natOfBits_bitsLE, Nat.mod_eq_of_lt hr, h]

/-- The integer form of a record selects by its two fields (R92, R96). -/
theorem decodeValue_record {p : Params} {w code : Nat} (x : Symbol) (hw : recordWidthOk p w = true)
    (hc : code < 2 ^ w) : decodeValue p (.record w) (code + x.toNat * 2 ^ w) = .ok (recordInstr p w code x) := by
  simp only [decodeValue, if_pos hw]
  rw [Nat.add_mul_mod_self_right, Nat.mod_eq_of_lt hc, Nat.add_mul_div_right _ _ (Nat.two_pow_pos w),
    Nat.div_eq_of_lt hc, Nat.zero_add, BitVec.ofNat_toNat, BitVec.setWidth_eq]

theorem decodeValue_symbol (p : Params) (x : Symbol) : decodeValue p .symbol x.toNat = .ok (symbolInstr x) := by
  rw [decodeValue, BitVec.ofNat_toNat, BitVec.setWidth_eq]

theorem decodeValue_command (p : Params) (v : Word64) : decodeValue p .command v.toNat = .ok (commandInstr v) := by
  rw [decodeValue, BitVec.ofNat_toNat, BitVec.setWidth_eq]

/-- An integer decodes as a record only at a width that occurs on the machine (R194). -/
theorem of_decodeValue_record {p : Params} {w r : Nat} {i : Instr} (h : decodeValue p (.record w) r = .ok i) :
    recordWidthOk p w = true ∧ i = recordInstr p w (r % 2 ^ w) (BitVec.ofNat 8 (r / 2 ^ w)) := by
  simp only [decodeValue] at h
  split at h
  · exact ⟨‹_›, (Except.ok.inj h).symm⟩
  · cases h

/-! Records (R91, R96). -/

/-- A record of the machine has at least 2 bits of code, room for STOP_CODE, and none for a code from MAX_CODE on
(R97, R194). -/
theorem recordWidthOk_spec {p : Params} (hp : p.wf = true) {w : Nat} (hw : recordWidthOk p w = true) :
    2 ≤ w ∧ p.stopCode < 2 ^ w ∧ 2 ^ w ≤ p.maxCode := by
  obtain ⟨-, hstop, -, -, -, hmax, -⟩ := Params.codes hp
  obtain ⟨-, -, hstart, -, -, -⟩ := (Params.wf_iff p).1 hp
  obtain ⟨hlow, hhigh⟩ : p.minWidth ≤ w ∧ w ≤ p.codeBits := by simpa [recordWidthOk] using hw
  have hfit : p.startCode < 2 ^ w := (Nat.log2_lt (by omega)).1 hlow
  refine ⟨?_, by omega, hmax ▸ Nat.pow_le_pow_right two_pos hhigh⟩
  by_contra h2
  have := Nat.pow_le_pow_right two_pos (show w ≤ 1 by omega)
  omega

/-- A PAIR record's encoding and operand check, by its fields (R91, R96). -/
theorem pairRecord_spec {i : Instr} {w code : Nat} {x : Symbol} (h : pairRecord i = some (w, code, x))
    (p : Params) : encode p i = some (.record w, code + x.toNat * 2 ^ w) ∧
      i.wellFormed p = (recordWidthOk p w && code != p.stopCode) := by
  cases i <;> simp only [pairRecord, reduceCtorEq, Option.some.injEq, Prod.mk.injEq] at h <;>
    (obtain ⟨rfl, rfl, rfl⟩ := h; exact ⟨rfl, rfl⟩)

/-- A STOP record's encoding and operand check, by its symbol (R91, R94). -/
theorem stopRecord_spec {i : Instr} {w : Nat} {x : Symbol} (h : stopRecord i = some (w, x)) (p : Params) :
    encode p i = some (.record w, p.stopCode + x.toNat * 2 ^ w) ∧ i.wellFormed p = recordWidthOk p w := by
  cases i <;> simp only [stopRecord, reduceCtorEq, Option.some.injEq, Prod.mk.injEq] at h <;>
    (obtain ⟨rfl, rfl⟩ := h; exact ⟨rfl, rfl⟩)

/-- A PAIR record's fields select it (R96). -/
theorem recordInstr_of_pairRecord {i : Instr} {w code : Nat} {x : Symbol} (h : pairRecord i = some (w, code, x))
    {p : Params} (hs : code ≠ p.stopCode) : code < 2 ^ w ∧ recordInstr p w code x = i.asDecoded := by
  cases i <;> simp only [pairRecord, reduceCtorEq, Option.some.injEq, Prod.mk.injEq] at h <;>
    (obtain ⟨rfl, rfl, rfl⟩ := h
     refine ⟨BitVec.isLt _, ?_⟩
     simp only [recordInstr, if_neg hs, BitVec.ofNat_toNat, BitVec.setWidth_eq, Instr.asDecoded])

/-- `STOP_CODE` and a STOP record's symbol select it (R96). -/
theorem recordInstr_of_stopRecord {i : Instr} {w : Nat} {x : Symbol} (h : stopRecord i = some (w, x)) (p : Params) :
    recordInstr p w p.stopCode x = i.asDecoded := by
  cases i <;> simp only [stopRecord, reduceCtorEq, Option.some.injEq, Prod.mk.injEq] at h <;>
    (obtain ⟨rfl, rfl⟩ := h; simp only [recordInstr, if_true, Instr.asDecoded])

/-- A record of one of the table's widths is encoded by the fields that select it (R91). -/
theorem encode_recordInstr (p : Params) {w code : Nat} (x : Symbol) (h2 : 2 ≤ w) (h16 : w ≤ 16) (hc : code < 2 ^ w) :
    encode p (recordInstr p w code x) = some (.record w, code + x.toNat * 2 ^ w) := by
  have hi := recordInstr_spec p x h2 h16 hc
  split at hi
  · rename_i hs
    rw [(stopRecord_spec hi.1 p).1, hs]
  · exact (pairRecord_spec hi.1 p).1

/-- Whatever a record of the machine selects is well-formed (R16, R96, R194). -/
theorem wellFormed_recordInstr {p : Params} (hp : p.wf = true) {w code : Nat} (x : Symbol)
    (hw : recordWidthOk p w = true) (hc : code < 2 ^ w) : (recordInstr p w code x).wellFormed p = true := by
  obtain ⟨h2, -, hmax⟩ := recordWidthOk_spec hp hw
  by_cases h16 : w ≤ 16
  · have hi := recordInstr_spec p x h2 h16 hc
    split at hi
    · rw [(stopRecord_spec hi.1 p).2, hw]
    · rename_i hs
      simp [(pairRecord_spec hi.1 p).2, hw, hs]
  · rw [recordInstr_other p code x (.inr (by omega))]
    split
    · rfl
    · rename_i hs
      simp only [Instr.wellFormed, Bool.and_eq_true, bne_iff_ne, ne_eq, decide_eq_true_eq]
      exact ⟨hs, hc.trans_le hmax⟩

/-! Writes of CTRL (R103). -/

theorem commandInstr_of_enc {v : Word64} (h0 : v.getLsbD 0 = true) (h1 : v.getLsbD 1 = false) :
    commandInstr v = .startEnc (v.extractLsb' 2 62) := by
  simp only [commandInstr, h0, h1, if_true, Bool.false_eq_true, if_false]

theorem commandInstr_of_dec {v : Word64} (h0 : v.getLsbD 0 = true) (h1 : v.getLsbD 1 = true) :
    commandInstr v = .startDec (v.extractLsb' 2 62) := by
  simp only [commandInstr, h0, h1, if_true]

theorem commandInstr_of_noStart {v : Word64} (h0 : v.getLsbD 0 = false) :
    commandInstr v = .ctrlNop (v.extractLsb' 1 1) (v.extractLsb' 2 62) := by
  simp only [commandInstr, h0, Bool.false_eq_true, if_false]

/-- A value of CTRL is its START bit, its MODE bit and its reserved bits (R103). -/
theorem ctrl_toNat_eq_fields (v : Word64) :
    v.toNat = (v.getLsbD 0).toNat + (v.getLsbD 1).toNat * 2 + (v.extractLsb' 2 62).toNat * 4 := by
  have hv := v.isLt
  have h0 : (v.getLsbD 0).toNat = v.toNat % 2 := by
    rw [← BitVec.testBit_toNat, Nat.toNat_testBit, pow_zero, Nat.div_one]
  have h1 : (v.getLsbD 1).toNat = v.toNat / 2 % 2 := by
    rw [← BitVec.testBit_toNat, Nat.toNat_testBit, pow_one]
  have h2 : (v.extractLsb' 2 62).toNat = v.toNat / 4 % 2 ^ 62 := by
    rw [BitVec.extractLsb'_toNat, Nat.shiftRight_eq_div_pow]
  omega

/-- The field of the MODE bit, as CTRL writes without START carry it. -/
theorem ctrl_toNat_mode (v : Word64) : (v.extractLsb' 1 1).toNat = (v.getLsbD 1).toNat := by
  rw [← BitVec.testBit_toNat, Nat.toNat_testBit, BitVec.extractLsb'_toNat, Nat.shiftRight_eq_div_pow, pow_one]

theorem eq_of_toNat_eq_toNat : ∀ {a b : Bool}, a.toNat = b.toNat → a = b := by decide

/-- The fields of a value of CTRL are determined by it. -/
theorem ctrl_fields_unique {v : Word64} {start mode : Bool} {reserved : BitVec 62}
    (h : v.toNat = start.toNat + mode.toNat * 2 + reserved.toNat * 4) :
    v.getLsbD 0 = start ∧ v.getLsbD 1 = mode ∧ v.extractLsb' 2 62 = reserved := by
  have e := ctrl_toNat_eq_fields v
  have h0 := Bool.toNat_le (v.getLsbD 0)
  have h1 := Bool.toNat_le (v.getLsbD 1)
  have h0' := Bool.toNat_le start
  have h1' := Bool.toNat_le mode
  refine ⟨?_, ?_, BitVec.eq_of_toNat_eq (by omega)⟩
  · exact eq_of_toNat_eq_toNat (by omega)
  · exact eq_of_toNat_eq_toNat (by omega)

/-- The operation a value of CTRL selects is encoded by that value (R103). -/
theorem encode_commandInstr (p : Params) (v : Word64) : encode p (commandInstr v) = some (.command, v.toNat) := by
  have e := ctrl_toNat_eq_fields v
  cases h0 : v.getLsbD 0 with
  | false =>
    rw [h0, ← ctrl_toNat_mode, Bool.toNat_false, Nat.zero_add] at e
    rw [commandInstr_of_noStart h0, encode, e]
  | true =>
    cases h1 : v.getLsbD 1 with
    | false =>
      rw [h0, h1, Bool.toNat_true, Bool.toNat_false, Nat.zero_mul] at e
      rw [commandInstr_of_enc h0 h1, encode, e]
    | true =>
      rw [h0, h1, Bool.toNat_true] at e
      rw [commandInstr_of_dec h0 h1, encode, e]

/-- Any fields are those of a value of CTRL. -/
theorem exists_ctrl_of_fields (start mode : Bool) (reserved : BitVec 62) :
    ∃ v : Word64, v.toNat = start.toNat + mode.toNat * 2 + reserved.toNat * 4 := by
  have h0 := Bool.toNat_le start
  have h1 := Bool.toNat_le mode
  have h2 := reserved.isLt
  exact ⟨BitVec.ofNat 64 (start.toNat + mode.toNat * 2 + reserved.toNat * 4),
    by rw [BitVec.toNat_ofNat, Nat.mod_eq_of_lt (by omega)]⟩

theorem exists_startEnc (reserved : BitVec 62) : ∃ v, commandInstr v = .startEnc reserved := by
  obtain ⟨v, hv⟩ := exists_ctrl_of_fields true false reserved
  obtain ⟨h0, h1, h2⟩ := ctrl_fields_unique hv
  exact ⟨v, by rw [commandInstr_of_enc h0 h1, h2]⟩

theorem exists_startDec (reserved : BitVec 62) : ∃ v, commandInstr v = .startDec reserved := by
  obtain ⟨v, hv⟩ := exists_ctrl_of_fields true true reserved
  obtain ⟨h0, h1, h2⟩ := ctrl_fields_unique hv
  exact ⟨v, by rw [commandInstr_of_dec h0 h1, h2]⟩

theorem exists_ctrlNop (mode : BitVec 1) (reserved : BitVec 62) : ∃ v, commandInstr v = .ctrlNop mode reserved := by
  obtain ⟨v, hv⟩ := exists_ctrl_of_fields false (mode.getLsbD 0) reserved
  obtain ⟨h0, h1, h2⟩ := ctrl_fields_unique hv
  refine ⟨v, ?_⟩
  have hm : v.extractLsb' 1 1 = mode := by
    apply BitVec.eq_of_toNat_eq
    have := mode.isLt
    rw [ctrl_toNat_mode, h1, ← BitVec.testBit_toNat, Nat.toNat_testBit, pow_zero, Nat.div_one]
    omega
  rw [commandInstr_of_noStart h0, h2, hm]

/-! Encoding and decoding. -/

/-- The operations that have an encoding: records, the symbol's, and writes of CTRL (R90). -/
theorem encode_cases {p : Params} {i : Instr} {f : Format} {r : Nat} (h : encode p i = some (f, r)) :
    (∃ w code x, pairRecord i = some (w, code, x)) ∨ (∃ w x, stopRecord i = some (w, x)) ∨
      (∃ x : Symbol, i.asDecoded = symbolInstr x ∧ f = .symbol ∧ r = x.toNat) ∨ ∃ v, i = commandInstr v := by
  cases i with
  | pairW2 | pairW3 | pairW4 | pairW5 | pairW6 | pairW7 | pairW8 | pairW9 | pairW10 | pairW11 | pairW12 | pairW13
  | pairW14 | pairW15 | pairW16 => exact .inl ⟨_, _, _, rfl⟩
  | stopW2 | stopW3 | stopW4 | stopW5 | stopW6 | stopW7 | stopW8 | stopW9 | stopW10 | stopW11 | stopW12 | stopW13
  | stopW14 | stopW15 | stopW16 => exact .inr (.inl ⟨_, _, rfl⟩)
  | encSym x | encSymHit x | encSymMiss x =>
    cases h
    exact .inr (.inr (.inl ⟨x, rfl, rfl, rfl⟩))
  | startEnc reserved => exact .inr (.inr (.inr ((exists_startEnc reserved).imp fun _ => Eq.symm)))
  | startDec reserved => exact .inr (.inr (.inr ((exists_startDec reserved).imp fun _ => Eq.symm)))
  | ctrlNop mode reserved => exact .inr (.inr (.inr ((exists_ctrlNop mode reserved).imp fun _ => Eq.symm)))
  | _ => cases h

/-- The operation of a write of CTRL is its own decoding, and has no operand to check. -/
theorem commandInstr_plain (p : Params) (v : Word64) :
    (commandInstr v).asDecoded = commandInstr v ∧ (commandInstr v).wellFormed p = true := by
  unfold commandInstr
  split
  · split <;> exact ⟨rfl, rfl⟩
  · exact ⟨rfl, rfl⟩

/-- The integer form of a well-formed operation fits its format and decodes to the operation (R92, R101, R103). -/
theorem decodeValue_of_encode {p : Params} {i : Instr} {f : Format} {r : Nat} (hp : p.wf = true)
    (hi : i.wellFormed p = true) (h : encode p i = some (f, r)) :
    r < 2 ^ f.length ∧ decodeValue p f r = .ok i.asDecoded := by
  rcases encode_cases h with ⟨w, code, x, hr⟩ | ⟨w, x, hr⟩ | ⟨x, hx, rfl, rfl⟩ | ⟨v, rfl⟩
  · obtain ⟨he, hwf⟩ := pairRecord_spec hr p
    obtain ⟨hw, hs⟩ : recordWidthOk p w = true ∧ code ≠ p.stopCode := by simpa [hwf] using hi
    obtain ⟨hc, hsel⟩ := recordInstr_of_pairRecord hr hs
    cases he.symm.trans h
    exact ⟨code_add_sym_lt x hc, hsel ▸ decodeValue_record x hw hc⟩
  · obtain ⟨he, hwf⟩ := stopRecord_spec hr p
    have hw : recordWidthOk p w = true := hwf.symm.trans hi
    obtain ⟨-, hc, -⟩ := recordWidthOk_spec hp hw
    cases he.symm.trans h
    exact ⟨code_add_sym_lt x hc, recordInstr_of_stopRecord hr p ▸ decodeValue_record x hw hc⟩
  · exact ⟨x.isLt, hx ▸ decodeValue_symbol p x⟩
  · cases (encode_commandInstr p v).symm.trans h
    exact ⟨v.isLt, (commandInstr_plain p v).1.symm ▸ decodeValue_command p v⟩

/-- Settles O1: the integer form decodes to the operation, and its bits to the integer. -/
theorem decodeOfEncode : Obligations.DecodeOfEncode := by
  intro p i f r rest hp hi h
  obtain ⟨hr, hv⟩ := decodeValue_of_encode hp hi h
  exact decode_bitsLE_append hr hv rest

/-- Settles O2: the bits are those of their value; a record of the table's widths is encoded by its fields, a wider one
has the fields alone, and every value of the other two formats is the encoding of what it selects. -/
theorem encodeOfDecode : Obligations.EncodeOfDecode := by
  intro p f bits i rest hp h
  obtain ⟨hl, hv, rfl⟩ := decode_eq_ok_iff.1 h
  have hbits := bitsLE_natOfBits_take_append_drop hl
  have hr : natOfBits (bits.take f.length) < 2 ^ f.length := by
    simpa only [List.length_take_of_le hl] using natOfBits_lt (bits.take f.length)
  generalize natOfBits (bits.take f.length) = r at hv hbits hr
  cases f with
  | record w =>
    obtain ⟨hw, rfl⟩ := of_decodeValue_record hv
    have hc : r % 2 ^ w < 2 ^ w := Nat.mod_lt _ (Nat.two_pow_pos w)
    refine ⟨wellFormed_recordInstr hp _ hw hc, ?_⟩
    by_cases h16 : w ≤ 16
    · refine .inl ⟨r, ?_, hbits.symm⟩
      rw [encode_recordInstr p _ (recordWidthOk_spec hp hw).1 h16 hc, code_add_sym hr]
    · refine .inr ⟨w, _, _, rfl, by omega, hc, ?_, recordInstr_other p _ _ (.inr (by omega))⟩
      rw [← bitsLE_record]
      exact hbits.symm
  | symbol =>
    cases hv
    refine ⟨rfl, .inl ⟨r, ?_, hbits.symm⟩⟩
    rw [symbolInstr, encode, BitVec.toNat_ofNat, show r % 2 ^ 8 = r from Nat.mod_eq_of_lt hr]
  | command =>
    cases hv
    refine ⟨(commandInstr_plain p _).2, .inl ⟨r, ?_, hbits.symm⟩⟩
    rw [encode_commandInstr, BitVec.toNat_ofNat, show r % 2 ^ 64 = r from Nat.mod_eq_of_lt hr]

/-- Where a record of the machine's widths is there, its two fields are read and select its operation (R93, R96). -/
theorem decode_record {p : Params} {w : Nat} {bits : List Bool} (hw : recordWidthOk p w = true)
    (hl : w + 8 ≤ bits.length) : decode p (.record w) bits =
      .ok (recordInstr p w (natOfBits (bits.take w)) (byteOfBits ((bits.drop w).take 8)), bits.drop (w + 8)) := by
  have h := (decode_eq_ok_iff (f := .record w)).2 ⟨hl, if_pos hw, rfl⟩
  obtain ⟨-, -, e⟩ := of_decode_record h
  rw [h, e]
  rfl

/-- Settles O4: the two fields are read in order; what they select is said by width. -/
theorem recordFields : Obligations.RecordFields := by
  intro p w bits hp hw hl
  have hc : natOfBits (bits.take w) < 2 ^ w := by
    simpa only [List.length_take_of_le (show w ≤ bits.length by omega)] using natOfBits_lt (bits.take w)
  exact ⟨_, _, _, decode_record hw hl, rfl, rfl,
    fun h16 => recordInstr_spec p _ (recordWidthOk_spec hp hw).1 h16 hc,
    fun h16 => recordInstr_other p _ _ (.inr h16)⟩

/-- Settles O5: a value selects by its two low bits, and the meanings ignore the reserved ones. -/
theorem ctrlWriteSelects : Obligations.CtrlWriteSelects := by
  refine ⟨fun v => ⟨commandInstr v, fun p rest => ?_, fun h0 h1 => ⟨_, commandInstr_of_enc h0 h1⟩,
    fun h0 h1 => ⟨_, commandInstr_of_dec h0 h1⟩, fun h0 => ⟨_, _, commandInstr_of_noStart h0⟩⟩,
    fun _ _ _ => ⟨rfl, rfl⟩, fun _ _ _ => rfl⟩
  exact decode_bitsLE_append v.isLt (decodeValue_command p v) rest

/-- Settles O3: the closed words are run. -/
theorem writtenWordsDecode : Obligations.WrittenWordsDecode := ⟨rfl, rfl, rfl, rfl, rfl, rfl, rfl⟩

end Sys2Proof.Machine
end

section
/-! The codes the encoder emits (O28) and the decoder's selection (O43). -/

namespace Sys2Proof.Machine

/-- A live code is below the code counter, wherever that is in its range (R19). -/
theorem Live.lt_nextCode {s : State} {c : Nat} (hc : Live s c) (hp : s.params.wf = true)
    (hlow : s.params.startCode ≤ s.nextCode) : c < s.nextCode := by
  obtain ⟨hempty, -⟩ := Params.codes hp
  rcases hc with rfl | ⟨-, hc⟩
  · exact hempty.trans_le hlow
  · exact hc

/-- The code counter after ADVANCE is a code from the first entry's on (R192). -/
theorem startCode_le_countUp {s : State} (hlow : s.params.startCode ≤ s.nextCode) :
    s.params.startCode ≤ countUp s := by
  unfold countUp
  split
  · exact le_rfl
  · exact Nat.le_succ_of_le hlow

/-- STOP_CODE fits the field of every counter from the first entry's code on (R99). -/
theorem stopCode_lt_two_pow_bitlen {p : Params} (hp : p.wf = true) {n : Nat} (hn : p.startCode ≤ n) :
    p.stopCode < 2 ^ bitlen n := by
  obtain ⟨-, hstop, -⟩ := Params.codes hp
  exact (hstop.trans_le hn).trans (lt_two_pow_bitlen (by omega))

/-- Settles O28: the codes emitted are live, so below `next_code`, which its own field holds. -/
theorem emittedCodesFit : Obligations.EmittedCodesFit := by
  intro s h hp
  obtain ⟨hlow, -⟩ := h.code_range (busy_of_encRun hp)
  obtain ⟨hempty, -⟩ := Params.codes h.params
  have hwidth : s.nextCode < 2 ^ recordWidth s := lt_two_pow_bitlen (by omega)
  have hcur := (h.trie hp).cur_live.lt_nextCode h.params hlow
  refine ⟨stopCode_lt_two_pow_bitlen h.params hlow, stopCode_lt_two_pow_bitlen h.params (startCode_le_countUp hlow),
    hcur, hcur.trans hwidth, fun hne => ?_⟩
  obtain ⟨hparent, -⟩ := (h.trie hp).link _ _ _ ((h.trie hp).cur_link hne)
  have hprev := hparent.lt_nextCode h.params hlow
  exact ⟨hprev, hprev.trans hwidth⟩

/-- RD_PAIR takes a record's bits from what is pending, all of it where the record is not complete (R126). -/
theorem pendingBits_rdPair (w : Nat) {s : State} (h : s.pBits ≤ 8 * s.pLen) (hl : s.pLen ≤ s.params.block)
    (hb : 1 ≤ s.params.block) (hc : HostKeepsContract s) :
    pendingBits (rdPair w s).2 = (pendingBits s).drop (w + 8) := by
  obtain ⟨hcode, hrest, hc1⟩ := readBits_spec w s h hl hb hc
  obtain ⟨h1, hl1⟩ := readBits_bounds w s h hl
  have hparams : (readBits w s).2.params = s.params := (readBits_frame w s).params
  rw [← hparams] at hb hl1
  obtain ⟨-, hrest2, -⟩ := readBits_spec 8 (readBits w s).2 h1 hl1 hb hc1
  rw [hrest, List.drop_drop] at hrest2
  rw [rdPair_eq, hcode]
  split
  · rw [Option.elim_some]
    cases (readBits 8 (readBits w s).2).1 <;> exact hrest2
  · rename_i hshort
    rw [Option.elim_none, hrest, List.drop_of_length_le (by omega), List.drop_of_length_le (by omega)]

/-- A code names a word in a decode exactly where it is live (R34). -/
theorem WordInv.wordAt_ne_none_iff {s : State} (h : WordInv s) (c : Nat) : wordAt s c ≠ none ↔ Live s c := by
  rw [← h.live, Option.isSome_iff_ne_none]

/-- Settles O43: RD_PAIR reads the record or finds it truncated, and the record's operation has one meaning for every
width, which is DEC_STOP's, the fault's or DEC_PAIR's. -/
theorem decoderStepSelects : Obligations.DecoderStepSelects := by
  intro s h hp ht hc
  have hb := h.bounds.dec_bits hp
  have hl := h.bounds.dec_fill hp
  obtain ⟨-, -, -, hB, -⟩ := Params.codes h.params
  have hf := rdPair_frame (recordWidth s) (s.setMoves s.moves.tail)
  have hw : wordAt (rdPair (recordWidth s) (s.setMoves s.moves.tail)).2 = wordAt s :=
    wordAt_congr (by rw [hf]; rfl)
  obtain ⟨hread, -, hcontract⟩ := rdPair_spec (recordWidth s) (s.setMoves s.moves.tail) hb hl hB hc
  rw [pendingBits_setMoves] at hread
  refine ⟨_, _, _, hf, hcontract, rfl, rfl, pendingBits_rdPair _ hb hl hB hc, fun hshort => ?_, fun hlen => ?_⟩
  · exact step_of_rdPair_none ht hp hb hl (hread.trans (if_neg (by omega)))
  · rw [if_pos hlen] at hread
    have hstep := step_of_rdPair ht hp hb hl hread
    rw [exec_recordInstr _ _ (rdPair_code_lt _ _ hread)] at hstep
    refine ⟨fun hs => hstep.trans (if_pos hs), fun hs _ => hstep.trans (if_neg hs), fun hs hn => ?_,
      (h.words hp).wordAt_ne_none_iff _⟩
    rw [← hw] at hn
    exact (hstep.trans (if_neg hs)).trans (exec_of_raisesBadCode (.inr (.inr ⟨hn, _, .inr rfl⟩)))

end Sys2Proof.Machine
end

section
/-! What the output side of the codec appends, said once for both buffers: which items, in which pushes of whole
buffers, and which cells are left (O12, O14, O16, O18 to O22). -/

namespace Sys2Proof.Machine

/-! Pushes of a buffer's front. -/

/-- Settles O12: a push of the buffer's front, as it stands. -/
theorem wrBytesPushes : Obligations.WrBytesPushes := fun _ _ _ h1 hn => if_pos ⟨h1, hn⟩

/-- With no written byte FLUSH_SYMS does nothing (R129). -/
theorem flushSyms_of_empty {s : State} (h : s.sLen = 0) : flushSyms s = s := by
  unfold flushSyms
  rw [if_neg (by omega), ← h]
  rfl

/-- The written bytes go out in one push (R129). -/
theorem flushSyms_of_pos {s : State} (h : 0 < s.sLen) : flushSyms s = (wrBytes .sym s.sLen s).setSLen 0 := by
  unfold flushSyms
  rw [if_pos h]

theorem exec_flushSyms {s : State} (h : s.sLen ≤ s.params.block) : exec .flushSyms s = .next (flushSyms s) := if_pos h

/-- Settles O20: an empty buffer is left as it is, any other is one push. -/
theorem flushSymsPushes : Obligations.FlushSymsPushes := by
  intro s hl
  rw [exec_flushSyms hl]
  exact ⟨fun h => congrArg _ (flushSyms_of_empty h), fun h => congrArg _ (flushSyms_of_pos h)⟩

/-- PAIRBUF with the byte under the cursor completed with zeros (R128). -/
def padPairs (s : State) : State :=
  s.setPairBuf (s.pairBuf.setFrom s.pBits (List.replicate (8 * ((s.pBits + 7) / 8) - s.pBits) false))

theorem flushPairs_of_empty {s : State} (h : s.pBits = 0) : flushPairs s = s := by
  unfold flushPairs
  simp only
  rw [if_neg (by omega), ← h]
  rfl

/-- The bytes that hold a written bit go out in one push, after the padding (R128). -/
theorem flushPairs_of_pos {s : State} (h : 0 < s.pBits) :
    flushPairs s = (wrBytes .pair ((s.pBits + 7) / 8) (padPairs s)).setPBits 0 := by
  unfold flushPairs
  simp only
  rw [if_pos (by omega)]
  rfl

/-- The padding is the bits from the cursor to the end of its byte (R128). -/
theorem pairBit_padPairs (s : State) (q : Nat) : pairBit (padPairs s) q =
    if s.pBits ≤ q ∧ q < 8 * ((s.pBits + 7) / 8) then false else pairBit s q := by
  have hend : s.pBits + (8 * ((s.pBits + 7) / 8) - s.pBits) = 8 * ((s.pBits + 7) / 8) := by omega
  simp only [pairBit, padPairs, State.setPairBuf_pairBuf, State.setPairBuf_draws, Memory.get_setFrom,
    List.length_replicate, hend]
  split
  · rw [List.getElem?_replicate, if_pos (by omega)]
    rfl
  · rfl

theorem exec_flushPairs {s : State} (h : s.pBits ≤ 8 * s.params.block) : exec .flushPairs s = .next (flushPairs s) :=
  if_pos h

/-- Settles O19: an empty buffer is left as it is, any other is padded and is one push. -/
theorem flushPairsPads : Obligations.FlushPairsPads := by
  intro s hp
  rw [exec_flushPairs hp]
  refine ⟨fun h => congrArg _ (flushPairs_of_empty h), fun h => ⟨_, rfl, ?_⟩⟩
  have hframe := flushPairs_frame s
  rw [flushPairs_of_pos h] at hframe ⊢
  exact ⟨rfl, rfl, rfl, pairBit_padPairs s, hframe⟩

/-! Appending to a buffer that is pushed whole as it fills. -/

/-- One of the two buffers as its writer sees it: the stream so far, the cursor, the cells and how many there are. -/
structure Writer (α : Type) where
  content : State → List α
  cursor : State → Nat
  cell : State → Nat → α
  size : Params → Nat

/-- SYMBUF, which WR_RUN fills (R123). -/
def symWriter : Writer Byte := ⟨writtenBytes, State.sLen, symByte, Params.block⟩

/-- PAIRBUF, which PUT_BIT fills (R125). -/
def pairWriter : Writer Bool := ⟨packedBits, State.pBits, pairBit, fun p => 8 * p.block⟩

/-- From `s` to `t` the items `xs` are appended: the pushes `pushed` are whole buffers, and only the cells from the
cursor on, back to 0 at the buffer's end, are stored to (R123, R125, R127). -/
structure Writer.Appends {α : Type} (W : Writer α) (xs : List α) (pushed : List (List Byte)) (s t : State) : Prop where
  params : t.params = s.params
  content : W.content t = W.content s ++ xs
  room : W.cursor t < W.size s.params
  sink : t.sink = s.sink ++ pushed
  whole : ∀ b ∈ pushed, b.length = s.params.block
  count : W.cursor s + xs.length = W.size s.params * pushed.length + W.cursor t
  bytesOut : t.bytesOut = s.bytesOut + BitVec.ofNat 64 (s.params.block * pushed.length)
  kept : ∀ a, (∀ j, j < xs.length → a ≠ (W.cursor s + j) % W.size s.params) → W.cell t a = W.cell s a

section
variable {α : Type} {W : Writer α} {xs ys : List α} {pushed pushed' : List (List Byte)} {s t u : State}

theorem Writer.Appends.nil (h : W.cursor s < W.size s.params) : W.Appends [] [] s s :=
  ⟨rfl, by simp, h, by simp, nofun, by simp, by simp, fun _ _ => rfl⟩

theorem Writer.Appends.trans (h : W.Appends xs pushed s t) (h' : W.Appends ys pushed' t u) :
    W.Appends (xs ++ ys) (pushed ++ pushed') s u where
  params := h'.params.trans h.params
  content := by rw [h'.content, h.content, List.append_assoc]
  room := h.params ▸ h'.room
  sink := by rw [h'.sink, h.sink, List.append_assoc]
  whole b hb := (List.mem_append.1 hb).elim (h.whole b) (h.params ▸ h'.whole b)
  count := by
    have hs := h.count
    have ht := h'.count
    rw [h.params] at ht
    rw [List.length_append, List.length_append, Nat.mul_add]
    omega
  bytesOut := by
    rw [h'.bytesOut, h.bytesOut, h.params, List.length_append, Nat.mul_add, BitVec.ofNat_add, BitVec.add_assoc]
  kept a ha := by
    rw [List.length_append] at ha
    have hslot : ∀ j, (W.cursor s + (xs.length + j)) % W.size s.params = (W.cursor t + j) % W.size t.params := by
      intro j
      rw [← Nat.add_assoc, h.count, Nat.add_assoc, Nat.mul_add_mod, h.params]
    rw [h'.kept a fun j hj => hslot j ▸ ha _ (by omega), h.kept a fun j hj => ha j (by omega)]

/-- From an empty buffer, the items in whole buffers are pushed and the rest is in the buffer. -/
theorem Writer.Appends.div_mod (h : W.Appends xs pushed s t) (h0 : W.cursor s = 0) :
    pushed.length = xs.length / W.size s.params ∧ W.cursor t = xs.length % W.size s.params := by
  have hcount := h.count
  have hroom := h.room
  rw [h0, Nat.zero_add] at hcount
  rw [hcount, Nat.mul_add_div (by omega), Nat.mul_add_mod, Nat.div_eq_of_lt hroom, Nat.mod_eq_of_lt hroom]
  exact ⟨rfl, rfl⟩

end

/-! One item. -/

/-- One symbol of WR_RUN (R123). -/
theorem wrSym_appends (x : Symbol) {s : State} (h : s.sLen < s.params.block) :
    ∃ pushed, symWriter.Appends [x] pushed s (wrSym x s) := by
  obtain ⟨hcontent, hroom⟩ := wrSym_spec x s h
  have hstore : ∀ a, (∀ j, j < 1 → a ≠ (s.sLen + j) % s.params.block) →
      symByte (s.setSymBuf (s.symBuf.set s.sLen x)) a = symByte s a := by
    intro a ha
    have hne := ha 0 Nat.one_pos
    rw [Nat.add_zero, Nat.mod_eq_of_lt h] at hne
    rw [symByte_set, if_neg hne.symm]
  by_cases hfull : s.sLen + 1 = s.params.block
  · have e : wrSym x s = (wrBytes .sym s.params.block
        ((s.setSymBuf (s.symBuf.set s.sLen x)).setSLen (s.sLen + 1))).setSLen 0 := if_pos hfull
    rw [e] at hcontent hroom ⊢
    exact ⟨_, rfl, hcontent, hroom, rfl, by simp, by simpa [symWriter] using hfull, by simp [wrBytes], hstore⟩
  · have e : wrSym x s = (s.setSymBuf (s.symBuf.set s.sLen x)).setSLen (s.sLen + 1) := if_neg hfull
    rw [e] at hcontent hroom ⊢
    exact ⟨[], rfl, hcontent, hroom, by simp, nofun, by simp [symWriter], by simp, hstore⟩

/-- PUT_BIT, where its bit does not fill the buffer (R125). -/
theorem putBit_of_room (b : Bool) {s : State} (h : s.pBits + 1 ≠ 8 * s.params.block) :
    putBit b s = (s.setPairBuf (s.pairBuf.set s.pBits b)).setPBits (s.pBits + 1) := if_neg h

/-- PUT_BIT of the buffer's last bit (R125). -/
theorem putBit_of_last (b : Bool) {s : State} (h : s.pBits + 1 = 8 * s.params.block) :
    putBit b s = (wrBytes .pair s.params.block
      ((s.setPairBuf (s.pairBuf.set s.pBits b)).setPBits (s.pBits + 1))).setPBits 0 := if_pos h

/-- PUT_BIT stores the bit under the cursor and no other (R125). -/
theorem pairBit_putBit (b : Bool) (s : State) (q : Nat) :
    pairBit (putBit b s) q = if s.pBits = q then b else pairBit s q := by
  by_cases h : s.pBits + 1 = 8 * s.params.block
  · rw [putBit_of_last b h]
    exact pairBit_set s s.pBits q b 0
  · rw [putBit_of_room b h]
    exact pairBit_set s s.pBits q b _

theorem exec_putBit (b : Bool) {s : State} (h : s.pBits < 8 * s.params.block) :
    exec (.putBit b) s = .next (putBit b s) := if_pos ((pairStoreOk_iff s).2 h)

/-- Settles O16: the bit is stored, and only the buffer's last one pushes. -/
theorem putBitStores : Obligations.PutBitStores := by
  intro b s h
  refine ⟨_, exec_putBit b h, by simp [pairBit_putBit], fun q hq => by rw [pairBit_putBit, if_neg hq.symm],
    fun hroom => ?_, fun hlast => ?_, putBit_frame b s⟩
  · rw [putBit_of_room b (by omega)]
    exact ⟨rfl, rfl, rfl⟩
  · rw [putBit_of_last b hlast]
    exact ⟨rfl, rfl, rfl⟩

theorem putBit_appends (b : Bool) {s : State} (h : s.pBits < 8 * s.params.block) :
    ∃ pushed, pairWriter.Appends [b] pushed s (putBit b s) := by
  obtain ⟨hcontent, hroom⟩ := putBit_spec b s h
  have hstore : ∀ a, (∀ j, j < 1 → a ≠ (s.pBits + j) % (8 * s.params.block)) →
      pairBit (putBit b s) a = pairBit s a := by
    intro a ha
    have hne := ha 0 Nat.one_pos
    rw [Nat.add_zero, Nat.mod_eq_of_lt h] at hne
    rw [pairBit_putBit, if_neg hne.symm]
  by_cases hlast : s.pBits + 1 = 8 * s.params.block
  · rw [putBit_of_last b hlast] at hcontent hroom hstore ⊢
    exact ⟨_, rfl, hcontent, hroom, rfl, by simp, by simpa [pairWriter] using hlast, by simp [wrBytes], hstore⟩
  · rw [putBit_of_room b hlast] at hcontent hroom hstore ⊢
    exact ⟨[], rfl, hcontent, hroom, by simp, nofun, by simp [pairWriter], by simp, hstore⟩

/-! Words and pairs. -/

/-- WR_RUN appends its word (R123). -/
theorem wrRun_appends (word : List Symbol) {s : State} (h : s.sLen < s.params.block) :
    ∃ pushed, symWriter.Appends word pushed s (wrRun word s) := by
  induction word generalizing s with
  | nil => exact ⟨[], .nil h⟩
  | cons x xs ih =>
    obtain ⟨p, hx⟩ := wrSym_appends x h
    obtain ⟨q, hxs⟩ := ih (hx.params.symm ▸ hx.room)
    exact ⟨p ++ q, hx.trans hxs⟩

theorem putBits_appends (bs : List Bool) {s : State} (h : s.pBits < 8 * s.params.block) :
    ∃ pushed, pairWriter.Appends bs pushed s (putBits bs s) := by
  induction bs generalizing s with
  | nil => exact ⟨[], .nil h⟩
  | cons b bs ih =>
    obtain ⟨p, hb⟩ := putBit_appends b h
    obtain ⟨q, hbs⟩ := ih (hb.params.symm ▸ hb.room)
    exact ⟨p ++ q, hb.trans hbs⟩

/-- WR_PAIR appends the low `w` bits of the code and the eight of the symbol (R127). -/
theorem wrPair_appends (code : Nat) (x : Symbol) (w : Nat) {s : State} (h : s.pBits < 8 * s.params.block) :
    ∃ pushed, pairWriter.Appends (bitsLE w code ++ bitsOfByte x) pushed s (wrPair code x w s) := by
  obtain ⟨p, hcode⟩ := putBits_appends (bitsLE w code) h
  obtain ⟨q, hsym⟩ := putBits_appends (bitsOfByte x) (hcode.params.symm ▸ hcode.room)
  exact ⟨p ++ q, hcode.trans hsym⟩

theorem exec_wrRun (word : List Symbol) {s : State} (h : s.sLen < s.params.block) :
    exec (.wrRun word) s = .next (wrRun word s) :=
  if_pos (Bool.or_eq_true_iff.2 (.inr ((symStoreOk_iff s).2 h)))

theorem exec_wrPair (code : Nat) (x : Symbol) (w : Nat) {s : State} (h : s.pBits < 8 * s.params.block) :
    exec (.wrPair code x w) s = .next (wrPair code x w s) := if_pos ((pairStoreOk_iff s).2 h)

/-- Settles O14: the word's symbols are appended one by one. -/
theorem wrRunAppends : Obligations.WrRunAppends := by
  refine ⟨fun s => rfl, fun word s h => ?_⟩
  obtain ⟨pushed, hw⟩ := wrRun_appends word h
  exact ⟨_, pushed, exec_wrRun word h, hw.content, hw.room, hw.sink, hw.whole, hw.count, hw.bytesOut, hw.kept,
    wrRun_frame word s⟩

/-- Settles O18: the code's bits and then the symbol's are appended one by one. -/
theorem wrPairAppends : Obligations.WrPairAppends := by
  intro code x w s h
  have hexec := exec_wrPair code x w h
  have hframe := wrPair_frame code x w s
  obtain ⟨pushed, hw⟩ := wrPair_appends code x w h
  generalize wrPair code x w s = t at hexec hframe hw
  have hlen : (bitsLE w code ++ bitsOfByte x).length = w + 8 := by simp
  have hcount := hw.count
  have hkept := hw.kept
  rw [hlen] at hcount hkept
  exact ⟨t, pushed, hexec, hw.content, hw.room, hw.sink, hw.whole, hcount, hw.bytesOut, hkept, hframe⟩

/-! Many operations, and the flush after them. -/

theorem runOps_append {is js : List Instr} {s t : State} (h : runOps is s = .next t) :
    runOps (is ++ js) s = runOps js t := by
  induction is generalizing s with
  | nil => cases h; rfl
  | cons i is ih =>
    simp only [runOps, List.cons_append] at h ⊢
    cases hi : exec i s with
    | next u => rw [hi] at h; exact ih h
    | fault r => rw [hi] at h; cases h
    | refused r => rw [hi] at h; cases h

/-- Operations that each append their items append all of them, one after another. -/
theorem runOps_appends {α ι : Type} {W : Writer α} {op : ι → Instr} {items : ι → List α}
    (hop : ∀ i (s : State), W.cursor s < W.size s.params →
      ∃ t pushed, exec (op i) s = .next t ∧ W.Appends (items i) pushed s t)
    (is : List ι) {s : State} (h : W.cursor s < W.size s.params) :
    ∃ t pushed, runOps (is.map op) s = .next t ∧ W.Appends (is.flatMap items) pushed s t := by
  induction is generalizing s with
  | nil => exact ⟨s, [], rfl, .nil h⟩
  | cons i is ih =>
    obtain ⟨t, p, hi, happ⟩ := hop i s h
    obtain ⟨u, q, his, happ'⟩ := ih (happ.params.symm ▸ happ.room)
    refine ⟨u, p ++ q, ?_, happ.trans happ'⟩
    simp only [List.map_cons, runOps, hi, his]

/-- From `t` to `u` the `n` bytes begun are pushed, in one push, where there are any (R128, R129). -/
structure Flushes (n : Nat) (last : List (List Byte)) (t u : State) : Prop where
  sink : u.sink = t.sink ++ last
  lengths : last.map List.length = if n = 0 then [] else [n]
  bytesOut : u.bytesOut = t.bytesOut + BitVec.ofNat 64 n

theorem flushSyms_flushes (s : State) : ∃ last, Flushes s.sLen last s (flushSyms s) := by
  rcases Nat.eq_zero_or_pos s.sLen with h | h
  · rw [flushSyms_of_empty h]
    exact ⟨[], by simp, by simp [h], by simp [h]⟩
  · rw [flushSyms_of_pos h]
    exact ⟨[bufFront s .sym s.sLen], rfl, by simp [h.ne'], rfl⟩

theorem flushPairs_flushes (s : State) : ∃ last, Flushes ((s.pBits + 7) / 8) last s (flushPairs s) := by
  rcases Nat.eq_zero_or_pos s.pBits with h | h
  · rw [flushPairs_of_empty h]
    exact ⟨[], by simp, by simp [h], by simp [h]⟩
  · have hn : (s.pBits + 7) / 8 ≠ 0 := by omega
    rw [flushPairs_of_pos h]
    exact ⟨[bufFront (padPairs s) .pair ((s.pBits + 7) / 8)], rfl, by rw [if_neg hn]; simp, rfl⟩

/-- The pushes of items appended to an empty buffer and flushed: whole buffers, and one of the rest. -/
theorem Writer.Appends.flushed {α : Type} {W : Writer α} {xs : List α} {pushed last : List (List Byte)} {n : Nat}
    {s t u : State} (h : W.Appends xs pushed s t) (h0 : W.cursor s = 0) (hf : Flushes n last t u) :
    u.sink = s.sink ++ (pushed ++ last) ∧
    u.bytesOut = s.bytesOut + BitVec.ofNat 64 (s.params.block * (xs.length / W.size s.params) + n) ∧
    (pushed ++ last).map List.length =
      List.replicate (xs.length / W.size s.params) s.params.block ++ if n = 0 then [] else [n] := by
  obtain ⟨hdiv, -⟩ := h.div_mod h0
  refine ⟨by rw [hf.sink, h.sink, List.append_assoc], ?_, ?_⟩
  · rw [hf.bytesOut, h.bytesOut, hdiv, BitVec.ofNat_add, BitVec.add_assoc]
  · rw [List.map_append, hf.lengths, ← hdiv, List.map_eq_replicate_iff.2 h.whole]

/-- Settles O22: the words are appended, and the flush sends the rest. -/
theorem symbolCodecGuarantee : Obligations.SymbolCodecGuarantee := by
  intro ws s hB h0
  obtain ⟨t, pushed, hrun, happ⟩ := runOps_appends (W := symWriter) (op := Instr.wrRun) (items := id)
    (fun word s h => (wrRun_appends word h).elim fun p hp => ⟨_, p, exec_wrRun word h, hp⟩) ws
    (show s.sLen < s.params.block by omega)
  rw [List.flatMap_id] at happ
  obtain ⟨last, hlast⟩ := flushSyms_flushes t
  obtain ⟨hsink, hout, hlengths⟩ := happ.flushed h0 hlast
  have hrest : t.sLen = ws.flatten.length % s.params.block := (happ.div_mod h0).2
  have hroom : t.sLen < s.params.block := happ.room
  have hbytes : sinkBytes (flushSyms t) = sinkBytes s ++ ws.flatten := by
    have hcontent : writtenBytes t = writtenBytes s ++ ws.flatten := happ.content
    rw [(flushSyms_spec t).1, hcontent, writtenBytes, h0]
    simp [bufFront]
  refine ⟨flushSyms t, pushed ++ last, ?_, hsink, ?_, ?_, ?_⟩
  · rw [runOps_append hrun, runOps, exec_flushSyms (by rw [happ.params]; omega)]
    rfl
  · rw [sinkBytes, hsink, List.flatten_append] at hbytes
    exact List.append_cancel_left hbytes
  · rw [hout, hrest]
    exact congrArg (s.bytesOut + BitVec.ofNat 64 ·) (Nat.div_add_mod _ _)
  · rw [hlengths, hrest]
    rfl

/-- Settles O21: the pairs' bits are appended, and the flush pads and sends the rest. -/
theorem pairCodecGuarantee : Obligations.PairCodecGuarantee := by
  intro ps s hB h0
  obtain ⟨t, pushed, hrun, happ⟩ := runOps_appends (W := pairWriter)
    (op := fun q : Nat × Symbol × Nat => Instr.wrPair q.1 q.2.1 q.2.2)
    (items := fun q => bitsLE q.2.2 q.1 ++ bitsOfByte q.2.1)
    (fun q s h => (wrPair_appends q.1 q.2.1 q.2.2 h).elim fun p hp => ⟨_, p, exec_wrPair _ _ _ h, hp⟩) ps
    (show s.pBits < 8 * s.params.block by omega)
  obtain ⟨B, hbits⟩ : ∃ B, B = ps.flatMap fun q => bitsLE q.2.2 q.1 ++ bitsOfByte q.2.1 := ⟨_, rfl⟩
  rw [← hbits] at happ
  obtain ⟨last, hlast⟩ := flushPairs_flushes t
  obtain ⟨hsink, hout, hlengths⟩ := happ.flushed h0 hlast
  have hrest : t.pBits = B.length % (8 * s.params.block) := (happ.div_mod h0).2
  have hroom : t.pBits < 8 * s.params.block := happ.room
  have hwhole : 8 * (s.params.block * (B.length / (8 * s.params.block))) + t.pBits = B.length := by
    rw [← Nat.mul_assoc, hrest, Nat.div_add_mod]
  have hstream : bitsOfBytes (sinkBytes (flushPairs t)) =
      bitsOfBytes (sinkBytes s) ++ (B ++ List.replicate (8 * ((t.pBits + 7) / 8) - t.pBits) false) := by
    have hcontent : packedBits t = packedBits s ++ B := happ.content
    rw [(flushPairs_spec t).1, hcontent, packedBits, h0]
    simp
  refine ⟨flushPairs t, pushed ++ last, B, ?_, hbits, hsink, ?_, ?_, ?_⟩
  · rw [runOps_append hrun, runOps, exec_flushPairs (by rw [happ.params]; omega)]
    rfl
  · rw [sinkBytes, hsink, List.flatten_append, bitsOfBytes_append] at hstream
    rw [List.append_cancel_left hstream]
    have hpad : 8 * ((t.pBits + 7) / 8) - t.pBits = 8 * ((B.length + 7) / 8) - B.length := by omega
    rw [hpad]
  · rw [hout]
    congr 2
    show s.params.block * (B.length / (8 * s.params.block)) + _ = _
    omega
  · rw [hlengths, ← hrest]
    congr 1
    by_cases hp : t.pBits = 0
    · rw [if_pos hp, if_pos (by omega)]
    · rw [if_neg hp, if_neg (by omega)]

end Sys2Proof.Machine
end

section
/-! What the input side of the codec reads: the pulls of RD_BYTES and what they store (O11), the symbols and the bits
handed out in order (O13, O15, O23), and the records (O17). -/

namespace Sys2Proof.Machine

/-! The pulls of RD_BYTES (R66, R120). -/

/-- A round of RD_BYTES: a pull of what is missing, stored, unless it is empty or nothing is missing (R120). -/
theorem rdBytesLoop_succ (fuel : Nat) (buf : Buf) (n got : Nat) (s : State) :
    rdBytesLoop (fuel + 1) buf n got s =
      if got < n ∧ s.srcEos = false then
        if pullAnswer (n - got) s = [] then
          (got, afterRead buf got [] true s.cuts.tail (s.pulls ++ [(n - got, 0)]) s)
        else rdBytesLoop fuel buf n (got + (pullAnswer (n - got) s).length)
          (afterRead buf got (pullAnswer (n - got) s) s.srcEos s.cuts.tail
            (s.pulls ++ [(n - got, (pullAnswer (n - got) s).length)]) s)
      else (got, s) := by
  rw [rdBytesLoop]
  simp only
  split
  · by_cases he : pullAnswer (n - got) s = []
    · rw [if_pos (by simp [he]), if_pos he, afterPull_empty he]
    · rw [if_neg (by simpa using he), if_neg he, afterPull_stored]
  · rfl

/-- With `got` of `n` bytes read in `s`, RD_BYTES makes the pulls `asked`, each for all that is still missing, and
returns `r`. The end of the source is an empty answer, and no pull follows it. -/
structure Pulls (n got : Nat) (asked : List (Nat × Nat)) (s : State) (r : Nat × State) : Prop where
  pulls : r.2.pulls = s.pulls ++ asked
  count : r.1 = got + (asked.map Prod.snd).sum
  missing : ∀ k q, asked[k]? = some q → 1 ≤ q.1 ∧ got + (q.1 + ((asked.take k).map Prod.snd).sum) = n ∧ q.2 ≤ q.1
  ended : s.srcEos = true → asked = []
  srcEos : s.srcEos = false → (r.2.srcEos = true ↔ ∃ q ∈ asked, q.2 = 0)
  full : r.1 = n → r.2.srcEos = s.srcEos

theorem Pulls.nil (n got : Nat) (s : State) : Pulls n got [] s (got, s) :=
  ⟨by simp, rfl, by simp, fun _ => rfl, fun h => by simp [h], fun _ => rfl⟩

theorem rdBytesLoop_pulls (fuel : Nat) (buf : Buf) (n got : Nat) (s : State) (hf : n - got < fuel) :
    ∃ asked, Pulls n got asked s (rdBytesLoop fuel buf n got s) := by
  induction fuel generalizing got s with
  | zero => omega
  | succ fuel ih =>
    rw [rdBytesLoop_succ]
    split
    · rename_i hmore
      obtain ⟨hgot, heos⟩ := hmore
      have hle := (pullAnswer_spec (n - got) s).2
      split
      · refine ⟨[(n - got, 0)], rfl, rfl, ?_, by simp [heos], fun _ => by simp [afterRead], fun h => absurd h hgot.ne⟩
        rintro (_ | k) q hq
        · cases hq
          simp only [List.take_zero, List.map_nil, List.sum_nil]
          omega
        · simp at hq
      · rename_i hne
        have hpos := List.length_pos_iff.2 hne
        generalize hs : afterRead buf got (pullAnswer (n - got) s) s.srcEos s.cuts.tail
          (s.pulls ++ [(n - got, (pullAnswer (n - got) s).length)]) s = s1
        obtain ⟨asked, h⟩ := ih (got + (pullAnswer (n - got) s).length) s1 (by omega)
        have hpulls : s1.pulls = s.pulls ++ [(n - got, (pullAnswer (n - got) s).length)] := by rw [← hs]; rfl
        have heos1 : s1.srcEos = s.srcEos := by rw [← hs]; rfl
        refine ⟨(n - got, (pullAnswer (n - got) s).length) :: asked, ?_, ?_, ?_, by simp [heos], fun _ => ?_, ?_⟩
        · rw [h.pulls, hpulls, List.append_assoc]; rfl
        · rw [h.count, List.map_cons, List.sum_cons, Nat.add_assoc]
        · rintro (_ | k) q hq
          · cases hq
            simp only [List.take_zero, List.map_nil, List.sum_nil]
            omega
          · obtain ⟨h1, hsum, h2⟩ := h.missing k q hq
            simp only [List.take_succ_cons, List.map_cons, List.sum_cons]
            omega
        · rw [h.srcEos (heos1.trans heos)]
          simp [hne]
        · exact fun hn => (h.full hn).trans heos1
    · exact ⟨[], .nil n got s⟩

theorem rdBytes_pulls (buf : Buf) (n : Nat) (s : State) : ∃ asked, Pulls n 0 asked s (rdBytes buf n s) :=
  rdBytesLoop_pulls (n + 1) buf n 0 s (by omega)

/-! What RD_BYTES stores (R41, R63, R120). -/

/-- Bit `k` of byte `j` of a stream (R14, R63). -/
theorem getElem?_bitsOfBytes (xs : List Byte) (j : Nat) {k : Nat} (hk : k < 8) :
    (bitsOfBytes xs)[8 * j + k]? = xs[j]?.map (·.getLsbD k) := by
  induction xs generalizing j with
  | nil => simp [bitsOfBytes]
  | cons x xs ih =>
    rw [show bitsOfBytes (x :: xs) = bitsOfByte x ++ bitsOfBytes xs from List.flatMap_cons]
    cases j with
    | zero =>
      rw [Nat.mul_zero, Nat.zero_add, List.getElem?_append_left (by simpa using hk)]
      simp [bitsOfByte, bitsLE, hk, BitVec.testBit_toNat]
    | succ j =>
      rw [List.getElem?_append_right (by rw [length_bitsOfByte]; omega), length_bitsOfByte,
        show 8 * (j + 1) + k - 8 = 8 * j + k by omega, ih, List.getElem?_cons_succ]

/-- What is read after a run of writes from address 0 on. -/
theorem getD_get_setFrom_zero {α : Type} (m : Memory α) (vs : List α) (a : Nat) (d : α) :
    ((m.setFrom 0 vs).get a).getD d = vs[a]?.getD ((m.get a).getD d) := by
  rw [Memory.get_setFrom]
  by_cases h : a < vs.length
  · simp [h]
  · rw [if_neg (by omega), List.getElem?_eq_none (by omega), Option.getD_none]

section
variable (xs : List Byte) (e : Bool) (c : List Nat) (p : List (Nat × Nat)) (s : State)

theorem symByte_afterRead_eq (j : Nat) :
    symByte (afterRead .sym 0 xs e c p s) j = xs[j]?.getD (symByte s j) :=
  getD_get_setFrom_zero s.symBuf xs j _

theorem pairBit_afterRead_eq (q : Nat) :
    pairBit (afterRead .pair 0 xs e c p s) q = (bitsOfBytes xs)[q]?.getD (pairBit s q) :=
  getD_get_setFrom_zero s.pairBuf (bitsOfBytes xs) q _

theorem pairByte_afterRead_eq (j : Nat) :
    pairByte (afterRead .pair 0 xs e c p s) j = xs[j]?.getD (pairByte s j) := by
  have hbits : ∀ k ∈ List.range 8, pairBit (afterRead .pair 0 xs e c p s) (8 * j + k) =
      (xs[j]?.map (·.getLsbD k)).getD (pairBit s (8 * j + k)) := by
    intro k hk
    rw [pairBit_afterRead_eq, getElem?_bitsOfBytes xs j (List.mem_range.1 hk)]
  rw [pairByte, List.map_congr_left hbits]
  cases xs[j]? with
  | none => rfl
  | some b => exact byteOfBits_bitsOfByte b

/-- The bytes read stand at the front of their buffer, its other bytes are as before. -/
theorem bufByte_afterRead_self (buf : Buf) (j : Nat) :
    bufByte (afterRead buf 0 xs e c p s) buf j = xs[j]?.getD (bufByte s buf j) := by
  cases buf with
  | sym => exact symByte_afterRead_eq xs e c p s j
  | pair => exact pairByte_afterRead_eq xs e c p s j

theorem bufByte_afterRead_other {buf other : Buf} (h : other ≠ buf) (j : Nat) :
    bufByte (afterRead buf 0 xs e c p s) other j = bufByte s other j := by
  cases buf <;> cases other
  case sym.sym | pair.pair => exact absurd rfl h
  case sym.pair | pair.sym => rfl

end

theorem bufByte_setResult (s : State) (r : OpResult) (buf : Buf) (j : Nat) :
    bufByte (s.setResult r) buf j = bufByte s buf j := by cases buf <;> rfl

theorem exec_rdBytes (buf : Buf) {n : Nat} {s : State} (h : n ≤ s.params.block) :
    exec (.rdBytes buf n) s = .next ((rdBytes buf n s).2.setResult (.got (rdBytes buf n s).1)) := if_pos h

/-- Settles O11: the bytes taken are those the pulls answered. -/
theorem rdBytesFillsFromSource : Obligations.RdBytesFillsFromSource := by
  intro buf n s hn
  obtain ⟨asked, hasked⟩ := rdBytes_pulls buf n s
  obtain ⟨taken, eos, cs, ps, e, hfront, hle, hshort, hended, hcontract⟩ := rdBytes_spec buf n s
  rw [exec_rdBytes buf hn]
  rw [e] at hasked ⊢
  refine ⟨_, taken, asked, rfl, rfl, hle, hfront, rfl, rfl, hasked.pulls, ?_, ?_, ?_, hasked.srcEos, hshort,
    hasked.full, ?_, ?_, fun other h j => ?_, fun hc heos => ((hcontract hc).2 heos).1, ?_⟩
  · exact (hasked.count.trans (Nat.zero_add _)).symm
  · intro k q hq
    obtain ⟨h1, hsum, h2⟩ := hasked.missing k q hq
    exact ⟨h1, (Nat.zero_add _).symm.trans hsum, h2⟩
  · exact fun h => ⟨hasked.ended h, (hended h).2.1⟩
  · intro j b hj
    rw [bufByte_setResult, bufByte_afterRead_self, hj, Option.getD_some]
  · intro j hj
    rw [bufByte_setResult, bufByte_afterRead_self, List.getElem?_eq_none hj, Option.getD_none]
  · rw [bufByte_setResult, bufByte_afterRead_other taken eos cs ps s h]
  · cases buf <;> simp only [afterRead, storeBytes, State.setSource, State.setBytesIn, State.setSrcEos,
      State.setSymBuf, State.setPairBuf, State.setResult]

/-! RD_SYM (R122). -/

theorem exec_rdSym {s : State} (h : s.sIdx ≤ s.sLen) (hl : s.sLen ≤ s.params.block) :
    exec .rdSym s = .next ((rdSym s).2.setResult (symResult (rdSym s).1)) := if_pos ((symReadOk_iff s).2 ⟨h, hl⟩)

theorem rdSym_of_prefetched {s : State} (h : s.sIdx < s.sLen) : rdSym s = takeSym s := if_neg h.ne

theorem rdSym_of_empty {s : State} (h : s.sIdx = s.sLen) : rdSym s =
    if (rdBytes .sym s.params.block s).1 = 0 then (none, refillSyms s) else takeSym (refillSyms s) := if_pos h

/-- Settles O13: the prefetched symbol, else the first of a refill, else none. -/
theorem rdSymHandsOut : Obligations.RdSymHandsOut := by
  intro s h hl
  rw [exec_rdSym h hl]
  refine ⟨fun hlt => by rw [rdSym_of_prefetched hlt]; rfl, fun he => ?_, fun hb hc => ?_⟩
  · refine ⟨_, _, exec_rdBytes .sym le_rfl, rfl, ?_⟩
    rw [rdSym_of_empty he]
    split
    · rename_i h0
      simp only [refillSyms, h0]
      rfl
    · rfl
  · obtain ⟨hhead, htail, hcontract, hi, hlen⟩ := rdSym_spec s h hl hb hc
    refine ⟨_, rfl, ?_, htail, hcontract, hi, hlen⟩
    rw [State.setResult_result, hhead]
    cases pendingSyms s <;> rfl

/-! GET_BIT (R124). -/

theorem exec_getBit {s : State} (h : s.pBits ≤ 8 * s.pLen) (hl : s.pLen ≤ s.params.block) :
    exec .getBit s = .next ((getBit s).2.setResult (bitResult (getBit s).1)) := if_pos ((pairReadOk_iff s).2 ⟨h, hl⟩)

theorem getBit_of_prefetched {s : State} (h : s.pBits < 8 * s.pLen) : getBit s = takeBit s := if_neg h.ne

theorem getBit_of_empty {s : State} (h : s.pBits = 8 * s.pLen) : getBit s =
    if (rdBytes .pair s.params.block s).1 = 0 then (none, refillPairs s) else takeBit (refillPairs s) := if_pos h

/-- GET_BIT by name: the first pending bit, and a state GET_BIT can run in again (R124, R133). -/
theorem exec_getBit_spec {s : State} (h : s.pBits ≤ 8 * s.pLen) (hl : s.pLen ≤ s.params.block)
    (hb : 1 ≤ s.params.block) (hc : HostKeepsContract s) :
    ∃ t, exec .getBit s = .next t ∧ t.result = bitResult (pendingBits s).head? ∧
      pendingBits t = (pendingBits s).tail ∧ HostKeepsContract t ∧ t.pBits ≤ 8 * t.pLen ∧
      t.pLen ≤ s.params.block ∧ t.params = s.params := by
  obtain ⟨hhead, htail, hcontract⟩ := getBit_spec s h hb hc
  obtain ⟨hi, hlen⟩ := getBit_bounds s h hl
  exact ⟨_, exec_getBit h hl, congrArg bitResult hhead, htail, hcontract, hi, hlen, (getBit_frame s).params⟩

/-- Settles O15: the prefetched bit, else the first of a refill, else none. -/
theorem getBitReads : Obligations.GetBitReads := by
  intro s h hl
  refine ⟨fun hlt => ?_, fun he => ?_, fun hb hc => ?_⟩
  · rw [exec_getBit h hl, getBit_of_prefetched hlt]
    rfl
  · refine ⟨_, _, exec_rdBytes .pair le_rfl, rfl, ?_⟩
    rw [exec_getBit h hl, getBit_of_empty he]
    split
    · rename_i h0
      simp only [refillPairs, h0]
      rfl
    · rfl
  · obtain ⟨t, hstep, hresult, htail, hcontract, hi, hlen, -⟩ := exec_getBit_spec h hl hb hc
    refine ⟨t, hstep, ?_, htail, hcontract, hi, hlen⟩
    rw [hresult]
    cases pendingBits s <;> rfl

/-- GET_BIT number `n` reads pending bit number `n` (R124, R133). -/
theorem runOps_getBits (n : Nat) {s : State} (h : s.pBits ≤ 8 * s.pLen) (hl : s.pLen ≤ s.params.block)
    (hb : 1 ≤ s.params.block) (hc : HostKeepsContract s) :
    ∃ t, runOps (List.replicate (n + 1) .getBit) s = .next t ∧ t.result = bitResult (pendingBits s)[n]? := by
  induction n generalizing s with
  | zero =>
    obtain ⟨t, hstep, hresult, -⟩ := exec_getBit_spec h hl hb hc
    refine ⟨t, ?_, by rw [hresult, List.head?_eq_getElem?]⟩
    rw [Nat.zero_add, List.replicate_one, runOps, hstep]
    rfl
  | succ n ih =>
    obtain ⟨u, hstep, -, htail, hcontract, hi, hlen, hparams⟩ := exec_getBit_spec h hl hb hc
    rw [← hparams] at hlen hb
    obtain ⟨t, hrun, hresult⟩ := ih hi hlen hb hcontract
    refine ⟨t, ?_, by rw [hresult, htail, List.getElem?_tail]⟩
    rw [List.replicate_succ, runOps, hstep]
    exact hrun

/-- Settles O23: what is pending at a run's start is the source. -/
theorem unpackerGuarantee : Obligations.UnpackerGuarantee := by
  intro n s hb hc heos hbits hlen
  obtain ⟨t, hrun, hresult⟩ := runOps_getBits n (by omega) (by omega) hb hc
  have hpending : pendingBits s = bitsOfBytes s.source := by simp [pendingBits, heos, hbits, hlen]
  have hbit := getElem?_bitsOfBytes s.source (n / 8) (Nat.mod_lt n (by omega : 8 > 0))
  rw [Nat.div_add_mod] at hbit
  refine ⟨t, hrun, ?_⟩
  rw [hresult, hpending, hbit]
  cases s.source[n / 8]? <;> rfl

/-! RD_PAIR (R126). -/

/-- No refill stores to bit `q` of PAIRBUF: the source has ended, or gives too little to reach it. -/
def BeyondSource (s : State) (q : Nat) : Prop :=
  s.srcEos = true ∨ 8 * min s.params.block s.source.length ≤ q

/-- Reading `n` bits stores nothing to bit `q` of PAIRBUF: they are prefetched, or no refill reaches it. -/
def OutsideRefills (n : Nat) (s : State) (q : Nat) : Prop :=
  n ≤ 8 * s.pLen - s.pBits ∨ BeyondSource s q

theorem OutsideRefills.mono {m n q : Nat} {s : State} (h : OutsideRefills n s q) (hm : m ≤ n) :
    OutsideRefills m s q := h.imp_left hm.trans

/-- A bit that no refill reaches is kept by one, and stays out of reach (R124). -/
theorem refillPairs_beyond {q : Nat} {s : State} (h : BeyondSource s q) :
    pairBit (refillPairs s) q = pairBit s q ∧ BeyondSource (refillPairs s) q := by
  obtain ⟨taken, eos, cs, ps, e, hfront, hle, -, hended, -⟩ := rdBytes_spec .pair s.params.block s
  have hr : refillPairs s = ((afterRead .pair 0 taken eos cs ps s).setPLen taken.length).setPBits 0 := by
    unfold refillPairs; rw [e]
  have hbit : pairBit (refillPairs s) q = (bitsOfBytes taken)[q]?.getD (pairBit s q) := by
    rw [hr]; exact pairBit_afterRead_eq taken eos cs ps s q
  have hbits : (bitsOfBytes taken).length = 8 * taken.length := length_flatMap_bitsOfByte taken
  have hheld : taken.length ≤ s.source.length := by
    rw [hfront, List.length_take]
    exact Nat.min_le_right _ _
  have hreach : 8 * taken.length ≤ q := by
    rcases h with h | h
    · obtain ⟨rfl, -⟩ := hended h
      simp
    · omega
  rw [hbit, List.getElem?_eq_none (by omega)]
  refine ⟨rfl, ?_⟩
  rw [hr]
  refine h.imp (fun h => (hended h).2.1) fun h => le_trans ?_ h
  show 8 * min s.params.block (s.source.drop taken.length).length ≤ _
  rw [List.length_drop]
  omega

theorem getBit_outside {n q : Nat} {s : State} (h : s.pBits ≤ 8 * s.pLen) (hq : OutsideRefills (n + 1) s q) :
    pairBit (getBit s).2 q = pairBit s q ∧ OutsideRefills n (getBit s).2 q := by
  rcases h.lt_or_eq with hlt | he
  · rw [getBit_of_prefetched hlt]
    refine ⟨rfl, hq.imp_left fun hn => ?_⟩
    show n ≤ 8 * s.pLen - (s.pBits + 1)
    omega
  · obtain ⟨hbit, hbeyond⟩ := refillPairs_beyond (hq.resolve_left (by omega))
    rw [getBit_of_empty he]
    split <;> exact ⟨hbit, .inr hbeyond⟩

theorem readBits_outside (n : Nat) {m q : Nat} {s : State} (h : s.pBits ≤ 8 * s.pLen) (hl : s.pLen ≤ s.params.block)
    (hq : OutsideRefills (n + m) s q) :
    pairBit (readBits n s).2 q = pairBit s q ∧ OutsideRefills m (readBits n s).2 q := by
  induction n generalizing s with
  | zero => exact ⟨rfl, hq.mono (by omega)⟩
  | succ n ih =>
    obtain ⟨hi, hlen⟩ := getBit_bounds s h hl
    obtain ⟨hbit, hq'⟩ := getBit_outside (n := n + m) h (hq.mono (by omega))
    rw [readBits_succ]
    cases (getBit s).1 with
    | none => exact ⟨hbit, hq'.mono (by omega)⟩
    | some b =>
      obtain ⟨hrest, hq''⟩ := ih hi ((getBit_frame s).params ▸ hlen) hq'
      exact ⟨hrest.trans hbit, hq''⟩

theorem rdPair_outside (w : Nat) {q : Nat} {s : State} (h : s.pBits ≤ 8 * s.pLen) (hl : s.pLen ≤ s.params.block)
    (hq : OutsideRefills (w + 8) s q) : pairBit (rdPair w s).2 q = pairBit s q := by
  obtain ⟨hi, hlen⟩ := readBits_bounds w s h hl
  obtain ⟨hcode, hq'⟩ := readBits_outside w h hl hq
  rw [rdPair_eq]
  cases (readBits w s).1 with
  | none => exact hcode
  | some code =>
    exact (readBits_outside 8 (m := 0) hi ((readBits_frame w s).params ▸ hlen) hq').1.trans hcode

theorem exec_rdPair (w : Nat) {s : State} (h : s.pBits ≤ 8 * s.pLen) (hl : s.pLen ≤ s.params.block) :
    exec (.rdPair w) s = .next ((rdPair w s).2.setResult (pairResult (rdPair w s).1)) :=
  if_pos ((pairReadOk_iff s).2 ⟨h, hl⟩)

theorem PairInFrame.setResult {s t : State} (h : PairInFrame s t) (r : OpResult) :
    PairInFrame (s.setResult r) (t.setResult r) := congrArg (State.setResult · r) h

/-- Settles O17: the code's bits are read, then the symbol's, each through the refills that are needed. -/
theorem rdPairReadsRecord : Obligations.RdPairReadsRecord := by
  intro w s h hl hb
  obtain ⟨hi, hlen⟩ := rdPair_bounds w s h hl
  refine ⟨_, exec_rdPair w h hl, (rdPair_frame w s).setResult _, hi, hlen, fun q hq => rdPair_outside w h hl hq,
    fun hc => ?_⟩
  obtain ⟨hread, -, hcontract⟩ := rdPair_spec w s h hl hb hc
  refine ⟨hcontract, pendingBits_rdPair w h hl hb hc, ?_⟩
  rw [State.setResult_result, hread]
  split <;> rfl

end Sys2Proof.Machine
end

section
/-! The trie encoder (42_trie_encoder.md): what a symbol does on a link and without one (O24, O25, O34), the end of the
input (O26), the trie's reset (O27), and what one step of the encoder selects (O44). -/

namespace Sys2Proof.Machine

/-! A symbol on a link, and the preconditions. -/

section
variable {s : State} {x : Symbol} {c : Nat}

/-- ENC_SYM on a link is its hit (R151). -/
theorem exec_encSym_of_some (hc : childAt s s.cur x = some c) : exec (.encSym x) s = .next (hit x c s) := by
  show execEncSym x s = _
  rw [execEncSym, hc]

/-- ENC_SYM.HIT meets its precondition (R152). -/
theorem exec_encSymHit_of_some (hc : childAt s s.cur x = some c) : exec (.encSymHit x) s = .next (hit x c s) := by
  show execEncSymHit x s = _
  rw [execEncSymHit, hc]

/-- ENC_SYM.HIT against its precondition (R152, log 17). -/
theorem exec_encSymHit_of_none (hc : childAt s s.cur x = none) : exec (.encSymHit x) s = .fault .hitWithoutChild := by
  show execEncSymHit x s = _
  rw [execEncSymHit, hc]

/-- ENC_SYM.MISS against its precondition (R153, log 17). -/
theorem exec_encSymMiss_of_some (hc : childAt s s.cur x = some c) :
    exec (.encSymMiss x) s = .fault .missWithChild := by
  show execEncSymMiss x s = _
  rw [execEncSymMiss, hc]

end

/-- Settles O24: both operations are the hit, which writes the three registers. -/
theorem encSymHitDescends : Obligations.EncSymHitDescends :=
  fun _ _ _ hc => ⟨exec_encSym_of_some hc, exec_encSymHit_of_some hc⟩

/-- Settles O34: the two cases of ENC_SYM test the link, and DEC_PAIR of a dead code takes the fault's one entry. -/
theorem preconditionsDecide : Obligations.PreconditionsDecide := by
  refine fun x code s => ⟨exec_encSymHit_of_none, fun hc => ?_, fun hw => ?_⟩
  · obtain ⟨c, hc⟩ := Option.ne_none_iff_exists'.1 hc
    exact exec_encSymMiss_of_some hc
  · exact exec_of_raisesBadCode (.inr (.inr ⟨hw, x, .inr rfl⟩))

/-- Settles O27: no link is listed after it. -/
theorem trieResetClears : Obligations.TrieResetClears := fun s => ⟨trieReset s, rfl, childAt_nil _ rfl, rfl⟩

/-! A pair packed, and the trie registers written beside it. -/

/-- `t` is `s` but for the trie, the position in it, the last symbol and the code counter. -/
def TrieFrame (s t : State) : Prop :=
  t = { s with child := t.child, cur := t.cur, lastSym := t.lastSym, nextCode := t.nextCode }

/-- What is appended to PAIRBUF and the sink stays appended as the trie is written. -/
theorem Writer.Appends.beside_trie {xs : List Bool} {pushed : List (List Byte)} {s t u : State}
    (h : pairWriter.Appends xs pushed s t) (e : TrieFrame t u) : pairWriter.Appends xs pushed s u := by
  rw [e]
  exact ⟨h.params, h.content, h.room, h.sink, h.whole, h.count, h.bytesOut, h.kept⟩

/-- The pushes of whole buffers, counted in bytes. -/
theorem Writer.Appends.length_flatten {α : Type} {W : Writer α} {xs : List α} {pushed : List (List Byte)}
    {s t : State} (h : W.Appends xs pushed s t) : pushed.flatten.length = s.params.block * pushed.length := by
  rw [List.length_flatten, List.map_eq_replicate_iff.2 h.whole, List.sum_replicate, smul_eq_mul, Nat.mul_comm]

/-! A symbol without a link. -/

/-- ENC_SYM.MISS writes its pair and the trie registers (R153). -/
theorem miss_trieFrame (x : Symbol) (s : State) : TrieFrame (wrPair s.cur x (recordWidth s) s) (miss x s) := by
  rw [miss_eq]
  generalize wrPair s.cur x (recordWidth s) s = u
  split <;> rfl

/-- ENC_SYM.MISS leaves the symbol as the last one and the root as the position (R153). -/
theorem miss_position (x : Symbol) (s : State) :
    (miss x s).lastSym = x ∧ (miss x s).cur = s.params.emptyCode := by
  rw [miss_eq]
  generalize wrPair s.cur x (recordWidth s) s = u
  split <;> exact ⟨rfl, rfl⟩

/-- Below the capacity ENC_SYM.MISS adds one link (R153). -/
theorem childAt_miss_of_room (x : Symbol) {s : State} (h : s.nextCode + 1 ≠ s.params.maxCode) (n : Nat) (y : Symbol) :
    childAt (miss x s) n y = if s.cur = n ∧ x = y then some s.nextCode else childAt s n y := by
  rw [miss_eq, if_neg h]
  generalize wrPair s.cur x (recordWidth s) s = u
  exact childAt_set s s.cur n s.nextCode x y

/-- At the capacity ENC_SYM.MISS clears the trie (R153). -/
theorem childAt_miss_of_full (x : Symbol) {s : State} (h : s.nextCode + 1 = s.params.maxCode) (n : Nat) (y : Symbol) :
    childAt (miss x s) n y = none := by
  rw [miss_eq, if_pos h]
  generalize wrPair s.cur x (recordWidth s) s = u
  exact childAt_nil _ rfl n y

theorem runMiss_of_room (x : Symbol) {s : State} (hb : s.pBits < 8 * s.params.block) (hu : s.cur < s.params.maxCode)
    (hn : s.nextCode < s.params.maxCode) : runMiss x s = .next (miss x s) := by
  rw [runMiss, if_neg (by simp [pairStoreOk, hb]), if_pos (by simp [codeOk, hu, hn])]

/-- ENC_SYM.MISS leaves everything but the pair's registers and the trie's (R153). -/
theorem miss_frame (x : Symbol) (s : State) : miss x s =
    { s with pairBuf := (miss x s).pairBuf, pBits := (miss x s).pBits, sink := (miss x s).sink,
             bytesOut := (miss x s).bytesOut, child := (miss x s).child, lastSym := (miss x s).lastSym,
             cur := (miss x s).cur, nextCode := (miss x s).nextCode } := by
  have hpair := wrPair_frame s.cur x (recordWidth s) s
  have htrie := miss_trieFrame x s
  generalize wrPair s.cur x (recordWidth s) s = u at hpair htrie
  generalize miss x s = t at htrie ⊢
  rw [hpair] at htrie
  rw [htrie]

/-- Settles O25: the pair is appended, and the trie is written beside it. -/
theorem encSymMissEmits : Obligations.EncSymMissEmits := by
  intro x s hc hb hu hn
  have hexec := runMiss_of_room x hb hu hn
  obtain ⟨pushed, hpair⟩ := wrPair_appends s.cur x (recordWidth s) hb
  have happ := hpair.beside_trie (miss_trieFrame x s)
  obtain ⟨-, hcode, -⟩ := miss_control x s
  obtain ⟨hlast, hcur⟩ := miss_position x s
  have hroom := childAt_miss_of_room x (s := s)
  have hfull := childAt_miss_of_full x (s := s)
  have hframe := miss_frame x s
  generalize miss x s = t at hexec happ hcode hlast hcur hroom hfull hframe
  refine ⟨t, pushed, (exec_encSym_of_none hc).trans hexec, (exec_encSymMiss_of_none hc).trans hexec, happ.content,
    happ.room, happ.sink, happ.whole, ?_, hlast, hcur, fun h => ⟨?_, ?_, fun n y hne => ?_⟩,
    fun h => ⟨hcode.trans (if_pos h), hfull h⟩, fun a ha => happ.kept a fun j hj => ha j ?_, hframe⟩
  · rw [happ.bytesOut, happ.length_flatten]
  · exact hcode.trans (if_neg h.ne)
  · rw [hroom h.ne, if_pos ⟨rfl, rfl⟩]
  · rw [hroom h.ne, if_neg fun e => hne.elim (· e.1.symm) (· e.2.symm)]
  · simpa [recordWidth] using hj

/-! The end of the input. -/

theorem finalFlush_of_root {s : State} (h : s.cur = s.params.emptyCode) : finalFlush s = s := if_pos h

/-- Mid-match the final flush writes its pair and the trie registers (R155). -/
theorem finalFlush_trieFrame {s : State} (h : s.cur ≠ s.params.emptyCode) :
    TrieFrame (wrPair s.prev s.lastSym (recordWidth s) s) (finalFlush s) := by
  rw [finalFlush_eq, if_neg h]
  generalize wrPair s.prev s.lastSym (recordWidth s) s = u
  split <;> rfl

/-- Mid-match the final flush counts up (R156). -/
theorem finalFlush_nextCode {s : State} (h : s.cur ≠ s.params.emptyCode) : (finalFlush s).nextCode = countUp s := by
  rw [finalFlush_eq, if_neg h, countUp]
  split <;> rfl

/-- What the final flush packs, and the counter it leaves: nothing at the root, the pair of the match otherwise (R155,
R156). -/
theorem finalFlush_packs {s : State} (hb : s.pBits < 8 * s.params.block) :
    ∃ final, packedBits (finalFlush s) = packedBits s ++ final ∧
      (s.cur = s.params.emptyCode → final = [] ∧ (finalFlush s).nextCode = s.nextCode) ∧
      (s.cur ≠ s.params.emptyCode → final = bitsLE (bitlen s.nextCode) s.prev ++ bitsOfByte s.lastSym ∧
        (finalFlush s).nextCode = countUp s) := by
  by_cases hroot : s.cur = s.params.emptyCode
  · rw [finalFlush_of_root hroot]
    exact ⟨[], by simp, fun _ => ⟨rfl, rfl⟩, fun hne => absurd hroot hne⟩
  · obtain ⟨pushed, hpair⟩ := wrPair_appends s.prev s.lastSym (recordWidth s) hb
    exact ⟨_, (hpair.beside_trie (finalFlush_trieFrame hroot)).content, fun h => absurd h hroot,
      fun _ => ⟨rfl, finalFlush_nextCode hroot⟩⟩

/-- The STOP pair and the flush send what is packed, the pair, and fewer than 8 zeros to complete its byte (R155,
R157). -/
theorem endOfInput_stream {s : State} (hb : s.pBits < 8 * s.params.block) :
    ∃ pad, pad < 8 ∧ bitsOfBytes (sinkBytes (endOfInput s)) = packedBits (finalFlush s) ++
      (bitsLE (bitlen (finalFlush s).nextCode) s.params.stopCode ++ bitsOfByte 0) ++ List.replicate pad false := by
  obtain ⟨hparams, hroom⟩ := finalFlush_bounds hb
  rw [← hparams] at hroom ⊢
  unfold endOfInput
  generalize finalFlush s = f at hroom ⊢
  obtain ⟨hpair, -⟩ := wrPair_spec f.params.stopCode 0 (recordWidth f) f hroom
  simp only
  generalize wrPair f.params.stopCode 0 (recordWidth f) f = u at hpair ⊢
  obtain ⟨hflush, -⟩ := flushPairs_spec u
  refine ⟨8 * ((u.pBits + 7) / 8) - u.pBits, by omega, ?_⟩
  rw [hpair] at hflush
  exact hflush

/-- ENC_EOS leaves everything but the phase, the sink, BYTES_OUT and the state R46 calls unspecified. -/
theorem endOfInput_frame (s : State) :
    DeadFrame { s with phase := .done, sink := (endOfInput s).sink, bytesOut := (endOfInput s).bytesOut }
      (endOfInput s) := by
  have hfinal : DeadFrame { s with sink := (finalFlush s).sink, bytesOut := (finalFlush s).bytesOut }
      (finalFlush s) := by
    by_cases hroot : s.cur = s.params.emptyCode
    · rw [finalFlush_of_root hroot]
      rfl
    · have hpair := wrPair_frame s.prev s.lastSym (recordWidth s) s
      have htrie := finalFlush_trieFrame hroot
      generalize wrPair s.prev s.lastSym (recordWidth s) s = u at hpair htrie
      rw [hpair] at htrie
      rw [htrie]
      rfl
  unfold endOfInput
  generalize finalFlush s = f at hfinal
  have hstop := (wrPair_frame f.params.stopCode 0 (recordWidth f) f).trans (flushPairs_frame _)
  simp only
  generalize flushPairs (wrPair f.params.stopCode 0 (recordWidth f) f) = u at hstop
  rw [hfinal] at hstop
  rw [hstop]
  rfl

theorem exec_encEos_of_room {s : State} (hb : s.pBits < 8 * s.params.block)
    (h : s.cur = s.params.emptyCode ∨ s.nextCode < s.params.maxCode) : exec .encEos s = .next (endOfInput s) := by
  show execEncEos s = _
  rw [execEncEos, if_neg (by simp [pairStoreOk, hb]), if_pos (by simpa [codeOk] using h)]

/-- Settles O26: the pairs and the flush make the stream, and the pushes are those of a transfer. -/
theorem encEosFinishes : Obligations.EncEosFinishes := by
  intro s hb h
  obtain ⟨final, hfinal, hroot, hmatch⟩ := finalFlush_packs hb
  obtain ⟨pad, hpad, hstream⟩ := endOfInput_stream hb
  obtain ⟨pushed, asked, hports⟩ := endOfInput_forward hb
  have hframe := endOfInput_frame s
  rw [hports.bytesOut] at hframe
  refine ⟨endOfInput s, pushed, pad, final, (finalFlush s).nextCode, exec_encEos_of_room hb h, hroot, hmatch, ?_, hpad,
    hports.sink, hports.push_size, hframe⟩
  rw [hstream, hfinal, List.append_assoc (packedBits s)]

/-! One step of the encoder. -/

/-- Settles O44: RD_SYM hands out the next pending symbol or finds none, and the end of the input never stops. -/
theorem encoderStepSelects : Obligations.EncoderStepSelects := by
  intro s h hp ht hc
  have hbusy := busy_of_encRun hp
  have hi := h.bounds.sym_low hbusy
  have hl := h.bounds.sym_high hbusy
  obtain ⟨-, -, -, hB, -⟩ := Params.codes h.params
  have hf := rdSym_frame (s.setMoves s.moves.tail)
  obtain ⟨hread, hrest, hcontract, -⟩ := rdSym_spec (s.setMoves s.moves.tail) hi hl hB hc
  rw [pendingSyms_setMoves] at hread hrest
  refine ⟨_, hf, hcontract, hrest, fun x rest hpend => ?_, fun hpend => ?_⟩
  · rw [hpend] at hread
    exact step_of_rdSym ht hp hi hl hread
  · rw [hpend] at hread
    have hstep := step_of_rdSym_none ht hp hi hl hread
    have hend := exec_encEos_of_inv ((h.setMoves s.moves.tail).rdSym hp) (hf.phase.trans hp)
    exact ⟨hstep, _, hstep.trans hend, rfl⟩

end Sys2Proof.Machine
end

section
/-! The word-table decoder (43_word_table_decoder.md): what a pair record appends (O29), the two ends of a decode (O30,
O31) and the table's reset (O33). -/

namespace Sys2Proof.Machine

/-! The table's reset. -/

/-- Settles O33: a slot is read after the reset as the law of WT_RESET says. -/
theorem wtResetClears : Obligations.WtResetClears := fun s =>
  ⟨wtReset s, rfl, fun c hc => (wordAt_wtReset s c).trans (if_neg hc), (wordAt_wtReset s _).trans (if_pos rfl), rfl⟩

/-! The ends of a decode. -/

/-- The bytes buffered go out in one push where there are any, and the run is over (R129, R172). -/
theorem stop_deadFrame (s : State) :
    (s.sLen = 0 → DeadFrame { s with phase := .done } (stop s)) ∧
    (0 < s.sLen → DeadFrame { s with
      phase := .done
      sink := s.sink ++ [(List.range s.sLen).map (symByte s)]
      bytesOut := s.bytesOut + BitVec.ofNat 64 s.sLen } (stop s)) := by
  constructor
  · intro h
    rw [stop, flushSyms_of_empty h]
    exact endRun_frame .done s
  · intro h
    rw [stop, flushSyms_of_pos h]
    exact endRun_frame .done ((wrBytes .sym s.sLen s).setSLen 0)

theorem runStop_of_room {s : State} (h : s.sLen ≤ s.params.block) : runStop s = .next (stop s) := if_pos h

/-- Settles O30: every STOP record has the one meaning. -/
theorem stopRecordFinishes : Obligations.StopRecordFinishes := by
  intro i s hi hl
  have hexec : exec i s = runStop s := by
    rcases hi with ⟨w, x, hi⟩ | rfl
    · exact exec_of_stopRecord hi s
    · rfl
  exact ⟨stop s, hexec.trans (runStop_of_room hl), stop_deadFrame s⟩

/-- DEC_TRUNC is the end of DEC_STOP after its report (R172, R175). -/
theorem truncate_eq_stop (s : State) : truncate s = stop (s.setReport true causeTruncated 0) := rfl

/-- Settles O31: the report is written, and the run ends as by DEC_STOP. -/
theorem truncationReports : Obligations.TruncationReports := by
  intro s hl
  have hexec : exec .decTrunc s = .next (truncate s) := if_pos hl
  exact ⟨_, hexec, truncate_eq_stop s ▸ stop_deadFrame (s.setReport true causeTruncated 0)⟩

/-! A word appended, and the word table and the counter written beside it. -/

/-- `t` is `s` but for the word table and the code counter. -/
def WordFrame (s t : State) : Prop := t = { s with wt := t.wt, nextCode := t.nextCode }

/-- What is appended to SYMBUF and the sink is appended whatever the word table and the counter are, before and
after. -/
theorem Writer.Appends.beside_words {xs : List Byte} {pushed : List (List Byte)} {s s' t u : State}
    (h : symWriter.Appends xs pushed s' t) (e : WordFrame s s') (e' : WordFrame t u) :
    symWriter.Appends xs pushed s u := by
  rw [e']
  rw [e] at h
  exact ⟨h.params, h.content, h.room, h.sink, h.whole, h.count, h.bytesOut, h.kept⟩

/-- DEC_PAIR writes its word, and beside it the table and the counter (R171). -/
theorem appendWord_wordFrame (word : List Symbol) (x : Symbol) (s : State) :
    WordFrame (wrRun (word ++ [x]) (s.setWt (s.wt.set s.nextCode (word ++ [x])))) (appendWord word x s) := by
  rw [appendWord_eq]
  generalize wrRun (word ++ [x]) (s.setWt (s.wt.set s.nextCode (word ++ [x]))) = u
  split <;> rfl

theorem appendWord_appends (word : List Symbol) (x : Symbol) {s : State} (h : s.sLen < s.params.block) :
    ∃ pushed, symWriter.Appends (word ++ [x]) pushed s (appendWord word x s) := by
  obtain ⟨pushed, hrun⟩ := wrRun_appends (word ++ [x]) (s := s.setWt (s.wt.set s.nextCode (word ++ [x]))) h
  exact ⟨pushed, hrun.beside_words rfl (appendWord_wordFrame word x s)⟩

/-- DEC_PAIR leaves everything but the symbol writer's registers, the word table and the counter (R171). -/
theorem appendWord_frame (word : List Symbol) (x : Symbol) (s : State) : appendWord word x s =
    { s with symBuf := (appendWord word x s).symBuf, sLen := (appendWord word x s).sLen,
             sink := (appendWord word x s).sink, bytesOut := (appendWord word x s).bytesOut,
             wt := (appendWord word x s).wt, nextCode := (appendWord word x s).nextCode } := by
  have hrun := wrRun_frame (word ++ [x]) (s.setWt (s.wt.set s.nextCode (word ++ [x])))
  have hwords := appendWord_wordFrame word x s
  generalize wrRun (word ++ [x]) (s.setWt (s.wt.set s.nextCode (word ++ [x]))) = u at hrun hwords
  generalize appendWord word x s = t at hwords ⊢
  rw [hrun] at hwords
  rw [hwords]
  rfl

/-- The word of each code that has one (R33). -/
abbrev WordTable := Nat → Option (List Symbol)

/-- The words of a table `D` after `word` has been stored at code `n` and the counter advanced: at the capacity every
slot but EMPTY_CODE's is cleared (R171, R173, R192). -/
def learn (p : Params) (n : Nat) (word : List Symbol) (D : WordTable) : WordTable := fun c =>
  if n + 1 = p.maxCode ∧ c ≠ p.emptyCode then none else if n = c then some word else D c

section
variable {p : Params} {n : Nat} {word : List Symbol} {D : WordTable}

theorem learn_of_room (h : n + 1 ≠ p.maxCode) (c : Nat) : learn p n word D c = if n = c then some word else D c :=
  if_neg fun hc => h hc.1

theorem learn_of_full (h : n + 1 = p.maxCode) {c : Nat} (hc : c ≠ p.emptyCode) : learn p n word D c = none :=
  if_pos ⟨h, hc⟩

/-- The empty word's slot is kept, where it is not the one stored to. -/
theorem learn_emptyCode (h : p.emptyCode ≠ n) : learn p n word D p.emptyCode = D p.emptyCode :=
  (if_neg fun hc => hc.2 rfl).trans (if_neg h.symm)

end

/-- The word table after DEC_PAIR (R171). -/
theorem wordAt_appendWord (word : List Symbol) (x : Symbol) (s : State) :
    wordAt (appendWord word x s) = learn s.params s.nextCode (word ++ [x]) (wordAt s) := by
  have hrun := wrRun_frame (word ++ [x]) (s.setWt (s.wt.set s.nextCode (word ++ [x])))
  funext c
  rw [appendWord_eq]
  generalize wrRun (word ++ [x]) (s.setWt (s.wt.set s.nextCode (word ++ [x]))) = u at hrun
  have hparams : u.params = s.params := by rw [hrun]; rfl
  have hstored : wordAt u c = if s.nextCode = c then some (word ++ [x]) else wordAt s c := by
    rw [hrun]
    exact wordAt_set s s.nextCode c (word ++ [x])
  split
  · rename_i hfull
    rw [wordAt_wtReset, State.setNextCode_params, hparams]
    split
    · rename_i hc
      rw [learn, if_neg fun h => h.2 hc]
      exact hstored
    · rename_i hc
      rw [learn_of_full hfull hc]
  · rename_i hroom
    rw [learn_of_room hroom]
    exact hstored

theorem runPair_of_room {code : Nat} {word : List Symbol} {s : State} (x : Symbol) (hw : wordAt s code = some word)
    (hn : s.nextCode < s.params.maxCode) (hl : s.sLen < s.params.block) :
    runPair code x s = .next (appendWord word x s) := by
  rw [runPair, hw]
  simp [(codeOk_iff s).2 hn, (symStoreOk_iff s).2 hl]

/-- Settles O29: every PAIR record has the one meaning, which appends the word and stores it beside. -/
theorem pairRecordAppendsWord : Obligations.PairRecordAppendsWord := by
  intro i code x word s hi hw hn hl
  have hexec : exec i s = runPair code x s := by
    rcases hi with ⟨w, hi⟩ | rfl
    · exact exec_of_pairRecord hi s
    · rfl
  rw [runPair_of_room x hw hn hl] at hexec
  obtain ⟨pushed, happ⟩ := appendWord_appends word x hl
  obtain ⟨-, hcode, -⟩ := appendWord_control word x s
  have hwords := wordAt_appendWord word x s
  have hframe := appendWord_frame word x s
  generalize appendWord word x s = t at hexec happ hcode hwords hframe
  refine ⟨t, pushed, hexec, happ.content, happ.room, happ.sink, happ.whole, ?_, fun h => ⟨?_, ?_, fun c hc => ?_⟩,
    fun h => ⟨hcode.trans (if_pos h), fun c hc => ?_, fun he => ?_⟩, fun a ha => happ.kept a fun j hj => ha j ?_,
    hframe⟩
  · rw [happ.bytesOut, happ.length_flatten]
  · exact hcode.trans (if_neg h.ne)
  · rw [hwords, learn_of_room h.ne, if_pos rfl]
  · rw [hwords, learn_of_room h.ne, if_neg hc.symm]
  · rw [hwords, learn_of_full h hc]
  · rw [hwords, learn_emptyCode he]
  · simpa using hj

end Sys2Proof.Machine
end

section
/-! The round trip (O55). `Spells` says which bits spell which bytes, with no machine in it. The proof is two runs: an
encode sends bits that spell its source, since its trie's links are the words of the table the bits build; and a decode
writes what its bits spell, since its word table is that table (R176 to R178). -/

namespace Sys2Proof.Machine

/-! What bits spell (R64, R91, R96). -/

/-- The code counter after ADVANCE (R192). -/
def counted (p : Params) (n : Nat) : Nat := if n + 1 = p.maxCode then p.startCode else n + 1

theorem countUp_eq_counted (s : State) : countUp s = counted s.params s.nextCode := rfl

theorem counted_range {p : Params} (hp : p.wf = true) {n : Nat} (h : p.startCode ≤ n ∧ n < p.maxCode) :
    p.startCode ≤ counted p n ∧ counted p n < p.maxCode := by
  obtain ⟨-, -, hmax, -⟩ := Params.codes hp
  unfold counted
  split <;> omega

/-- Read with the counter at `n` and the words of the table `D`, the bits are records up to a STOP, and the words of
their pairs, each learnt before the next, are the bytes. What follows the STOP is any bits (R81, R157). -/
inductive Spells (p : Params) : Nat → WordTable → List Bool → List Symbol → Prop where
  | stop {n : Nat} {D : WordTable} (x : Symbol) (rest : List Bool) (fits : p.stopCode < 2 ^ bitlen n) :
      Spells p n D (bitsLE (bitlen n) p.stopCode ++ bitsOfByte x ++ rest) []
  | pair {n code : Nat} {D : WordTable} {word out : List Symbol} {x : Symbol} {rest : List Bool}
      (room : n < p.maxCode) (fits : code < 2 ^ bitlen n) (ne_stop : code ≠ p.stopCode) (names : D code = some word)
      (next : Spells p (counted p n) (learn p n (word ++ [x]) D) rest out) :
      Spells p n D (bitsLE (bitlen n) code ++ bitsOfByte x ++ rest) (word ++ [x] ++ out)

/-- What bits spell does not depend on BLOCK (R275). -/
theorem Spells.withBlock {p : Params} {n : Nat} {D : WordTable} {bits : List Bool} {out : List Symbol}
    (h : Spells p n D bits out) (b : Nat) : Spells { p with block := b } n D bits out := by
  induction h with
  | stop x rest fits => exact .stop x rest fits
  | pair room fits ne_stop names _ ih => exact .pair room fits ne_stop names ih

/-- The words at the start of a run: the empty one alone (R213). -/
def rootWord (p : Params) : WordTable := fun c => if p.emptyCode = c then some [] else none

/-! The encoder's side: the trie's links as words. -/

/-- A live code fits the field of a record, and is not STOP_CODE (R97, R99). -/
theorem Live.fits {s : State} {c : Nat} (hc : Live s c) (hp : s.params.wf = true)
    (hlow : s.params.startCode ≤ s.nextCode) : c < 2 ^ bitlen s.nextCode ∧ c ≠ s.params.stopCode := by
  obtain ⟨hempty, hstop, -, -, hne, -⟩ := Params.codes hp
  refine ⟨(hc.lt_nextCode hp hlow).trans (lt_two_pow_bitlen (by omega)), ?_⟩
  rcases hc with rfl | ⟨hc, -⟩ <;> omega

/-- The trie of `s` hangs the words of `D` together: a link leads to its node's word with its symbol appended (R31,
R34). -/
structure TrieSpells (D : WordTable) (s : State) : Prop where
  root : D s.params.emptyCode = some []
  link : ∀ n x c, childAt s n x = some c → ∃ w, D n = some w ∧ D c = some (w ++ [x])

theorem TrieSpells.congr {D : WordTable} {s t : State} (h : TrieSpells D s) (hp : t.params = s.params)
    (hc : t.child = s.child) : TrieSpells D t :=
  ⟨hp ▸ h.root, by rw [childAt_congr hc]; exact h.link⟩

/-- ENC_SYM.MISS keeps the trie: the new node hangs at the current one, or the root alone is left (R153). -/
theorem TrieInv.miss {s : State} (h : TrieInv s) (hlow : s.params.startCode ≤ s.nextCode) {x : Symbol}
    (hx : childAt s s.cur x = none) : TrieInv (miss x s) := by
  have hp : (Machine.miss x s).params = s.params := by rw [miss_frame]
  obtain ⟨-, hcode, -⟩ := miss_control x s
  obtain ⟨-, hcur⟩ := miss_position x s
  by_cases hfull : s.nextCode + 1 = s.params.maxCode
  · refine .root ?_ (by rw [hcode, hp, countUp, if_pos hfull]) (by rw [hcur, hp])
    rw [miss_eq, if_pos hfull]
    rfl
  · exact h.grow hp hlow hx hcur (hcode.trans (if_neg hfull)) (childAt_miss_of_room x hfull)

/-- ENC_SYM.MISS hangs the word it has emitted at its new code, as the table learns it (R153, R171). -/
theorem TrieSpells.miss {D : WordTable} {s : State} (h : TrieSpells D s) (ht : TrieInv s) (hp : s.params.wf = true)
    (hlow : s.params.startCode ≤ s.nextCode) {word : List Symbol} {x : Symbol}
    (hw : D s.cur = some word) : TrieSpells (learn s.params s.nextCode (word ++ [x]) D) (miss x s) := by
  have hparams : (Machine.miss x s).params = s.params := by rw [miss_frame]
  obtain ⟨hempty, -⟩ := Params.codes hp
  refine ⟨?_, fun n y c hc => ?_⟩
  · rw [hparams, learn_emptyCode (by omega)]
    exact h.root
  by_cases hfull : s.nextCode + 1 = s.params.maxCode
  · rw [childAt_miss_of_full x hfull] at hc
    cases hc
  have old : ∀ m, m < s.nextCode → learn s.params s.nextCode (word ++ [x]) D m = D m := fun m hm =>
    (learn_of_room hfull m).trans (if_neg hm.ne')
  rw [childAt_miss_of_room x hfull] at hc
  split at hc
  · rename_i e
    obtain ⟨rfl, rfl⟩ := e
    cases hc
    exact ⟨word, (old _ (ht.cur_live.lt_nextCode hp hlow)).trans hw, (learn_of_room hfull _).trans (if_pos rfl)⟩
  · obtain ⟨hn, -, hcode, -⟩ := ht.link n y c hc
    rw [old n (hn.lt_nextCode hp hlow), old c hcode]
    exact h.link n y c hc

/-- The empty trie hangs the root's word together with nothing. -/
theorem TrieSpells.of_root {s : State} (hc : s.child = []) : TrieSpells (rootWord s.params) s :=
  ⟨if_pos rfl, fun n x c h => by rw [childAt_nil s hc] at h; cases h⟩

/-! A run of the encoder. -/

/-- A state of an encode whose host makes no move and keeps its contract. -/
structure Encoding (s : State) : Prop where
  phase : s.phase = .encRun
  moves : s.moves = []
  params : s.params.wf = true
  code : s.params.startCode ≤ s.nextCode ∧ s.nextCode < s.params.maxCode
  syms : s.sIdx ≤ s.sLen ∧ s.sLen ≤ s.params.block
  bits : s.pBits < 8 * s.params.block
  host : HostKeepsContract s
  /-- With this host the end is seen only where the source is empty (R66). -/
  ended : s.srcEos = true → s.source = []
  trie : TrieInv s

/-- With no move of the host pending a step takes none. -/
theorem setMoves_tail_of_nil {s : State} (h : s.moves = []) : s.setMoves s.moves.tail = s := by
  rw [h, List.tail_nil, setMoves_self h]

/-- From a host that keeps its contract RD_BYTES sees the end only where the source is empty (R66, R120). -/
theorem rdBytes_ended (buf : Buf) {n : Nat} {s : State} (hc : HostKeepsContract s)
    (h : s.srcEos = true → s.source = []) (ht : (rdBytes buf n s).2.srcEos = true) :
    (rdBytes buf n s).2.source = [] := by
  obtain ⟨taken, eos, cs, ps, hread, -, -, -, -, hhost⟩ := rdBytes_spec buf n s
  rw [hread] at ht ⊢
  simp only [afterRead, State.setSource_srcEos, State.setBytesIn_srcEos, State.setSrcEos_srcEos] at ht
  simp only [afterRead, State.setSource_source]
  cases he : s.srcEos with
  | true => rw [h he, List.drop_nil]
  | false =>
    obtain ⟨htaken, hshort⟩ := (hhost hc).2 he
    have hlen := hshort.1 ht
    rw [htaken, List.take_of_length_le hlen.le, List.drop_length]

theorem rdSym_ended {s : State} (hc : HostKeepsContract s) (h : s.srcEos = true → s.source = []) :
    (rdSym s).2.srcEos = true → (rdSym s).2.source = [] := by
  have hfill : (refillSyms s).srcEos = true → (refillSyms s).source = [] := rdBytes_ended .sym hc h
  unfold rdSym
  split
  · simp only
    split <;> exact hfill
  · exact h

/-- RD_SYM leaves a state of the encode (R122). -/
theorem Encoding.rdSym {s : State} (h : Encoding s) : Encoding (rdSym s).2 := by
  obtain ⟨-, -, -, hB, -⟩ := Params.codes h.params
  have hf := rdSym_frame s
  obtain ⟨-, -, hhost, hidx, hlen⟩ := rdSym_spec s h.syms.1 h.syms.2 hB h.host
  have hended := rdSym_ended h.host h.ended
  generalize (Machine.rdSym s).2 = u at hf hhost hidx hlen hended
  rw [hf] at hhost hidx hlen hended ⊢
  exact ⟨h.phase, h.moves, h.params, h.code, ⟨hidx, hlen⟩, h.bits, hhost, hended,
    h.trie.congr rfl rfl rfl rfl rfl rfl⟩

theorem SymInFrame.packedBits_eq {s t : State} (h : SymInFrame s t) : packedBits t = packedBits s := by
  rw [h]
  rfl

theorem symbolEffect_of_some {s : State} {x : Symbol} {c : Nat} (hc : childAt s s.cur x = some c) :
    symbolEffect x s = hit x c s := by
  rw [symbolEffect, hc]
  rfl

theorem symbolEffect_of_none {s : State} {x : Symbol} (hc : childAt s s.cur x = none) :
    symbolEffect x s = miss x s := by
  rw [symbolEffect, hc, Option.elim_none]

/-- The encoder's step where a symbol is pending (R150, R151). -/
theorem Encoding.step_symbol {s : State} (h : Encoding s) {x : Symbol} {xs : List Symbol}
    (hx : pendingSyms s = x :: xs) :
    step s = .next (symbolEffect x (Machine.rdSym s).2) ∧ pendingSyms (Machine.rdSym s).2 = xs := by
  obtain ⟨-, -, -, hB, -⟩ := Params.codes h.params
  obtain ⟨hread, hrest, -⟩ := rdSym_spec s h.syms.1 h.syms.2 hB h.host
  rw [hx] at hread hrest
  have hstep := step_of_rdSym (.inl h.moves) h.phase h.syms.1 h.syms.2
    (by rw [setMoves_tail_of_nil h.moves]; exact hread)
  rw [setMoves_tail_of_nil h.moves] at hstep
  refine ⟨hstep.trans ?_, hrest⟩
  have hu := h.rdSym
  generalize (Machine.rdSym s).2 = u at hu
  show exec (.encSym x) u = _
  cases hc : childAt u u.cur x with
  | some c => rw [symbolEffect_of_some hc, exec_encSym_of_some hc]
  | none =>
    have hcur := (hu.trie.cur_live.lt_nextCode hu.params hu.code.1).trans hu.code.2
    rw [symbolEffect_of_none hc, exec_encSym_of_none hc, runMiss_of_room x hu.bits hcur hu.code.2]

/-- The encoder's step where none is pending (R150, R155). -/
theorem Encoding.step_end {s : State} (h : Encoding s) (hx : pendingSyms s = []) :
    step s = .next (endOfInput (Machine.rdSym s).2) ∧ pendingSyms (Machine.rdSym s).2 = [] := by
  obtain ⟨-, -, -, hB, -⟩ := Params.codes h.params
  obtain ⟨hread, hrest, -⟩ := rdSym_spec s h.syms.1 h.syms.2 hB h.host
  rw [hx] at hread hrest
  have hstep := step_of_rdSym_none (.inl h.moves) h.phase h.syms.1 h.syms.2
    (by rw [setMoves_tail_of_nil h.moves]; exact hread)
  rw [setMoves_tail_of_nil h.moves] at hstep
  exact ⟨hstep.trans (exec_encEos_of_room h.rdSym.bits (.inr h.rdSym.code.2)), hrest⟩

theorem Encoding.source_of_end {s : State} (h : Encoding s) (hx : pendingSyms s = []) : s.source = [] := by
  cases he : s.srcEos with
  | true => exact h.ended he
  | false =>
    rw [pendingSyms, he] at hx
    exact (List.append_eq_nil_iff.1 hx).2

theorem Encoding.hit {s : State} (h : Encoding s) {x : Symbol} {c : Nat} (hc : childAt s s.cur x = some c) :
    Encoding (hit x c s) :=
  ⟨h.phase, h.moves, h.params, h.code, h.syms, h.bits, h.host, h.ended, h.trie.hit hc⟩

theorem Encoding.miss {s : State} (h : Encoding s) {x : Symbol} (hx : childAt s s.cur x = none) :
    Encoding (miss x s) := by
  obtain ⟨pushed, hpair⟩ := wrPair_appends s.cur x (recordWidth s) h.bits
  have hbits := (hpair.beside_trie (miss_trieFrame x s)).room
  obtain ⟨-, hcode, -⟩ := miss_control x s
  have hrange := counted_range h.params h.code
  rw [← countUp_eq_counted, ← hcode] at hrange
  have htrie := h.trie.miss h.code.1 hx
  have hframe := miss_frame x s
  generalize Machine.miss x s = t at hbits hrange htrie hframe
  rw [hframe] at hbits hrange htrie ⊢
  exact ⟨h.phase, h.moves, h.params, hrange, h.syms, hbits, h.host, h.ended, htrie⟩

/-- ENC_SYM.MISS packs the pair of the current node and its symbol (R153). -/
theorem packedBits_miss (x : Symbol) {s : State} (h : s.pBits < 8 * s.params.block) :
    packedBits (miss x s) = packedBits s ++ (bitsLE (bitlen s.nextCode) s.cur ++ bitsOfByte x) := by
  obtain ⟨pushed, hpair⟩ := wrPair_appends s.cur x (recordWidth s) h
  exact (hpair.beside_trie (miss_trieFrame x s)).content

/-- ENC_EOS sends bits that spell the word of the match in progress (R155, R156, R157). -/
theorem Encoding.endOfInput_spells {s : State} (h : Encoding s) {D : WordTable} (hD : TrieSpells D s)
    {word : List Symbol} (hw : D s.cur = some word) :
    ∃ B, bitsOfBytes (sinkBytes (endOfInput s)) = packedBits s ++ B ∧ Spells s.params s.nextCode D B word := by
  obtain ⟨final, hfinal, hroot, hmatch⟩ := finalFlush_packs h.bits
  obtain ⟨pad, -, hstream⟩ := endOfInput_stream h.bits
  rw [hfinal] at hstream
  by_cases hcur : s.cur = s.params.emptyCode
  · obtain ⟨rfl, hcode⟩ := hroot hcur
    obtain rfl : [] = word := Option.some.inj (hD.root.symm.trans (hcur ▸ hw))
    rw [hcode, List.append_nil, List.append_assoc (packedBits s)] at hstream
    exact ⟨_, hstream, .stop 0 _ (stopCode_lt_two_pow_bitlen h.params h.code.1)⟩
  · obtain ⟨rfl, hcode⟩ := hmatch hcur
    have hlink := h.trie.cur_link hcur
    obtain ⟨v, hprev, hv⟩ := hD.link _ _ _ hlink
    obtain rfl : v ++ [s.lastSym] = word := Option.some.inj (hv.symm.trans hw)
    obtain ⟨hlive, -⟩ := h.trie.link _ _ _ hlink
    obtain ⟨fits, hne⟩ := hlive.fits h.params h.code.1
    rw [hcode, List.append_assoc (packedBits s), List.append_assoc (packedBits s),
      List.append_assoc (bitsLE (bitlen s.nextCode) s.prev ++ bitsOfByte s.lastSym)] at hstream
    refine ⟨_, hstream, ?_⟩
    rw [← List.append_nil (v ++ [s.lastSym])]
    exact .pair h.code.2 fits hne hprev
      (.stop 0 _ (stopCode_lt_two_pow_bitlen h.params (counted_range h.params h.code).1))

/-- From `s`, which has matched `word`, to `v` the symbol `x` is taken in: `v` has matched `word'`, and the bits `r`
packed meanwhile, before bits that spell what begins with `word'`, spell what begins with `word` and `x`. -/
structure TakesIn (D : WordTable) (word : List Symbol) (x : Symbol) (D' : WordTable) (word' : List Symbol)
    (r : List Bool) (s v : State) : Prop where
  encoding : Encoding v
  trie : TrieSpells D' v
  matched : D' v.cur = some word'
  pending : pendingSyms v = pendingSyms s
  packed : packedBits v = packedBits s ++ r
  spells : ∀ B out, Spells v.params v.nextCode D' B (word' ++ out) →
    Spells s.params s.nextCode D (r ++ B) (word ++ x :: out)

/-- A hit packs nothing, and the match grows by the symbol (R152). -/
theorem Encoding.hit_takesIn {s : State} (h : Encoding s) {D : WordTable} (hD : TrieSpells D s)
    {word : List Symbol} (hw : D s.cur = some word) {x : Symbol} {c : Nat} (hc : childAt s s.cur x = some c) :
    TakesIn D word x D (word ++ [x]) [] s (Machine.hit x c s) := by
  obtain ⟨w, hcur, hnext⟩ := hD.link _ _ _ hc
  obtain rfl : w = word := Option.some.inj (hcur.symm.trans hw)
  refine ⟨h.hit hc, hD.congr rfl rfl, hnext, rfl, (List.append_nil _).symm, fun B out hB => ?_⟩
  rw [List.append_assoc] at hB
  exact hB

/-- A miss packs the match and the symbol as a pair, which the table learns, and the next match begins (R153). -/
theorem Encoding.miss_takesIn {s : State} (h : Encoding s) {D : WordTable} (hD : TrieSpells D s)
    {word : List Symbol} (hw : D s.cur = some word) {x : Symbol} (hc : childAt s s.cur x = none) :
    TakesIn D word x (learn s.params s.nextCode (word ++ [x]) D) []
      (bitsLE (bitlen s.nextCode) s.cur ++ bitsOfByte x) s (Machine.miss x s) := by
  obtain ⟨fits, hne⟩ := h.trie.cur_live.fits h.params h.code.1
  have hv := h.miss hc
  have hDv := hD.miss h.trie h.params h.code.1 (x := x) hw
  have hpacked := packedBits_miss x h.bits
  obtain ⟨-, hcode, -⟩ := miss_control x s
  obtain ⟨-, hroot⟩ := miss_position x s
  have hframe := miss_frame x s
  generalize Machine.miss x s = v at hv hDv hpacked hcode hroot hframe
  have hparams : v.params = s.params := by rw [hframe]
  have hpending : pendingSyms v = pendingSyms s := by rw [hframe]; rfl
  have hmatched := hDv.root
  rw [hparams, ← hroot] at hmatched
  refine ⟨hv, hDv, hmatched, hpending, hpacked, fun B out hB => ?_⟩
  rw [hparams, hcode] at hB
  rw [List.append_cons]
  exact .pair h.code.2 fits hne hw hB

/-- ENC_SYM takes its symbol in by either case (R151). -/
theorem Encoding.takesIn {s : State} (h : Encoding s) {D : WordTable} (hD : TrieSpells D s)
    {word : List Symbol} (hw : D s.cur = some word) (x : Symbol) :
    ∃ D' word' r, TakesIn D word x D' word' r s (symbolEffect x s) := by
  cases hc : childAt s s.cur x with
  | some c => rw [symbolEffect_of_some hc]; exact ⟨_, _, _, h.hit_takesIn hD hw hc⟩
  | none => rw [symbolEffect_of_none hc]; exact ⟨_, _, _, h.miss_takesIn hD hw hc⟩

/-- From `s` the encode ends, its source used up, and what it packs from here on spells `out`. -/
def EncodesTo (D : WordTable) (out : List Symbol) (s : State) : Prop :=
  ∃ k t B, Reaches k s t ∧ t.phase = .done ∧ t.source = [] ∧ Forward s t ∧
    bitsOfBytes (sinkBytes t) = packedBits s ++ B ∧ Spells s.params s.nextCode D B out

/-- A step that packs `r`, and then what spells the rest. -/
theorem EncodesTo.of_step {D D' : WordTable} {out out' : List Symbol} {s v : State} {r : List Bool}
    (hstep : step s = .next v) (hf : Forward s v) (hpack : packedBits v = packedBits s ++ r)
    (hspell : ∀ B, Spells v.params v.nextCode D' B out' → Spells s.params s.nextCode D (r ++ B) out)
    (h : EncodesTo D' out' v) : EncodesTo D out s := by
  obtain ⟨k, t, B, hrun, hphase, hsource, hforward, hbits, hB⟩ := h
  refine ⟨k + 1, t, r ++ B, reaches_succ hstep hrun, hphase, hsource, hf.trans hforward, ?_, hspell B hB⟩
  rw [hbits, hpack, List.append_assoc]

/-- An encode spells the word of the match in progress and then what is pending. -/
theorem Encoding.encodesTo {s : State} (h : Encoding s) {D : WordTable} (hD : TrieSpells D s)
    {word : List Symbol} (hw : D s.cur = some word) : EncodesTo D (word ++ pendingSyms s) s := by
  induction hx : pendingSyms s generalizing s D word with
  | nil =>
    obtain ⟨hstep, hrest⟩ := h.step_end hx
    have hf := rdSym_frame s
    have hmove := rdSym_forward s
    have hu := h.rdSym
    generalize (Machine.rdSym s).2 = u at hstep hrest hf hmove hu
    obtain ⟨hp, -, -, hn, hcur, -, -, hchild, -⟩ := hf.fields
    obtain ⟨B, hbits, hB⟩ := hu.endOfInput_spells (hD.congr hp hchild) (hcur ▸ hw)
    have hframe := endOfInput_frame u
    rw [hf.packedBits_eq] at hbits
    rw [hp, hn] at hB
    rw [List.append_nil]
    refine ⟨1, endOfInput u, B, reaches_succ hstep (reaches_zero _), by rw [hframe], ?_,
      hmove.trans (endOfInput_forward hu.bits), hbits, hB⟩
    rw [hframe]
    exact hu.source_of_end hrest
  | cons x xs ih =>
    obtain ⟨hstep, hrest⟩ := h.step_symbol hx
    obtain ⟨-, -, -, hblock, -⟩ := Params.codes h.rdSym.params
    have hf := rdSym_frame s
    have hmove := (rdSym_forward s).trans (symbolEffect_forward x hblock)
    have hu := h.rdSym
    generalize (Machine.rdSym s).2 = u at hstep hrest hf hmove hu
    obtain ⟨hp, -, -, hn, hcur, -, -, hchild, -⟩ := hf.fields
    obtain ⟨D', word', r, hv⟩ := hu.takesIn (hD.congr hp hchild) (hcur ▸ hw) x
    generalize symbolEffect x u = v at hstep hmove hv
    have hpacked := hv.packed
    have hspells := fun B => hv.spells B xs
    rw [hf.packedBits_eq] at hpacked
    rw [hp, hn] at hspells
    exact (ih hv.encoding hv.trie hv.matched (hv.pending.trans hrest)).of_step hstep hmove hpacked hspells

/-! A run of the decoder. -/

/-- A state of a decode whose host makes no move and keeps its contract, with nothing to report. -/
structure Decoding (s : State) : Prop where
  phase : s.phase = .decRun
  moves : s.moves = []
  params : s.params.wf = true
  syms : s.sLen < s.params.block
  bits : s.pBits ≤ 8 * s.pLen ∧ s.pLen ≤ s.params.block
  host : HostKeepsContract s
  report : s.trunc = false ∧ s.cause = causeNone

/-- RD_PAIR leaves a state of the decode (R126). -/
theorem Decoding.rdPair {s : State} (h : Decoding s) (w : Nat) : Decoding (rdPair w s).2 := by
  obtain ⟨-, -, -, hB, -⟩ := Params.codes h.params
  have hf := rdPair_frame w s
  have hbits := rdPair_bounds w s h.bits.1 h.bits.2
  obtain ⟨-, -, hhost⟩ := rdPair_spec w s h.bits.1 h.bits.2 hB h.host
  generalize (Machine.rdPair w s).2 = u at hf hbits hhost
  rw [hf] at hbits hhost ⊢
  exact ⟨h.phase, h.moves, h.params, h.syms, hbits, hhost, h.report⟩

theorem PairInFrame.writtenBytes_eq {s t : State} (h : PairInFrame s t) : writtenBytes t = writtenBytes s := by
  rw [h]
  rfl

/-- The decoder's step where a record is at the front of what is pending (R96, R170). -/
theorem Decoding.step_record {s : State} (h : Decoding s) {code : Nat} {x : Symbol} {rest : List Bool}
    (hbits : pendingBits s = bitsLE (bitlen s.nextCode) code ++ bitsOfByte x ++ rest)
    (fits : code < 2 ^ bitlen s.nextCode) :
    step s = (if code = s.params.stopCode then runStop (Machine.rdPair (bitlen s.nextCode) s).2
      else runPair code x (Machine.rdPair (bitlen s.nextCode) s).2) ∧
    pendingBits (Machine.rdPair (bitlen s.nextCode) s).2 = rest := by
  obtain ⟨-, -, -, hB, -⟩ := Params.codes h.params
  obtain ⟨hread, hrest, -⟩ := rdPair_spec (bitlen s.nextCode) s h.bits.1 h.bits.2 hB h.host
  have hlen : (bitsLE (bitlen s.nextCode) code ++ bitsOfByte x).length = bitlen s.nextCode + 8 := by simp
  have hle : bitlen s.nextCode + 8 ≤ (pendingBits s).length := by
    rw [hbits, List.length_append, hlen]
    exact Nat.le_add_right _ _
  have hcode : (pendingBits s).take (bitlen s.nextCode) = bitsLE (bitlen s.nextCode) code := by
    rw [hbits, List.append_assoc]
    exact List.take_left' (length_bitsLE _ _)
  have hsym : ((pendingBits s).drop (bitlen s.nextCode)).take 8 = bitsOfByte x := by
    rw [hbits, List.append_assoc, List.drop_left' (length_bitsLE _ _)]
    exact List.take_left' (length_bitsOfByte x)
  rw [if_pos hle, hcode, hsym, natOfBits_bitsLE, Nat.mod_eq_of_lt fits, byteOfBits_bitsOfByte] at hread
  have hstep := step_of_rdPair (.inl h.moves) h.phase h.bits.1 h.bits.2
    (by rw [setMoves_tail_of_nil h.moves]; exact hread)
  rw [setMoves_tail_of_nil h.moves] at hstep
  replace hstep := hstep.trans (exec_recordInstr _ _ fits _)
  refine ⟨hstep, ?_⟩
  rw [hrest hle, hbits]
  exact List.drop_left' hlen

theorem Decoding.appendWord {s : State} (h : Decoding s) (word : List Symbol) (x : Symbol) :
    Decoding (appendWord word x s) := by
  obtain ⟨pushed, happ⟩ := appendWord_appends word x h.syms
  have hsyms := happ.room
  have hframe := appendWord_frame word x s
  generalize Machine.appendWord word x s = t at hsyms hframe
  rw [hframe] at hsyms ⊢
  exact ⟨h.phase, h.moves, h.params, hsyms, h.bits, h.host, h.report⟩

/-- From `s` the decode ends with nothing to report, and `out` written from here on. -/
def DecodesTo (out : List Symbol) (s : State) : Prop :=
  ∃ k t, Reaches k s t ∧ t.phase = .done ∧ t.trunc = false ∧ t.cause = causeNone ∧ Forward s t ∧
    sinkBytes t = writtenBytes s ++ out

/-- A step that writes `w`, and then what writes the rest. -/
theorem DecodesTo.of_step {out w : List Symbol} {s v : State} (hstep : step s = .next v) (hf : Forward s v)
    (hwritten : writtenBytes v = writtenBytes s ++ w) (h : DecodesTo out v) : DecodesTo (w ++ out) s := by
  obtain ⟨k, t, hrun, hphase, htrunc, hcause, hforward, hsink⟩ := h
  refine ⟨k + 1, t, reaches_succ hstep hrun, hphase, htrunc, hcause, hf.trans hforward, ?_⟩
  rw [hsink, hwritten, List.append_assoc]

/-- A decode writes what the bits pending spell. -/
theorem Spells.decodesTo {p : Params} {n : Nat} {D : WordTable} {B : List Bool} {out : List Symbol}
    (hB : Spells p n D B out) {s : State} (h : Decoding s) (hp : s.params = p) (hn : s.nextCode = n)
    (hD : wordAt s = D) (hbits : pendingBits s = B) : DecodesTo out s := by
  induction hB generalizing s with
  | stop x rest fits =>
    subst hp hn hD
    obtain ⟨hstep, -⟩ := h.step_record hbits fits
    rw [if_pos rfl] at hstep
    have hf := rdPair_frame (bitlen s.nextCode) s
    have hmove := rdPair_forward (bitlen s.nextCode) s
    have hu := h.rdPair (bitlen s.nextCode)
    generalize (Machine.rdPair (bitlen s.nextCode) s).2 = u at hstep hf hmove hu
    obtain ⟨htrunc, hcause, -⟩ := stop_report u
    obtain ⟨hsink, -⟩ := flushSyms_spec u
    refine ⟨1, Machine.stop u, reaches_succ (hstep.trans (runStop_of_room hu.syms.le)) (reaches_zero _), rfl,
      htrunc.trans hu.report.1, hcause.trans hu.report.2, hmove.trans (stop_forward hu.syms.le), ?_⟩
    rw [List.append_nil, ← hf.writtenBytes_eq]
    exact hsink
  | @pair n code D word out x rest room fits ne_stop names _ ih =>
    subst hp hn hD
    obtain ⟨hstep, hrest⟩ := h.step_record hbits fits
    rw [if_neg ne_stop] at hstep
    have hf := rdPair_frame (bitlen s.nextCode) s
    have hmove := rdPair_forward (bitlen s.nextCode) s
    have hu := h.rdPair (bitlen s.nextCode)
    generalize (Machine.rdPair (bitlen s.nextCode) s).2 = u at hstep hrest hf hmove hu
    obtain ⟨hp, -, -, hn, -, -, -, -, hwt, -⟩ := hf.fields
    have hwords := wordAt_congr hwt
    obtain ⟨-, -, -, hblock, -⟩ := Params.codes hu.params
    obtain ⟨pushed, happ⟩ := appendWord_appends word x hu.syms
    have hcontent : writtenBytes (Machine.appendWord word x u) = writtenBytes u ++ (word ++ [x]) := happ.content
    obtain ⟨-, hcode, -⟩ := appendWord_control word x u
    have hpend : pendingBits (Machine.appendWord word x u) = pendingBits u := by rw [appendWord_frame]; rfl
    rw [← hp, ← hn] at room
    rw [← hwords] at names
    refine (ih (hu.appendWord word x) (happ.params.trans hp) ?_ ?_ (hpend.trans hrest)).of_step
      (hstep.trans (runPair_of_room x names room hu.syms)) (hmove.trans (appendWord_forward word x hblock)) ?_
    · rw [hcode, countUp_eq_counted, hp, hn]
    · rw [wordAt_appendWord, hp, hn, hwords]
    · rw [hcontent, hf.writtenBytes_eq]

/-! The start of a run, and its counters. -/

/-- The host's write of START outside a run, as its only move, begins a run (R211, R212). -/
theorem step_of_start {s : State} {v : Word64} (hv : v.getLsbD 0 = true) (hm : s.moves = [.regWrite 0 v]) :
    step s = .next (startRun (if v.getLsbD 1 then .dec else .enc) (s.setMoves [])) := by
  rw [step_of_ctrlWrite hm, exec_commandInstr, if_pos hv]

theorem startRun_enc {s : State} (h : busy s = false) :
    startRun .enc s = (runInit (s.setMode .enc)).setPhase .encRun := if_neg (by simp [h])

theorem startRun_dec {s : State} (h : busy s = false) :
    startRun .dec s = (runInit (s.setMode .dec)).setPhase .decRun := if_neg (by simp [h])

theorem startRun_encoding {s : State} (hb : busy s = false) (hp : s.params.wf = true) (hm : s.moves = [])
    (hc : HostKeepsContract s) : Encoding (startRun .enc s) := by
  obtain ⟨-, -, hmax, hblock, -⟩ := Params.codes hp
  rw [startRun_enc hb]
  exact ⟨rfl, hm, hp, ⟨le_rfl, hmax⟩, ⟨le_rfl, Nat.zero_le _⟩, Nat.mul_pos (by decide) hblock, hc, nofun,
    .root rfl rfl rfl⟩

theorem startRun_decoding {s : State} (hb : busy s = false) (hp : s.params.wf = true) (hm : s.moves = [])
    (hc : HostKeepsContract s) : Decoding (startRun .dec s) := by
  obtain ⟨-, -, -, hblock, -⟩ := Params.codes hp
  rw [startRun_dec hb]
  exact ⟨rfl, hm, hp, hblock, ⟨le_rfl, Nat.zero_le _⟩, hc, rfl, rfl⟩

/-- What a run has pushed since its start is counted in BYTES_OUT (R130). -/
theorem Forward.pushed {s t : State} (h : Forward s t) (h0 : s.bytesOut = 0) :
    ∃ body, sinkBytes t = sinkBytes s ++ body ∧ t.bytesOut = BitVec.ofNat 64 body.length := by
  obtain ⟨pushed, asked, h⟩ := h
  refine ⟨pushed.flatten, ?_, by rw [h.bytesOut, h0]; exact BitVec.zero_add _⟩
  rw [sinkBytes, h.sink, List.flatten_append]
  rfl

/-- What a run has pulled since its start is counted in BYTES_IN: with the source used up, all it held (R130). -/
theorem Forward.pulled {s t : State} (h : Forward s t) (h0 : s.bytesIn = 0) (ht : t.source = []) :
    t.bytesIn = BitVec.ofNat 64 s.source.length := by
  obtain ⟨pushed, asked, h⟩ := h
  have hall := List.drop_eq_nil_iff.1 (h.source.symm.trans ht)
  rw [h.bytesIn, h0, le_antisymm h.held hall]
  exact BitVec.zero_add _

/-- An encode from its start: what it pushes spells the source (R159). -/
theorem encode_run {e : State} (hp : e.params.wf = true) (hb : busy e = false) (hm : e.moves = [.regWrite 0 1])
    (hc : HostKeepsContract e) :
    ∃ k t body, Reaches k e t ∧ t.phase = .done ∧ sinkBytes t = sinkBytes e ++ body ∧
      t.bytesIn = BitVec.ofNat 64 e.source.length ∧ t.bytesOut = BitVec.ofNat 64 body.length ∧
      Spells e.params e.params.startCode (rootWord e.params) (bitsOfBytes body) e.source := by
  have hstep := step_of_start (by decide) hm
  have hs : Encoding (startRun .enc (e.setMoves [])) := startRun_encoding hb hp rfl hc
  have hstart := startRun_enc (s := e.setMoves []) hb
  rw [if_neg (by decide), hstart] at hstep
  rw [hstart] at hs
  obtain ⟨k, t, B, hrun, hphase, hsource, hforward, hbits, hB⟩ := hs.encodesTo (.of_root rfl) (if_pos rfl)
  obtain ⟨body, hbody, hout⟩ := hforward.pushed rfl
  have hstream : bitsOfBytes body = B := by
    rw [hbody, bitsOfBytes_append, packedBits] at hbits
    simpa [runInit] using hbits
  rw [← hstream] at hB
  exact ⟨k + 1, t, body, reaches_succ hstep hrun, hphase, hbody, hforward.pulled rfl hsource, hout, hB⟩

/-- A decode from its start: it writes what its source spells (R176). -/
theorem decode_run {d : State} (hp : d.params.wf = true) (hb : busy d = false) (hm : d.moves = [.regWrite 0 3])
    (hc : HostKeepsContract d) {out : List Symbol}
    (hB : Spells d.params d.params.startCode (rootWord d.params) (bitsOfBytes d.source) out) :
    ∃ k t, Reaches k d t ∧ t.phase = .done ∧ t.trunc = false ∧ t.cause = causeNone ∧
      sinkBytes t = sinkBytes d ++ out ∧ t.bytesOut = BitVec.ofNat 64 out.length := by
  have hstep := step_of_start (by decide) hm
  have hs : Decoding (startRun .dec (d.setMoves [])) := startRun_decoding hb hp rfl hc
  have hstart := startRun_dec (s := d.setMoves []) hb
  rw [if_pos (by decide), hstart] at hstep
  rw [hstart] at hs
  obtain ⟨k, t, hrun, hphase, htrunc, hcause, hforward, hwritten⟩ := hB.decodesTo hs rfl rfl rfl rfl
  obtain ⟨body, hbody, hout⟩ := hforward.pushed rfl
  obtain rfl : body = out := by
    rw [hbody, writtenBytes] at hwritten
    simpa [runInit, bufFront] using hwritten
  exact ⟨k + 1, t, reaches_succ hstep hrun, hphase, htrunc, hcause, hbody, hout⟩

/-- Settles O55: the encode spells its source, which no buffer size changes, and the decode writes what is spelt. -/
theorem roundTrip : Obligations.RoundTrip := by
  intro e hp hb hm hc
  obtain ⟨k, e', body, hrun, hphase, hbody, hin, hout, hB⟩ := encode_run hp hb hm hc
  refine ⟨k, e', body, hrun, hphase, hbody, hin, hout, fun d hdp hparams hdb hdm hdc hsource => ?_⟩
  refine decode_run hdp hdb hdm hdc ?_
  rw [hparams, hsource]
  exact hB.withBlock d.params.block

end Sys2Proof.Machine
end

section
/-! Every run on a finite source ends (O54): a read that hands something out takes it from what is pending, whatever the
host answers; a turn of the engine ends the run or makes such a read; what is pending bounds the turns. -/

namespace Sys2Proof.Machine

/-! What the reads take. The host may answer with no byte before the source's end (log 10): what it holds back is then
never read, so a read may take more than it hands out. -/

/-- How many bytes the source has yet to give. -/
def unread (s : State) : Nat := if s.srcEos then 0 else s.source.length

theorem length_pendingSyms (s : State) : (pendingSyms s).length = s.sLen - s.sIdx + unread s := by
  cases h : s.srcEos <;> simp [pendingSyms, unread, h]

theorem length_pendingBits (s : State) : (pendingBits s).length = 8 * s.pLen - s.pBits + 8 * unread s := by
  have hbytes : (bitsOfBytes s.source).length = 8 * s.source.length := length_flatMap_bitsOfByte s.source
  cases h : s.srcEos <;> simp [pendingBits, unread, h, hbytes]

/-- RD_BYTES takes the bytes it returns from the unread ones (R120). -/
theorem rdBytes_takes (buf : Buf) (n : Nat) (s : State) :
    (rdBytes buf n s).1 + unread (rdBytes buf n s).2 ≤ unread s := by
  obtain ⟨taken, eos, cs, ps, hread, htake, -, -, hended, -⟩ := rdBytes_spec buf n s
  have hlen : taken.length ≤ s.source.length := by
    rw [htake, List.length_take]
    exact Nat.min_le_right _ _
  rw [hread]
  cases he : s.srcEos with
  | true =>
    obtain ⟨rfl, rfl, -⟩ := hended he
    simp [unread, afterRead]
  | false =>
    cases eos <;> simp [unread, afterRead, he] <;> omega

theorem length_pendingSyms_refillSyms_le (s : State) : (pendingSyms (refillSyms s)).length ≤ unread s :=
  (length_pendingSyms _).trans_le (rdBytes_takes .sym s.params.block s)

theorem length_pendingBits_refillPairs_le (s : State) : (pendingBits (refillPairs s)).length ≤ 8 * unread s := by
  have htakes := rdBytes_takes .pair s.params.block s
  rw [length_pendingBits]
  show 8 * (rdBytes .pair s.params.block s).1 - 0 + 8 * unread (rdBytes .pair s.params.block s).2 ≤ _
  omega

/-- A symbol that RD_SYM hands out was pending, and is no more (R122). -/
theorem rdSym_consumes {s : State} {x : Symbol} (h : s.sIdx ≤ s.sLen) (hx : (rdSym s).1 = some x) :
    (pendingSyms (rdSym s).2).length + 1 ≤ (pendingSyms s).length := by
  rcases h.lt_or_eq with hlt | he
  · obtain ⟨y, htake, hpend⟩ := takeSym_spec s hlt
    rw [rdSym_of_prefetched hlt, htake, hpend, List.length_cons]
  · rw [rdSym_of_empty he] at hx ⊢
    split at hx
    · cases hx
    · rename_i hsome
      obtain ⟨y, htake, hpend⟩ := takeSym_spec (refillSyms s) (Nat.pos_of_ne_zero hsome)
      have hfill := length_pendingSyms_refillSyms_le s
      rw [hpend, List.length_cons] at hfill
      rw [if_neg hsome, htake, length_pendingSyms s]
      exact hfill.trans (Nat.le_add_left _ _)

/-- A bit that GET_BIT reads was pending, and is no more (R124). -/
theorem getBit_consumes {s : State} {b : Bool} (h : s.pBits ≤ 8 * s.pLen) (hb : (getBit s).1 = some b) :
    (pendingBits (getBit s).2).length + 1 ≤ (pendingBits s).length := by
  rcases h.lt_or_eq with hlt | he
  · obtain ⟨y, htake, hpend⟩ := takeBit_spec s hlt
    rw [getBit_of_prefetched hlt, htake, hpend, List.length_cons]
  · rw [getBit_of_empty he] at hb ⊢
    split at hb
    · cases hb
    · rename_i hsome
      obtain ⟨y, htake, hpend⟩ := takeBit_spec (refillPairs s) (Nat.mul_pos (by decide) (Nat.pos_of_ne_zero hsome))
      have hfill := length_pendingBits_refillPairs_le s
      rw [hpend, List.length_cons] at hfill
      rw [if_neg hsome, htake, length_pendingBits s]
      exact hfill.trans (Nat.le_add_left _ _)

/-- A field that is read takes its bits (R93). -/
theorem readBits_consumes (n : Nat) {s : State} {v : Nat} (h : s.pBits ≤ 8 * s.pLen) (hl : s.pLen ≤ s.params.block)
    (hv : (readBits n s).1 = some v) : (pendingBits (readBits n s).2).length + n ≤ (pendingBits s).length := by
  induction n generalizing s v with
  | zero => exact le_rfl
  | succ n ih =>
    obtain ⟨h1, hl1⟩ := getBit_bounds s h hl
    rw [← (getBit_frame s).params] at hl1
    rw [readBits_succ] at hv ⊢
    cases hb : (getBit s).1 with
    | none => rw [hb] at hv; cases hv
    | some b =>
      rw [hb] at hv
      obtain ⟨v', hv', -⟩ := Option.map_eq_some_iff.1 hv
      have hbit := getBit_consumes h hb
      have hrest := ih h1 hl1 hv'
      simp only [Option.elim_some]
      omega

/-- A record that RD_PAIR reads takes `w + 8` bits (R126). -/
theorem rdPair_consumes (w : Nat) {s : State} {q : Nat × Symbol × Bool} (h : s.pBits ≤ 8 * s.pLen)
    (hl : s.pLen ≤ s.params.block) (hq : (rdPair w s).1 = some q) :
    (pendingBits (rdPair w s).2).length + (w + 8) ≤ (pendingBits s).length := by
  obtain ⟨h1, hl1⟩ := readBits_bounds w s h hl
  rw [← (readBits_frame w s).params] at hl1
  rw [rdPair_eq] at hq ⊢
  cases hc : (readBits w s).1 with
  | none => rw [hc] at hq; cases hq
  | some code =>
    rw [hc] at hq
    obtain ⟨x, hx, -⟩ := Option.map_eq_some_iff.1 hq
    have hcode := readBits_consumes w h hl hc
    have hsym := readBits_consumes 8 h1 hl1 hx
    simp only [Option.elim_some]
    omega

/-! One turn of the engine. -/

/-- A run in phase `p` that the host leaves to the engine. -/
structure Running (p : Phase) (s : State) : Prop where
  inv : Inv s
  moves : s.moves = []
  phase : s.phase = p

/-- ENC_SYM goes on with the run, and leaves what is pending (R151). -/
theorem symbolEffect_goes_on (x : Symbol) (s : State) : (symbolEffect x s).moves = s.moves ∧
    (symbolEffect x s).phase = s.phase ∧ pendingSyms (symbolEffect x s) = pendingSyms s := by
  cases hc : childAt s s.cur x with
  | some c => rw [symbolEffect_of_some hc]; exact ⟨rfl, rfl, rfl⟩
  | none =>
    have hf := miss_frame x s
    rw [symbolEffect_of_none hc]
    generalize miss x s = t at hf
    rw [hf]
    exact ⟨rfl, rfl, rfl⟩

/-- A record ends the run, or goes on with it and leaves what is pending (R96). -/
theorem recordEffect_ends_or_goes_on (code : Nat) (x : Symbol) (s : State) : Ended (recordEffect code x s) ∨
    ((recordEffect code x s).moves = s.moves ∧ (recordEffect code x s).phase = s.phase ∧
      pendingBits (recordEffect code x s) = pendingBits s) := by
  unfold recordEffect
  split
  · exact .inl (.inl rfl)
  · cases wordAt s code with
    | none => exact .inl (.inr rfl)
    | some word =>
      have hf := appendWord_frame word x s
      rw [Option.elim_some]
      generalize appendWord word x s = t at hf
      rw [hf]
      exact .inr ⟨rfl, rfl, rfl⟩

/-- An encoder step consumes a symbol or ends the run (R200). -/
theorem encoder_step {s : State} (h : Running .encRun s) : ∃ v, step s = .next v ∧
    (v.phase = .done ∨ (Running .encRun v ∧ (pendingSyms v).length + 1 ≤ (pendingSyms s).length)) := by
  obtain ⟨hinv, hm, hp⟩ := h
  have hstep := step_encoder hinv (.inl hm) hp
  rw [setMoves_tail_of_nil hm] at hstep
  refine ⟨_, hstep, ?_⟩
  have hv := hinv.encoderEffect hp
  have hf := (rdSym_frame s).fields
  unfold encoderEffect at hv ⊢
  cases hx : (rdSym s).1 with
  | none => exact .inl rfl
  | some x =>
    rw [hx, Option.elim_some] at hv
    rw [Option.elim_some]
    have hless := rdSym_consumes (hinv.bounds.sym_low (busy_of_encRun hp)) hx
    generalize (rdSym s).2 = u at hv hf hless
    obtain ⟨-, hphase, -, -, -, -, -, -, -, -, -, -, -, -, -, hmoves, -⟩ := hf
    obtain ⟨emoves, ephase, epend⟩ := symbolEffect_goes_on x u
    exact .inr ⟨⟨hv, (emoves.trans hmoves).trans hm, (ephase.trans hphase).trans hp⟩, by rw [epend]; exact hless⟩

/-- A decoder step consumes at least 10 bits or ends the run (R200): a code field is 2 bits wide or wider (R194). -/
theorem decoder_step {s : State} (h : Running .decRun s) : ∃ v, step s = .next v ∧
    (Ended v ∨ (Running .decRun v ∧ (pendingBits v).length + 10 ≤ (pendingBits s).length)) := by
  obtain ⟨hinv, hm, hp⟩ := h
  have hstep := step_decoder hinv (.inl hm) hp
  rw [setMoves_tail_of_nil hm] at hstep
  refine ⟨_, hstep, ?_⟩
  have hv := hinv.decoderEffect hp
  have hf := (rdPair_frame (recordWidth s) s).fields
  obtain ⟨hlow, hhigh⟩ := hinv.code_range (busy_of_decRun hp)
  have hwidth : 2 ≤ recordWidth s := (recordWidth_range hinv.params hlow hhigh).2.2
  unfold decoderEffect at hv ⊢
  cases hq : (rdPair (recordWidth s) s).1 with
  | none => exact .inl (.inl rfl)
  | some q =>
    rw [hq, Option.elim_some] at hv
    rw [Option.elim_some]
    have hless := rdPair_consumes (recordWidth s) (hinv.bounds.dec_bits hp) (hinv.bounds.dec_fill hp) hq
    generalize (rdPair (recordWidth s) s).2 = u at hv hf hless
    obtain ⟨-, hphase, -, -, -, -, -, -, -, -, -, -, -, -, -, hmoves, -⟩ := hf
    refine (recordEffect_ends_or_goes_on q.1 q.2.1 u).imp_right fun ⟨emoves, ephase, epend⟩ => ?_
    exact ⟨⟨hv, (emoves.trans hmoves).trans hm, (ephase.trans hphase).trans hp⟩, by rw [epend]; omega⟩

/-! The run. -/

/-- A run each of whose steps ends it or takes `unit` from what it has left ends, and what it has left bounds its
steps. -/
theorem ends_of_consumes {running ended : State → Prop} {left : State → Nat} {unit : Nat}
    (hturn : ∀ s, running s → ∃ v, step s = .next v ∧ (ended v ∨ (running v ∧ left v + unit ≤ left s)))
    (hunit : 1 ≤ unit) {s : State} (h : running s) :
    ∃ k t, unit * (k - 1) ≤ left s ∧ Reaches k s t ∧ ended t := by
  induction hn : left s using Nat.strong_induction_on generalizing s with
  | h n ih =>
    subst hn
    obtain ⟨v, hstep, hv | ⟨hv, hless⟩⟩ := hturn s h
    · exact ⟨1, v, by simp, reaches_succ hstep (reaches_zero v), hv⟩
    · obtain ⟨k, t, hk, hreach, ht⟩ := ih (left v) (by omega) hv rfl
      refine ⟨k + 1, t, ?_, reaches_succ hstep hreach, ht⟩
      calc unit * (k + 1 - 1) ≤ unit * (k - 1 + 1) := Nat.mul_le_mul_left _ (by omega)
        _ = unit * (k - 1) + unit := Nat.mul_succ _ _
        _ ≤ left s := by omega

/-- Settles O54: every step of a run consumes a symbol, or 10 bits, or ends it. -/
theorem runsEnd : Obligations.RunsEnd := by
  intro s hinv hm
  refine ⟨fun hp => ?_, fun hp => ?_⟩
  · obtain ⟨k, t, hk, hreach, ht⟩ := ends_of_consumes (fun _ => encoder_step) le_rfl ⟨hinv, hm, hp⟩
    exact ⟨k, t, by omega, hreach, ht⟩
  · exact ends_of_consumes (fun _ => decoder_step) (by decide) ⟨hinv, hm, hp⟩

end Sys2Proof.Machine
end

section
/-! Code width (44_adaptive_control.md): BITLEN is the number of binary digits (O6), ADVANCE counts (O7), and what a step
does to the code counter bounds the widths of a run (O9, O10). -/

namespace Sys2Proof.Machine

/-! BITLEN (R190). -/

theorem bitlen_eq_log {n : Nat} (h : 1 ≤ n) : bitlen n = Nat.log 2 n + 1 := by
  rw [bitlen_of_pos h, Nat.log2_eq_log_two]

theorem bitlen_two_pow (k : Nat) : bitlen (2 ^ k) = k + 1 := by
  rw [bitlen_of_pos (Nat.one_le_two_pow), Nat.log2_two_pow]

/-- The widest code below a power of two fills its field (R194). -/
theorem bitlen_two_pow_sub_one {k : Nat} (h : 1 ≤ k) : bitlen (2 ^ k - 1) = k := by
  have hpow : 2 ≤ 2 ^ k := Nat.le_self_pow (by omega) 2
  have hpos : 1 ≤ 2 ^ k - 1 := by omega
  refine le_antisymm (bitlen_le_of_lt hpos (by omega)) ((Nat.pow_le_pow_iff_right (by decide : 1 < 2)).1 ?_)
  have := lt_two_pow_bitlen hpos
  omega

/-- The next number needs a digit more exactly where it is a power of two (R195). -/
theorem bitlen_succ {n : Nat} (h : 1 ≤ n) :
    bitlen (n + 1) = bitlen n + if n + 1 = 2 ^ Nat.log 2 (n + 1) then 1 else 0 := by
  split
  · rename_i hpow
    have hexp : Nat.log 2 (n + 1) ≠ 0 := fun h0 => by rw [h0] at hpow; omega
    have hn := bitlen_two_pow_sub_one (Nat.pos_of_ne_zero hexp)
    rw [← hpow, Nat.add_sub_cancel] at hn
    rw [hn, bitlen_eq_log (by omega)]
  · rename_i hpow
    have hle : 2 ^ Nat.log 2 (n + 1) ≤ n + 1 := Nat.pow_log_le_self 2 (by omega)
    have hlog : Nat.log 2 (n + 1) ≤ Nat.log 2 n := Nat.le_log_of_pow_le (by decide) (by omega)
    refine le_antisymm ?_ (bitlen_mono h (Nat.le_succ n))
    rw [bitlen_eq_log h, bitlen_eq_log (by omega)]
    omega

/-- Settles O6: the number of digits is one more than the logarithm, and the vectors are run. -/
theorem bitlenIsLeastWidth : Obligations.BitlenIsLeastWidth := by
  refine ⟨fun n s _ => rfl, fun n h => ?_, bitlen_two_pow, by decide⟩
  have hlt := lt_two_pow_bitlen h
  exact ⟨bitlen_eq_log h, hlt, fun w => bitlen_le_of_lt h, fun c hc => hc.trans hlt⟩

/-! ADVANCE (R192). -/

theorem exec_advance {s : State} (h : s.nextCode < s.params.maxCode) :
    exec .advance s = .next ((advance s).2.setResult (.advanced (advance s).1)) := if_pos (decide_eq_true h)

/-- Settles O7: the two branches of ADVANCE. -/
theorem advanceCounts : Obligations.AdvanceCounts := by
  intro s h
  rw [exec_advance h, advance_eq]
  refine ⟨fun hroom => ?_, fun hfull => ?_⟩
  · rw [if_neg hroom.ne]
    rfl
  · rw [if_pos hfull]
    rfl

/-! The widths of a run. -/

/-- CODE_BITS is the width of the last code (R194). -/
theorem codeBits_eq_bitlen {p : Params} (hp : p.wf = true) : p.codeBits = bitlen (p.maxCode - 1) := by
  obtain ⟨-, -, hstart, hpow, hmax, -⟩ := (Params.wf_iff p).1 hp
  have hbits : p.codeBits ≠ 0 := fun h0 => by rw [h0] at hpow; omega
  rw [hpow, bitlen_two_pow_sub_one (Nat.pos_of_ne_zero hbits)]

theorem minWidth_eq_bitlen {p : Params} (hp : p.wf = true) : p.minWidth = bitlen p.startCode := by
  obtain ⟨-, -, hstart, -⟩ := (Params.wf_iff p).1 hp
  rw [bitlen_of_pos (by omega), Params.minWidth]

/-- Settles O9: the code counter of a run stands at an entry. -/
theorem widthRange : Obligations.WidthRange := by
  refine ⟨fun s h hb => ?_, by decide, by decide⟩
  obtain ⟨hlow, hhigh⟩ := h.code_range hb
  obtain ⟨hmin, hmax, -⟩ := recordWidth_range h.params hlow hhigh
  obtain ⟨-, -, -, hpow, -⟩ := (Params.wf_iff s.params).1 h.params
  refine ⟨minWidth_eq_bitlen h.params ▸ hmin, hmax, codeBits_eq_bitlen h.params, hpow.symm, ?_⟩
  exact Bool.and_eq_true_iff.2 ⟨decide_eq_true hmin, decide_eq_true hmax⟩

/-! What a step does to the code counter. -/

/-- The registers that the width of the next record, and whether there is one, depend on. -/
def counter (s : State) : Params × Phase × Nat := (s.params, s.phase, s.nextCode)

theorem recordInstr_ne_runInit (p : Params) (w code : Nat) (x : Symbol) : recordInstr p w code x ≠ .runInit := by
  unfold recordInstr
  split <;> split <;> nofun

theorem commandInstr_ne_runInit (v : Word64) : commandInstr v ≠ .runInit := by
  unfold commandInstr
  split
  · split <;> nofun
  · nofun

/-- A step leaves the code counter, or runs one operation from the same one; RUN_INIT by name is none of them. -/
theorem step_counter {s t : State} (h : step s = .next t) :
    counter t = counter s ∨ ∃ i u, i ≠ .runInit ∧ counter u = counter s ∧ exec i u = .next t := by
  rcases step_cases h with ⟨-, -, -, hturn⟩ | ⟨-, -, -, hturn⟩ | ⟨-, -, rfl⟩ | ⟨v, ms, -, hx⟩ |
    ⟨n, v, ms, -, -, rfl⟩ | ⟨n, ms, -, hx⟩ | ⟨ms, -, hx⟩ | ⟨src, cs, ms, -, rfl⟩
  · have hu : counter (rdSym (s.setMoves s.moves.tail)).2 = counter s := by rw [rdSym_frame]; rfl
    rcases hturn with ⟨x, -, hx⟩ | ⟨-, hx⟩
    · exact .inr ⟨.encSym x, _, nofun, hu, hx⟩
    · exact .inr ⟨.encEos, _, nofun, hu, hx⟩
  · have hu : counter (rdPair (recordWidth s) (s.setMoves s.moves.tail)).2 = counter s := by rw [rdPair_frame]; rfl
    rcases hturn with ⟨-, hx⟩ | ⟨code, x, more, -, hx⟩
    · exact .inr ⟨.decTrunc, _, nofun, hu, hx⟩
    · exact .inr ⟨_, _, recordInstr_ne_runInit _ _ code x, hu, hx⟩
  · exact .inl rfl
  · exact .inr ⟨_, s.setMoves ms, commandInstr_ne_runInit v, rfl, hx⟩
  · exact .inl rfl
  · exact .inr ⟨.csrRead n, s.setMoves ms, nofun, rfl, hx⟩
  · exact .inr ⟨.hwReset, s.setMoves ms, nofun, rfl, hx⟩
  · exact .inl rfl

/-- An operation of a step keeps the counter or counts up in the phase it runs in, or starts a run, or leaves none. -/
theorem exec_nextCode {i : Instr} {u t : State} (hi : i ≠ .runInit) (h : exec i u = .next t) :
    (t.phase = u.phase ∧ (t.nextCode = u.nextCode ∨ t.nextCode = countUp u)) ∨
    (busy u = false ∧ t.nextCode = u.params.startCode) ∨ busy t = false := by
  have ended : ∀ {p}, t.phase = p → p ≠ .encRun → p ≠ .decRun → busy t = false := by
    rintro _ rfl he hd
    simp [busy, he, hd]
  cases exec_effect h with
  | keeps phase code => exact .inl ⟨phase, .inl code⟩
  | counts _ phase code => exact .inl ⟨phase, .inr code⟩
  | starts idle _ code => exact .inr (.inl ⟨idle, code⟩)
  | inits who => exact absurd who hi
  | resets _ phase => exact .inr (.inr (ended phase nofun nofun))
  | finishes _ phase => exact .inr (.inr (ended phase nofun nofun))
  | truncates _ phase => exact .inr (.inr (ended phase nofun nofun))
  | raises _ _ phase => exact .inr (.inr (ended phase nofun nofun))

/-- A step keeps the code counter or counts up in the phase it runs in, or starts a run, or leaves none. -/
theorem step_nextCode {s t : State} (h : step s = .next t) :
    (t.phase = s.phase ∧ (t.nextCode = s.nextCode ∨ t.nextCode = countUp s)) ∨
    (busy s = false ∧ t.nextCode = s.params.startCode) ∨ busy t = false := by
  rcases step_counter h with hc | ⟨i, u, hi, hc, hx⟩
  · simp only [counter, Prod.mk.injEq] at hc
    obtain ⟨-, hphase, hcode⟩ := hc
    exact .inl ⟨hphase, .inl hcode⟩
  · simp only [counter, Prod.mk.injEq] at hc
    obtain ⟨hparams, hphase, hcode⟩ := hc
    have hx := exec_nextCode hi hx
    rwa [busy, countUp, hparams, hphase, hcode] at hx

/-- Settles O10: a step of a run keeps the counter or counts up, and a start of one writes START_CODE. -/
theorem widthMonotone : Obligations.WidthMonotone := by
  refine ⟨fun n h => bitlen_succ h, fun s t h hb hst ht => ?_, fun s t hb hst ht => ?_⟩
  · obtain ⟨-, hcode⟩ | ⟨hidle, -⟩ | hend := step_nextCode hst
    · obtain ⟨hlow, -⟩ := h.code_range hb
      obtain ⟨-, -, hstart, -⟩ := (Params.wf_iff s.params).1 h.params
      have hpos : 1 ≤ s.nextCode := by omega
      unfold recordWidth
      rcases hcode with hcode | hcode
      · rw [hcode]
        exact .inl ⟨.inl rfl, le_rfl, Nat.le_succ _⟩
      · rw [hcode, countUp]
        split
        · exact .inr ⟨‹_›, rfl, rfl⟩
        · exact .inl ⟨.inr rfl, bitlen_mono hpos (Nat.le_succ _), bitlen_succ_le hpos⟩
    · exact absurd hidle (by simp [hb])
    · exact absurd hend (by simp [ht])
  · obtain ⟨hphase, -⟩ | ⟨-, hcode⟩ | hend := step_nextCode hst
    · rw [busy, hphase] at ht
      exact absurd ht (by simpa [busy] using hb)
    · rw [recordWidth, hcode]
    · exact absurd hend (by simp [ht])

end Sys2Proof.Machine
end

section
/-! The host commands (45_host_commands.md): the start of a run (O36, O37), RUN_INIT (O38), the register port (O39) and
HW_RESET (O40). -/

namespace Sys2Proof.Machine

/-! The start of a run. -/

theorem not_busy_of_stopped {s : State} (h : s.phase = .idle ∨ s.phase = .done ∨ s.phase = .error) :
    busy s = false := by
  rcases h with h | h | h <;> simp [busy, h]

/-- A start while BUSY is no start (R214). -/
theorem startRun_of_busy {s : State} (h : busy s = true) (m : Mode) : startRun m s = s := by
  rw [startRun_eq, if_pos h]

/-- Settles O36: outside a run a start is RUN_INIT between the writes of the mode and the phase. -/
theorem startBeginsRun : Obligations.StartBeginsRun := by
  intro r s h
  have hb := not_busy_of_stopped h
  exact ⟨congrArg Host.Outcome.next (startRun_enc hb), congrArg Host.Outcome.next (startRun_dec hb)⟩

/-- Settles O37: a start while BUSY is no start, and a write of CTRL without START is none in any phase. -/
theorem startWhileBusyIgnored : Obligations.StartWhileBusyIgnored := by
  refine ⟨fun r s h => ?_, fun m r s => rfl⟩
  have hb := (busy_iff s).2 h
  exact ⟨congrArg Host.Outcome.next (startRun_of_busy hb .enc), congrArg Host.Outcome.next (startRun_of_busy hb .dec)⟩

/-! RUN_INIT. -/

/-- The word table of a fresh run holds the empty word alone (R213). -/
theorem wordAt_runInit (s : State) (c : Nat) :
    wordAt (runInit s) c = if s.params.emptyCode = c then some [] else none := rfl

/-- Settles O38: a slot of either dictionary is read in the state RUN_INIT leaves. -/
theorem runInitValues : Obligations.RunInitValues := fun s =>
  ⟨runInit s, rfl, childAt_nil _ rfl, (wordAt_runInit s _).trans (if_pos rfl),
    fun c hc => (wordAt_runInit s c).trans (if_neg hc.symm), rfl⟩

/-! STATUS (R39). -/

theorem doneFlag_iff (s : State) : doneFlag s = true ↔ s.phase = .done := by simp [doneFlag]

theorem errFlag_iff (s : State) : errFlag s = true ↔ s.phase = .error := by simp [errFlag]

theorem modeBit_iff (s : State) : modeBit s = true ↔ s.mode = .dec := by simp [modeBit]

/-- STATUS is its fields side by side: the cause above the mode, TRUNC, ERR, DONE and BUSY. -/
theorem statusReg_eq_concat (s : State) : statusReg s =
    (((((s.cause.setWidth 59).concat (modeBit s)).concat s.trunc).concat (errFlag s)).concat (doneFlag s)).concat
      (busy s) := by
  apply BitVec.eq_of_toNat_eq
  have hc := s.cause.isLt
  have hm := (modeBit s).toNat_le
  have ht := s.trunc.toNat_le
  have he := (errFlag s).toNat_le
  have hd := (doneFlag s).toNat_le
  have hb := (busy s).toNat_le
  simp only [statusReg, BitVec.toNat_ofNat, BitVec.toNat_concat, BitVec.toNat_setWidth]
  omega

theorem statusReg_flags (s : State) :
    ((statusReg s).getLsbD 0 = true ↔ s.phase = .encRun ∨ s.phase = .decRun) ∧
    ((statusReg s).getLsbD 1 = true ↔ s.phase = .done) ∧ ((statusReg s).getLsbD 2 = true ↔ s.phase = .error) ∧
    (statusReg s).getLsbD 3 = s.trunc ∧ ((statusReg s).getLsbD 4 = true ↔ s.mode = .dec) := by
  rw [statusReg_eq_concat]
  simp only [BitVec.getLsbD_concat_zero, BitVec.getLsbD_concat_succ, true_and]
  exact ⟨busy_iff s, doneFlag_iff s, errFlag_iff s, modeBit_iff s⟩

/-- The cause is bits 7:5, and nothing stands above it. -/
theorem statusReg_cause (s : State) :
    (statusReg s).extractLsb' 5 3 = s.cause ∧ (statusReg s).extractLsb' 8 56 = 0 := by
  have above (i : Nat) (hi : i < 59) : (statusReg s).getLsbD (i + 5) = s.cause.getLsbD i := by
    simp [statusReg_eq_concat, hi]
  constructor <;> ext i hi
  · rw [BitVec.getElem_extractLsb', Nat.add_comm, above i (by omega), BitVec.getLsbD_eq_getElem]
  · rw [BitVec.getElem_extractLsb', show 8 + i = i + 3 + 5 by omega, above (i + 3) (by omega),
      BitVec.getLsbD_of_ge _ _ (by omega)]
    exact (BitVec.getElem_zero _).symm

/-! The register port. -/

/-- An `info` of 17 bits is the low bits of INFO, and the others are 0 (R39). -/
theorem infoReg_fields {s : State} (h : s.info < 2 ^ 17) :
    ((infoReg s).extractLsb' 0 17).toNat = s.info ∧ (infoReg s).extractLsb' 17 47 = 0 := by
  have hinfo : (infoReg s).toNat = s.info := (BitVec.toNat_ofNat _ _).trans (Nat.mod_eq_of_lt (by omega))
  refine ⟨?_, BitVec.eq_of_toNat_eq ?_⟩
  · rw [BitVec.extractLsb'_toNat, hinfo, Nat.shiftRight_zero, Nat.mod_eq_of_lt h]
  · rw [BitVec.extractLsb'_toNat, hinfo, Nat.shiftRight_eq_div_pow, Nat.div_eq_of_lt h]
    rfl

/-- CTRL and the numbers that name no register read 0 (R39, R215). -/
theorem csrValue_of_other {n : Nat} (h : n = 0 ∨ 4 < n) (s : State) : csrValue n s = 0 := by
  rcases h with rfl | h
  · rfl
  · obtain ⟨k, rfl⟩ := Nat.exists_eq_add_of_le' h
    rfl

/-- Settles O39: the value is the register's, whose fields are said by its number. -/
theorem csrReadFields : Obligations.CsrReadFields := by
  refine fun n s => ⟨csrValue n s, rfl, ?_, ?_, ?_, ?_, fun h => csrValue_of_other h s⟩
  · rintro rfl
    obtain ⟨hbusy, hdone, herr, htrunc, hmode⟩ := statusReg_flags s
    exact ⟨hbusy, hdone, herr, htrunc, hmode, statusReg_cause s⟩
  · rintro rfl
    rfl
  · rintro rfl
    rfl
  · rintro rfl
    exact ⟨rfl, infoReg_fields⟩

/-! HW_RESET. -/

/-- Settles O40: HW_RESET writes these registers, and draws what R45 leaves unspecified. -/
theorem hwResetValues : Obligations.HwResetValues := fun s => ⟨hwReset s, rfl, rfl⟩

end Sys2Proof.Machine
end

section
/-! Exceptions (60_exceptions.md): the report of `raise`, and the illegal record that takes BAD_CODE (O32). -/

namespace Sys2Proof.Machine

/-- Taking BAD_CODE writes the report and ends the run in ERROR: nothing is flushed, and neither byte
counter moves (R174, R236). -/
theorem raise_badCode_deadFrame (code : Nat) (s : State) :
    DeadFrame { s with cause := 4, info := code % 2 ^ (s.params.codeBits + 1), phase := .error }
      (raise .badCode code s) := rfl

/-- The report's `info` is the faulting value, cut to the width of `info` (R36, log 22). -/
theorem raise_info (f : FatalFault) (v : Nat) (s : State) :
    (raise f v s).info = v % 2 ^ (s.params.codeBits + 1) := rfl

/-- Settles O32: every operation that raises BAD_CODE runs the one entry, whose `info` is the code where it fits. -/
theorem illegalRecordRaises : Obligations.IllegalRecordRaises := fun _ code s h =>
  ⟨raise .badCode code s, exec_of_raisesBadCode h,
    fun hfits => (raise_info .badCode code s).trans (Nat.mod_eq_of_lt hfits), raise_badCode_deadFrame code s⟩

end Sys2Proof.Machine
end

section
/-! The state after hardware reset (O41). -/

namespace Sys2Proof.Machine

/-- Settles O41: the reset state has R45's values, and an idle engine with no move of the host leaves it. -/
theorem resetIsIdle : Obligations.ResetIsIdle := by
  have hstep : step State.reset = .next State.reset := step_of_not_busy (.inl rfl) rfl
  exact ⟨rfl, rfl, rfl, rfl, rfl, rfl, rfl, rfl, rfl, rfl, rfl, rfl, rfl, rfl, rfl, hstep⟩

end Sys2Proof.Machine
end

section
/-! BLOCK and the cutting change no result (O56). `EncoderPoint.packs` and `decoded` say what an engine makes of its
input, with no buffer, no host and no machine in them, and neither looks at BLOCK. The proof is one run of each engine,
which ends in what they say whatever the buffers and the cutting are; two runs on one source then end alike (R131 to
R133, R275). -/

namespace Sys2Proof.Machine

/-! Bytes of bits (R63, R81). -/

theorem bitsOfBytes_injective : Function.Injective bitsOfBytes := by
  have hbyte : Function.Injective bitsOfByte := Function.LeftInverse.injective byteOfBits_bitsOfByte
  intro xs
  induction xs with
  | nil =>
    intro ys h
    have hlen := (length_flatMap_bitsOfByte ys).symm.trans (congrArg List.length h).symm
    exact (List.length_eq_zero_iff.1 (by simpa [bitsOfBytes] using hlen)).symm
  | cons x xs ih =>
    rintro (_ | ⟨y, ys⟩) h
    · simpa [bitsOfBytes] using congrArg List.length h
    · simp only [bitsOfBytes, List.flatMap_cons] at h
      obtain ⟨hxy, hrest⟩ := List.append_inj h (by simp)
      rw [hbyte hxy, ih hrest]

/-- The bytes are the bits, the last byte completed with zeros (R81). -/
def Completes (bits : List Bool) (bytes : List Byte) : Prop :=
  ∃ pad, pad < 8 ∧ bitsOfBytes bytes = bits ++ List.replicate pad false

theorem Completes.unique {bits : List Bool} {xs ys : List Byte} (hx : Completes bits xs) (hy : Completes bits ys) :
    xs = ys := by
  obtain ⟨pad, hpad, hxs⟩ := hx
  obtain ⟨pad', hpad', hys⟩ := hy
  have hlen := (length_flatMap_bitsOfByte xs).symm.trans (congrArg List.length hxs)
  have hlen' := (length_flatMap_bitsOfByte ys).symm.trans (congrArg List.length hys)
  rw [List.length_append, List.length_replicate] at hlen hlen'
  obtain rfl : pad = pad' := by omega
  exact bitsOfBytes_injective (hxs.trans hys.symm)

/-- The stream bits of a pair, with the code counter at `n` (R64, R127). -/
def pairBits (n code : Nat) (x : Symbol) : List Bool := bitsLE (bitlen n) code ++ bitsOfByte x

theorem length_pairBits (n code : Nat) (x : Symbol) : (pairBits n code x).length = bitlen n + 8 := by simp [pairBits]

/-- Bits enough for a record begin with one (R93). -/
theorem exists_pairBits {n : Nat} {bits : List Bool} (h : bitlen n + 8 ≤ bits.length) :
    ∃ code x rest, code < 2 ^ bitlen n ∧ bits = pairBits n code x ++ rest := by
  have hcode : (bits.take (bitlen n)).length = bitlen n := List.length_take_of_le (by omega)
  have hsym : ((bits.drop (bitlen n)).take 8).length = 8 :=
    List.length_take_of_le (by rw [List.length_drop]; omega)
  refine ⟨natOfBits (bits.take (bitlen n)), byteOfBits ((bits.drop (bitlen n)).take 8),
    (bits.drop (bitlen n)).drop 8, (natOfBits_lt _).trans_eq (by rw [hcode]), ?_⟩
  have hfield := bitsLE_natOfBits (bits.take (bitlen n))
  rw [hcode] at hfield
  rw [pairBits, hfield, bitsOfByte_byteOfBits hsym, List.append_assoc, List.take_append_drop,
    List.take_append_drop]

/-! What the host reads of a run. -/

/-- The fields of STATUS and INFO beside the phase (R39). -/
def reported (s : State) : Mode × Bool × BitVec 3 × Nat := (s.mode, s.trunc, s.cause, s.info)

theorem registers_eq_of_reported {s t : State} (hp : s.phase = t.phase) (h : reported s = reported t) :
    statusReg s = statusReg t ∧ infoReg s = infoReg t := by
  simp only [reported, Prod.mk.injEq] at h
  obtain ⟨hmode, htrunc, hcause, hinfo⟩ := h
  simp only [statusReg, infoReg, busy, doneFlag, errFlag, modeBit, hp, hmode, htrunc, hcause, hinfo, and_self]

theorem SymInFrame.reported_eq {s t : State} (h : SymInFrame s t) : reported t = reported s := by
  rw [h]
  rfl

theorem PairInFrame.reported_eq {s t : State} (h : PairInFrame s t) : reported t = reported s := by
  rw [h]
  rfl

theorem symbolEffect_reported (x : Symbol) (s : State) : reported (symbolEffect x s) = reported s := by
  cases hc : childAt s s.cur x with
  | some c => rw [symbolEffect_of_some hc]; rfl
  | none =>
    have hf := miss_frame x s
    rw [symbolEffect_of_none hc]
    generalize miss x s = t at hf
    rw [hf]
    rfl

theorem endOfInput_reported (s : State) : reported (endOfInput s) = reported s := by
  rw [endOfInput_frame]
  rfl

theorem appendWord_reported (word : List Symbol) (x : Symbol) (s : State) :
    reported (appendWord word x s) = reported s := by
  rw [appendWord_frame]
  rfl

theorem stop_reported (s : State) : reported (stop s) = reported s := by
  have hf := flushSyms_frame s
  unfold stop
  generalize flushSyms s = u at hf
  rw [hf]
  rfl

theorem truncate_reported (s : State) : reported (truncate s) = (s.mode, true, causeTruncated, 0) := stop_reported _

theorem raise_badCode_reported (code : Nat) (s : State) :
    reported (raise .badCode code s) = (s.mode, s.trunc, causeBadCode, code % 2 ^ (s.params.codeBits + 1)) := rfl

/-! What an encode makes of its input. -/

/-- Where an encode stands: the code counter, the current node, the link that led to it unless it is the root, and the
trie's links (R21 to R23, R30). -/
structure EncoderPoint where
  code : Nat
  cur : Nat
  parent : Option (Nat × Symbol)
  links : Nat → Symbol → Option Nat

/-- The start of a run (R213). -/
def EncoderPoint.root (p : Params) : EncoderPoint := ⟨p.startCode, p.emptyCode, none, fun _ _ => none⟩

/-- ENC_SYM takes a link, or hangs a new one and returns to the root (R152, R153). -/
def EncoderPoint.next (p : Params) (x : Symbol) (e : EncoderPoint) : EncoderPoint :=
  match e.links e.cur x with
  | some c => { e with cur := c, parent := some (e.cur, x) }
  | none =>
    { code := counted p e.code
      cur := p.emptyCode
      parent := none
      links := fun n y =>
        if e.code + 1 = p.maxCode then none else if e.cur = n ∧ x = y then some e.code else e.links n y }

/-- The bits ENC_SYM packs: the pair of a miss (R153). -/
def EncoderPoint.sends (x : Symbol) (e : EncoderPoint) : List Bool :=
  if (e.links e.cur x).isSome then [] else pairBits e.code e.cur x

/-- The bits ENC_EOS packs: the pair of the match in progress, and the STOP pair (R155 to R157). -/
def EncoderPoint.closing (p : Params) (e : EncoderPoint) : List Bool :=
  match e.parent with
  | none => pairBits e.code p.stopCode 0
  | some (prev, x) => pairBits e.code prev x ++ pairBits (counted p e.code) p.stopCode 0

/-- The bits an encode packs from `e` on, for the symbols of its input. -/
def EncoderPoint.packs (p : Params) : EncoderPoint → List Symbol → List Bool
  | e, [] => e.closing p
  | e, x :: xs => e.sends x ++ EncoderPoint.packs p (e.next p x) xs

/-- What an encode packs does not depend on BLOCK (R275). -/
theorem EncoderPoint.packs_withBlock (p : Params) (b : Nat) (e : EncoderPoint) (xs : List Symbol) :
    e.packs { p with block := b } xs = e.packs p xs := by
  induction xs generalizing e with
  | nil => rfl
  | cons x xs ih => exact congrArg (e.sends x ++ ·) (ih (e.next p x))

/-- Where the encode of `s` stands. At the root `prev` and `last_sym` are not looked at (R23). -/
def encoderPoint (s : State) : EncoderPoint where
  code := s.nextCode
  cur := s.cur
  parent := if s.cur = s.params.emptyCode then none else some (s.prev, s.lastSym)
  links := childAt s

theorem SymInFrame.encoderPoint_eq {s t : State} (h : SymInFrame s t) : encoderPoint t = encoderPoint s := by
  rw [h]
  rfl

/-! A run of the encoder. -/

/-- ENC_SYM moves the encode on from its point (R151). -/
theorem Encoding.encoderPoint_symbolEffect {s : State} (h : Encoding s) (x : Symbol) :
    encoderPoint (symbolEffect x s) = (encoderPoint s).next s.params x := by
  obtain ⟨hempty, -⟩ := Params.codes h.params
  unfold EncoderPoint.next
  cases hc : childAt s s.cur x with
  | some c =>
    obtain ⟨-, hentry, -⟩ := h.trie.link _ _ _ hc
    have hne : c ≠ s.params.emptyCode := by omega
    have hlink : (encoderPoint s).links (encoderPoint s).cur x = some c := hc
    rw [symbolEffect_of_some hc, hlink]
    exact congrArg (EncoderPoint.mk s.nextCode c · (childAt s)) (if_neg hne)
  | none =>
    obtain ⟨-, hcode, -⟩ := miss_control x s
    obtain ⟨-, hcur⟩ := miss_position x s
    have hparams : (Machine.miss x s).params = s.params := by rw [miss_frame]
    have hlinks : childAt (Machine.miss x s) = fun n y =>
        if s.nextCode + 1 = s.params.maxCode then none
        else if s.cur = n ∧ x = y then some s.nextCode else childAt s n y := by
      funext n y
      split
      · rename_i hfull; exact childAt_miss_of_full x hfull n y
      · rename_i hroom; exact childAt_miss_of_room x hroom n y
    have hlink : (encoderPoint s).links (encoderPoint s).cur x = none := hc
    rw [symbolEffect_of_none hc, hlink, encoderPoint, hcode, hcur, hparams, hlinks, if_pos rfl]
    rfl

/-- ENC_SYM packs what the point says (R152, R153). -/
theorem Encoding.packedBits_symbolEffect {s : State} (h : Encoding s) (x : Symbol) :
    packedBits (symbolEffect x s) = packedBits s ++ (encoderPoint s).sends x := by
  unfold EncoderPoint.sends
  cases hc : childAt s s.cur x with
  | some c =>
    have hlink : (encoderPoint s).links (encoderPoint s).cur x = some c := hc
    rw [symbolEffect_of_some hc, hlink]
    exact (List.append_nil _).symm
  | none =>
    have hlink : (encoderPoint s).links (encoderPoint s).cur x = none := hc
    rw [symbolEffect_of_none hc, hlink]
    exact packedBits_miss x h.bits

theorem Encoding.symbolEffect {s : State} (h : Encoding s) (x : Symbol) : Encoding (symbolEffect x s) := by
  cases hc : childAt s s.cur x with
  | some c => rw [symbolEffect_of_some hc]; exact h.hit hc
  | none => rw [symbolEffect_of_none hc]; exact h.miss hc

/-- ENC_EOS sends what is packed and what the point says, its last byte completed (R155). -/
theorem Encoding.endOfInput_sends {s : State} (h : Encoding s) : ∃ pad, pad < 8 ∧
    bitsOfBytes (sinkBytes (endOfInput s)) =
      packedBits s ++ (encoderPoint s).closing s.params ++ List.replicate pad false := by
  obtain ⟨final, hfinal, hroot, hmatch⟩ := finalFlush_packs h.bits
  obtain ⟨pad, hpad, hstream⟩ := endOfInput_stream h.bits
  refine ⟨pad, hpad, ?_⟩
  rw [hstream, hfinal]
  unfold EncoderPoint.closing
  by_cases hcur : s.cur = s.params.emptyCode
  · have hparent : (encoderPoint s).parent = none := if_pos hcur
    obtain ⟨rfl, hcode⟩ := hroot hcur
    rw [hcode, hparent, List.append_nil]
    rfl
  · have hparent : (encoderPoint s).parent = some (s.prev, s.lastSym) := if_neg hcur
    obtain ⟨rfl, hcode⟩ := hmatch hcur
    rw [hcode, hparent, List.append_assoc (packedBits s)]
    rfl

/-- From `s` the encode ends, its source used up and its report kept, and it packs `B` from here on. -/
def EncodesAs (B : List Bool) (s : State) : Prop :=
  ∃ k t pad, Reaches k s t ∧ t.phase = .done ∧ t.source = [] ∧ reported t = reported s ∧ Forward s t ∧
    pad < 8 ∧ bitsOfBytes (sinkBytes t) = packedBits s ++ B ++ List.replicate pad false

/-- A step that packs `r`, and then what packs the rest. -/
theorem EncodesAs.of_step {B r : List Bool} {s v : State} (hstep : step s = .next v) (hf : Forward s v)
    (hreport : reported v = reported s) (hpack : packedBits v = packedBits s ++ r) (h : EncodesAs B v) :
    EncodesAs (r ++ B) s := by
  obtain ⟨k, t, pad, hrun, hphase, hsource, hr, hforward, hpad, hbits⟩ := h
  refine ⟨k + 1, t, pad, reaches_succ hstep hrun, hphase, hsource, hr.trans hreport, hf.trans hforward, hpad, ?_⟩
  rw [hbits, hpack, List.append_assoc (packedBits s)]

/-- An encode packs what its point says of its input, whatever BLOCK is and however the host answers (R131). -/
theorem Encoding.encodesAs {s : State} (h : Encoding s) :
    EncodesAs ((encoderPoint s).packs s.params (pendingSyms s)) s := by
  have hu := h.rdSym
  have hf := rdSym_frame s
  have hmove := rdSym_forward s
  induction hx : pendingSyms s generalizing s with
  | nil =>
    obtain ⟨hstep, hrest⟩ := h.step_end hx
    generalize (Machine.rdSym s).2 = u at hstep hrest hf hmove hu
    obtain ⟨pad, hpad, hbits⟩ := hu.endOfInput_sends
    rw [hf.packedBits_eq, hf.encoderPoint_eq, hf.fields.1] at hbits
    refine ⟨1, endOfInput u, pad, reaches_succ hstep (reaches_zero _), ?_, ?_,
      (endOfInput_reported u).trans hf.reported_eq, hmove.trans (endOfInput_forward hu.bits), hpad, hbits⟩
    · rw [endOfInput_frame]
    · rw [endOfInput_frame]
      exact hu.source_of_end hrest
  | cons x xs ih =>
    obtain ⟨hstep, hrest⟩ := h.step_symbol hx
    generalize (Machine.rdSym s).2 = u at hstep hrest hf hmove hu
    obtain ⟨-, -, -, hblock, -⟩ := Params.codes hu.params
    have hv := hu.symbolEffect x
    have hsent := hu.packedBits_symbolEffect x
    have hpoint := hu.encoderPoint_symbolEffect x
    have hgo := symbolEffect_forward (s := u) x hblock
    obtain ⟨-, -, hpend⟩ := symbolEffect_goes_on x u
    have hrun := ih hv hv.rdSym (rdSym_frame _) (rdSym_forward _) (hpend.trans hrest)
    rw [hpoint, hgo.params, hf.encoderPoint_eq, hf.fields.1] at hrun
    rw [hf.packedBits_eq, hf.encoderPoint_eq] at hsent
    exact hrun.of_step hstep (hmove.trans hgo) ((symbolEffect_reported x u).trans hf.reported_eq) hsent

/-! What a decode makes of its input. -/

/-- How a decode ends: what it has written, its phase and its report. -/
structure DecodeResult where
  out : List Symbol
  phase : Phase
  trunc : Bool
  cause : BitVec 3
  info : Nat

/-- The end with no record left (R175). -/
def DecodeResult.truncated : DecodeResult := ⟨[], .done, true, causeTruncated, 0⟩

/-- The end by a STOP record (R172). -/
def DecodeResult.stopped : DecodeResult := ⟨[], .done, false, causeNone, 0⟩

/-- The end by an illegal record (R174). -/
def DecodeResult.illegal (p : Params) (code : Nat) : DecodeResult :=
  ⟨[], .error, false, causeBadCode, code % 2 ^ (p.codeBits + 1)⟩

/-- The end `r`, after `word` has been written. -/
def DecodeResult.after (word : List Symbol) (r : DecodeResult) : DecodeResult := { r with out := word ++ r.out }

/-- How a decode of the bits ends that starts with the counter at `n` and the words of `D` (R96, R170 to R175). Each
record takes bits, so their number is enough fuel. -/
def decoded (p : Params) : Nat → Nat → WordTable → List Bool → DecodeResult
  | 0, _, _, _ => .truncated
  | fuel + 1, n, D, bits =>
    if bits.length < bitlen n + 8 then .truncated
    else
      let code := natOfBits (bits.take (bitlen n))
      let x := byteOfBits ((bits.drop (bitlen n)).take 8)
      if code = p.stopCode then .stopped
      else (D code).elim (.illegal p code) fun word =>
        (decoded p fuel (counted p n) (learn p n (word ++ [x]) D) (bits.drop (bitlen n + 8))).after (word ++ [x])

theorem decoded_of_short (p : Params) (fuel : Nat) {n : Nat} (D : WordTable) {bits : List Bool}
    (h : bits.length < bitlen n + 8) : decoded p fuel n D bits = .truncated := by
  cases fuel with
  | zero => rfl
  | succ fuel => exact if_pos h

/-- A record selects the decode's end or its next point (R96). -/
theorem decoded_of_record (p : Params) (fuel : Nat) {n code : Nat} (D : WordTable) (x : Symbol) (rest : List Bool)
    (fits : code < 2 ^ bitlen n) : decoded p (fuel + 1) n D (pairBits n code x ++ rest) =
      if code = p.stopCode then .stopped
      else (D code).elim (.illegal p code) fun word =>
        (decoded p fuel (counted p n) (learn p n (word ++ [x]) D) rest).after (word ++ [x]) := by
  have hlen : ¬ (pairBits n code x ++ rest).length < bitlen n + 8 := by
    rw [List.length_append, length_pairBits]
    omega
  have hcode : natOfBits ((pairBits n code x ++ rest).take (bitlen n)) = code := by
    rw [pairBits, List.append_assoc, List.take_left' (length_bitsLE _ _), natOfBits_bitsLE, Nat.mod_eq_of_lt fits]
  have hsym : byteOfBits (((pairBits n code x ++ rest).drop (bitlen n)).take 8) = x := by
    rw [pairBits, List.append_assoc, List.drop_left' (length_bitsLE _ _), List.take_left' (length_bitsOfByte x),
      byteOfBits_bitsOfByte]
  have hrest : (pairBits n code x ++ rest).drop (bitlen n + 8) = rest := List.drop_left' (length_pairBits n code x)
  rw [decoded, if_neg hlen, hcode, hsym, hrest]

/-- How a decode ends does not depend on BLOCK (R275). -/
theorem decoded_withBlock (p : Params) (b fuel n : Nat) (D : WordTable) (bits : List Bool) :
    decoded { p with block := b } fuel n D bits = decoded p fuel n D bits := by
  induction fuel generalizing n D bits with
  | zero => rfl
  | succ fuel ih =>
    simp only [decoded, ih]
    rfl

/-! A run of the decoder. -/

/-- From `s` the decode ends as `r` says; what it writes counts where it ends in DONE. -/
def DecodesAs (r : DecodeResult) (s : State) : Prop :=
  ∃ k t, Reaches k s t ∧ Ended t ∧ t.phase = r.phase ∧ reported t = (.dec, r.trunc, r.cause, r.info) ∧ Forward s t ∧
    (r.phase = .done → sinkBytes t = writtenBytes s ++ r.out)

/-- A step that writes `word`, and then the rest. -/
theorem DecodesAs.of_step {r : DecodeResult} {word : List Symbol} {s v : State} (hstep : step s = .next v)
    (hf : Forward s v) (hwritten : writtenBytes v = writtenBytes s ++ word) (h : DecodesAs r v) :
    DecodesAs (r.after word) s := by
  obtain ⟨k, t, hrun, hended, hphase, hreport, hforward, hsink⟩ := h
  refine ⟨k + 1, t, reaches_succ hstep hrun, hended, hphase, hreport, hf.trans hforward, fun hp => ?_⟩
  rw [hsink hp, hwritten, List.append_assoc]
  rfl

/-- The effect of a record read, or of its lack, that ends the run as `r` says. -/
theorem DecodesAs.of_end {r : DecodeResult} {w : Nat} {s t : State} (hstep : step s = .next t) (hended : Ended t)
    (hphase : t.phase = r.phase) (hreport : reported t = (.dec, r.trunc, r.cause, r.info))
    (hf : Forward (rdPair w s).2 t) (hsink : r.phase = .done → sinkBytes t = writtenBytes (rdPair w s).2 ++ r.out) :
    DecodesAs r s :=
  ⟨1, t, reaches_succ hstep (reaches_zero t), hended, hphase, hreport, (rdPair_forward w s).trans hf,
    fun hp => (rdPair_frame w s).writtenBytes_eq ▸ hsink hp⟩

/-- DEC_STOP sends what has been written (R172). -/
theorem sinkBytes_stop (s : State) : sinkBytes (stop s) = writtenBytes s := (flushSyms_spec s).1

/-- DEC_TRUNC sends what has been written (R175). -/
theorem sinkBytes_truncate (s : State) : sinkBytes (truncate s) = writtenBytes s := sinkBytes_stop _

/-- Where no record is left the decode ends truncated (R170, R175). -/
theorem Decoding.decodesAs_of_short {s : State} (h : Decoding s) (hr : reported s = (.dec, false, causeNone, 0))
    (hshort : (pendingBits s).length < bitlen s.nextCode + 8) : DecodesAs .truncated s := by
  obtain ⟨-, -, -, hB, -⟩ := Params.codes h.params
  obtain ⟨hread, -⟩ := rdPair_spec (bitlen s.nextCode) s h.bits.1 h.bits.2 hB h.host
  rw [if_neg (by omega)] at hread
  have hstep := step_of_rdPair_none (.inl h.moves) h.phase h.bits.1 h.bits.2
    (by rw [setMoves_tail_of_nil h.moves]; exact hread)
  rw [setMoves_tail_of_nil h.moves] at hstep
  have hroom := (h.rdPair (recordWidth s)).syms.le
  have hmode : (Machine.rdPair (recordWidth s) s).2.mode = .dec :=
    congrArg Prod.fst ((rdPair_frame _ s).reported_eq.trans hr)
  refine .of_end (hstep.trans (if_pos hroom)) (.inl rfl) rfl ?_ (truncate_forward hroom)
    fun _ => (sinkBytes_truncate _).trans (List.append_nil _).symm
  rw [truncate_reported, hmode]
  rfl

/-- A STOP record ends the decode (R172). -/
theorem Decoding.decodesAs_of_stop {s : State} (h : Decoding s) (hr : reported s = (.dec, false, causeNone, 0))
    {w : Nat} (hstep : step s = runStop (Machine.rdPair w s).2) : DecodesAs .stopped s := by
  have hroom := (h.rdPair w).syms.le
  exact .of_end (hstep.trans (runStop_of_room hroom)) (.inl rfl) rfl
    ((stop_reported _).trans ((rdPair_frame w s).reported_eq.trans hr)) (stop_forward hroom)
    fun _ => (sinkBytes_stop _).trans (List.append_nil _).symm

/-- A record whose code names no word ends the decode in ERROR (R174). -/
theorem DecodesAs.of_illegal {s : State} (hr : reported s = (.dec, false, causeNone, 0)) {w code : Nat} {x : Symbol}
    (hw : wordAt (rdPair w s).2 code = none) (hstep : step s = runPair code x (rdPair w s).2) :
    DecodesAs (.illegal s.params code) s := by
  have hraise : runPair code x (rdPair w s).2 = .next (raise .badCode code (rdPair w s).2) := by
    rw [runPair, hw]
  have hreport := (rdPair_frame w s).reported_eq.trans hr
  simp only [reported, Prod.mk.injEq] at hreport
  obtain ⟨hmode, htrunc, -⟩ := hreport
  refine .of_end (hstep.trans hraise) (.inr rfl) rfl ?_ (raise_forward .badCode code _) nofun
  rw [raise_badCode_reported, hmode, htrunc, (rdPair_frame w s).params]
  rfl

/-- A decode ends as its bits say, whatever BLOCK is and however the host answers (R132, R133). -/
theorem Decoding.decodesAs {s : State} (h : Decoding s)
    (hn : s.params.startCode ≤ s.nextCode ∧ s.nextCode < s.params.maxCode)
    (hr : reported s = (.dec, false, causeNone, 0)) {fuel : Nat} (hfuel : (pendingBits s).length ≤ fuel) :
    DecodesAs (decoded s.params fuel s.nextCode (wordAt s) (pendingBits s)) s := by
  induction fuel generalizing s with
  | zero => exact h.decodesAs_of_short hr (by omega)
  | succ fuel ih =>
    rcases lt_or_ge (pendingBits s).length (bitlen s.nextCode + 8) with hshort | hlong
    · rw [decoded_of_short s.params (fuel + 1) (wordAt s) hshort]
      exact h.decodesAs_of_short hr hshort
    obtain ⟨code, x, rest, fits, hbits⟩ := exists_pairBits hlong
    obtain ⟨hstep, hrest⟩ := h.step_record hbits fits
    rw [hbits, List.length_append, length_pairBits] at hfuel
    rw [hbits, decoded_of_record s.params fuel (wordAt s) x rest fits]
    by_cases hstop : code = s.params.stopCode
    · rw [if_pos hstop] at hstep ⊢
      exact h.decodesAs_of_stop hr hstep
    rw [if_neg hstop] at hstep ⊢
    have hf := rdPair_frame (bitlen s.nextCode) s
    obtain ⟨hp, -, -, hcode, -, -, -, -, hwt, -⟩ := hf.fields
    rw [← wordAt_congr hwt]
    cases hw : wordAt (Machine.rdPair (bitlen s.nextCode) s).2 code with
    | none => exact .of_illegal hr hw hstep
    | some word =>
      have hmove := rdPair_forward (bitlen s.nextCode) s
      have hreport := hf.reported_eq.trans hr
      have hu := h.rdPair (bitlen s.nextCode)
      generalize (Machine.rdPair (bitlen s.nextCode) s).2 = u at hstep hrest hf hp hcode hwt hw hmove hreport hu ⊢
      rw [← hp, ← hcode] at hn ⊢
      obtain ⟨-, -, -, hblock, -⟩ := Params.codes hu.params
      obtain ⟨pushed, happ⟩ := appendWord_appends word x hu.syms
      have hcontent : writtenBytes (Machine.appendWord word x u) = writtenBytes u ++ (word ++ [x]) := happ.content
      obtain ⟨-, hnext, -⟩ := appendWord_control word x u
      have hpend : pendingBits (Machine.appendWord word x u) = rest := by rw [← hrest, appendWord_frame]; rfl
      have hrun := ih (hu.appendWord word x) (by rw [hnext, happ.params]; exact counted_range hu.params hn)
        ((appendWord_reported word x u).trans hreport) (by rw [hpend]; omega)
      rw [hnext, happ.params, wordAt_appendWord, hpend] at hrun
      rw [hf.writtenBytes_eq] at hcontent
      exact hrun.of_step (hstep.trans (runPair_of_room x hw hn.2 hu.syms))
        (hmove.trans (appendWord_forward word x hblock)) hcontent

/-! From the host's write of START. -/

/-- How an encode ends that is started on `s`. -/
theorem encode_ends {s : State} {v : Word64} (hp : s.params.wf = true) (hb : busy s = false)
    (hv : v.getLsbD 0 = true) (hmode : v.getLsbD 1 = false) (hm : s.moves = [.regWrite 0 v])
    (hc : HostKeepsContract s) :
    ∃ k t body, Reaches k s t ∧ t.phase = .done ∧ reported t = (.enc, false, causeNone, 0) ∧
      sinkBytes t = sinkBytes s ++ body ∧ t.bytesOut = BitVec.ofNat 64 body.length ∧
      t.bytesIn = BitVec.ofNat 64 s.source.length ∧
      Completes ((EncoderPoint.root s.params).packs s.params s.source) body := by
  have hstep := step_of_start hv hm
  have hs : Encoding (startRun .enc (s.setMoves [])) := startRun_encoding hb hp rfl hc
  have hstart := startRun_enc (s := s.setMoves []) hb
  rw [if_neg (Bool.eq_false_iff.1 hmode), hstart] at hstep
  rw [hstart] at hs
  obtain ⟨k, t, pad, hrun, hphase, hsource, hreport, hforward, hpad, hbits⟩ := hs.encodesAs
  obtain ⟨body, hbody, hout⟩ := hforward.pushed rfl
  refine ⟨k + 1, t, body, reaches_succ hstep hrun, hphase, hreport, hbody, hout, hforward.pulled rfl hsource, pad, hpad,
    ?_⟩
  have hroot : encoderPoint ((runInit ((s.setMoves []).setMode .enc)).setPhase .encRun) = .root s.params :=
    congrArg (EncoderPoint.mk s.params.startCode s.params.emptyCode · fun _ _ => none) (if_pos rfl)
  rw [hbody, bitsOfBytes_append, packedBits, hroot] at hbits
  simpa [runInit, pendingSyms] using hbits

/-- How a decode ends that is started on `s`. -/
theorem decode_ends {s : State} {v : Word64} (hp : s.params.wf = true) (hb : busy s = false)
    (hv : v.getLsbD 0 = true) (hmode : v.getLsbD 1 = true) (hm : s.moves = [.regWrite 0 v])
    (hc : HostKeepsContract s) {r : DecodeResult}
    (hr : decoded s.params (bitsOfBytes s.source).length s.params.startCode (rootWord s.params)
      (bitsOfBytes s.source) = r) :
    ∃ k t, Reaches k s t ∧ Ended t ∧ t.phase = r.phase ∧ reported t = (.dec, r.trunc, r.cause, r.info) ∧
      (r.phase = .done → sinkBytes t = sinkBytes s ++ r.out ∧ t.bytesOut = BitVec.ofNat 64 r.out.length) := by
  have hstep := step_of_start hv hm
  have hs : Decoding (startRun .dec (s.setMoves [])) := startRun_decoding hb hp rfl hc
  have hstart := startRun_dec (s := s.setMoves []) hb
  obtain ⟨-, -, hmax, -⟩ := Params.codes hp
  rw [if_pos hmode, hstart] at hstep
  rw [hstart] at hs
  have hend : DecodesAs r ((runInit ((s.setMoves []).setMode .dec)).setPhase .decRun) :=
    hr ▸ hs.decodesAs ⟨le_rfl, hmax⟩ rfl le_rfl
  obtain ⟨k, t, hrun, hended, hphase, hreport, hforward, hwritten⟩ := hend
  obtain ⟨body, hbody, hout⟩ := hforward.pushed rfl
  refine ⟨k + 1, t, reaches_succ hstep hrun, hended, hphase, hreport, fun hdone => ?_⟩
  obtain rfl : body = r.out := by
    have hsink := hwritten hdone
    rw [hbody, writtenBytes] at hsink
    simpa [runInit, bufFront] using hsink
  exact ⟨hbody, hout⟩

/-- Settles O56: how a run ends is a function of its command and its source that BLOCK has no part in. -/
theorem blockChangesNoResult : Obligations.BlockChangesNoResult := by
  intro s s' v hp hp' hparams hb hb' hv hm hm' hc hc' hsource
  cases hmode : v.getLsbD 1 with
  | false =>
    obtain ⟨k, t, body, hrun, hphase, hreport, hsink, hout, hin, hbody⟩ := encode_ends hp hb hv hmode hm hc
    obtain ⟨k', t', body', hrun', hphase', hreport', hsink', hout', hin', hbody'⟩ :=
      encode_ends hp' hb' hv hmode hm' hc'
    have hpacks : Completes ((EncoderPoint.root s.params).packs s.params s.source) body' := by
      rw [hparams, ← hsource, EncoderPoint.packs_withBlock] at hbody'
      exact hbody'
    obtain rfl : body = body' := hbody.unique hpacks
    obtain ⟨hstatus, hinfo⟩ := registers_eq_of_reported (hphase.trans hphase'.symm) (hreport.trans hreport'.symm)
    exact ⟨k, k', t, t', hrun, hrun', .inl hphase, hstatus, hinfo,
      fun _ => ⟨hout.trans hout'.symm, body, hsink, hsink'⟩, fun _ => by rw [hin, hin', hsource]⟩
  | true =>
    obtain ⟨k, t, hrun, hended, hphase, hreport, hdone⟩ := decode_ends hp hb hv hmode hm hc rfl
    obtain ⟨k', t', hrun', -, hphase', hreport', hdone'⟩ := decode_ends hp' hb' hv hmode hm' hc'
      (by rw [hparams, ← hsource, decoded_withBlock])
    obtain ⟨hstatus, hinfo⟩ := registers_eq_of_reported (hphase.trans hphase'.symm) (hreport.trans hreport'.symm)
    refine ⟨k, k', t, t', hrun, hrun', hended, hstatus, hinfo, fun hd => ?_, fun henc => ?_⟩
    · obtain ⟨hsink, hout⟩ := hdone (hphase.symm.trans hd)
      obtain ⟨hsink', hout'⟩ := hdone' (hphase.symm.trans hd)
      exact ⟨hout.trans hout'.symm, _, hsink, hsink'⟩
    · have hdec : t.mode = .dec := congrArg Prod.fst hreport
      rw [hdec] at henc
      cases henc

end Sys2Proof.Machine
end
